-- ==== Sys2Proof/Word.lean ====
section
/-! DEFINITION. The words of the block (spec/00_scope.md R9): every value is unsigned; a byte is 8 bits, a command frame
48 bits with bit 47 first on the bus, an argument 32 bits, an index 6 bits, a checksum 7 bits. -/

namespace Sys2Proof

/-- R9: a byte is 8 bits, bit 7 the most significant. -/
abbrev Byte := BitVec 8

/-- R80: the 48-bit command frame, bit 47 (first on the bus) down to bit 0. -/
abbrev Frame := BitVec 48

/-- R80: the 6-bit command index. -/
abbrev Index := BitVec 6

/-- R80: the 32-bit argument. -/
abbrev Arg := BitVec 32

/-- R80: the 7-bit CRC operand of a frame. -/
abbrev Crc7 := BitVec 7

end Sys2Proof
end

