-- ==== Sys2Proof/Config.lean ====
section
/-! DEFINITION. The single configuration surface R8 asks for: the values the document fixes (constants), the parameters
R7 leaves OPEN (`Params`, carried unchanged by every state so that a statement over all states holds for every value of
them), and the free values: the card's answers (R32) and the open instances that reset uses. -/

namespace Sys2Proof

/-! ### Values fixed by the document (R7) -/

/-- R7 `BLOCK_SIZE`. -/
def Config.blockSize : Nat := 512
/-- R7 `RESP_BUDGET`. -/
def Config.respBudget : Nat := 1000
/-- R7 `FILL`. -/
def Config.fill : Byte := 0xFF
/-- R7 `FRAME_LEN`. -/
def Config.frameLen : Nat := 6
/-- R7 `IDLE_TRIES`. -/
def Config.idleTries : Nat := 5
/-- R7 `SETTLE_BYTES`: the least number of settle bytes. -/
def Config.settleBytes : Nat := 16
/-- R7 `INIT_BUDGET`, read as `RESP_BUDGET` (D44). -/
def Config.initBudget : Nat := 1000
/-- R7 `INIT_SLEEP_MS`. -/
def Config.initSleepMs : Nat := 50
/-- R7 `INIT_RATE`: its upper bound, 400 kHz in Hz. -/
def Config.initRateMax : Nat := 400000
/-- R172: the payload length of the capacity-register read. -/
def Config.csdLen : Nat := 16
/-- R62: the argument field holds numbers below this. -/
def Config.argLimit : Nat := 2 ^ 32

/-! ### The default bytes of the opcode table (R85, R88; general knowledge G4, G5) -/

def Config.tokenDataStart : Byte := 0xFE
def Config.tokenMultiWrite : Byte := 0xFC
def Config.tokenStopTran : Byte := 0xFD
def Config.drespAccept : BitVec 5 := 0b00101

/-! ### Bus events and the card -/

/-- R10, R33: one bus primitive as the event history records it. -/
inductive BusEvent where
  /-- `A`: chip-select asserted. -/
  | assert
  /-- `D`: chip-select deasserted. -/
  | deassert
  /-- `X(o,i)`: one exchange, `sent` out, `got` in. -/
  | xchg (sent got : Byte)
  deriving DecidableEq, Repr

/-- R32: the card as an oracle, "a function from the event history so far and a free choice to the byte answered to the
next `xchg`". FREE VALUE (log 2): no body, so a proof holds for every card. The history is newest event first; the number
is the count of free choices drawn so far. -/
opaque Config.cardAnswer : List BusEvent → Nat → Byte

/-! ### The open parameters (R7) -/

/-- R7 `CRC_POLICY`: where the CRC of a command the block issues itself comes from. -/
inductive CrcPolicy where
  /-- the default: `crc7_gen` -/
  | generator
  /-- the reference's own constants, which the document does not give (D8): a free function -/
  | reference
  deriving DecidableEq, Repr

/-- R7, D8: the unknown constants of `CRC_POLICY`. FREE VALUE (log 3): no body. -/
opaque Config.referenceCrc : Index → Arg → Crc7

/-- R7: the parameters that the document leaves OPEN. No operation writes them (R8). -/
structure Params where
  /-- `TOKEN_BUDGET`, a positive integer. -/
  tokenBudget : Nat
  /-- `BUSY_BUDGET`, a positive integer, or none for ∞. -/
  busyBudget : Option Nat
  /-- `CRC_POLICY`. -/
  crcPolicy : CrcPolicy
  tokenDataStart : Byte
  tokenMultiWrite : Byte
  tokenStopTran : Byte
  /-- `DRESP_ACCEPT`. -/
  drespAccept : BitVec 5
  /-- `FLAG_IDLE`: bits 6..0 of the status byte (bit 7 is never a flag, R82). -/
  flagIdle : BitVec 7
  /-- `FLAG_ILLEGAL`. -/
  flagIllegal : BitVec 7
  ifcondArg : Arg
  opcondArgG1 : Arg
  opcondArgG2 : Arg
  /-- the settle bytes boot step 1 clocks (R262: any number ≥ 16). -/
  settle : Nat
  /-- `INIT_RATE` in Hz, at most 400 kHz. -/
  initRate : Nat
  /-- `RUN_RATE` in Hz. -/
  runRate : Nat
  deriving DecidableEq, Repr

/-- R82, D17: a flag is a single bit below bit 7. -/
def singleBit (v : BitVec 7) : Bool :=
  [0x01#7, 0x02#7, 0x04#7, 0x08#7, 0x10#7, 0x20#7, 0x40#7].contains v

/-- The constraints R7, R85 and D17 put on the open parameters. -/
def Params.wf (p : Params) : Bool :=
  0 < p.tokenBudget && p.busyBudget != some 0
    && p.tokenDataStart != p.tokenMultiWrite && p.tokenDataStart != p.tokenStopTran
    && p.tokenMultiWrite != p.tokenStopTran && p.tokenDataStart != Config.fill
    && p.flagIdle != p.flagIllegal && singleBit p.flagIdle && singleBit p.flagIllegal
    && decide (Config.settleBytes ≤ p.settle) && decide (p.initRate ≤ Config.initRateMax)

/-- OPEN `TOKEN_BUDGET` less one (FREE VALUE, log 4). -/
opaque Config.tokenBudgetPred : Nat
/-- OPEN `BUSY_BUDGET` less one, or none for ∞ (FREE VALUE, log 4). -/
opaque Config.busyBudgetPred : Option Nat
/-- OPEN `INIT_RATE` (FREE VALUE, log 4). -/
opaque Config.initRateFree : Nat
/-- OPEN `RUN_RATE` (FREE VALUE, log 4). -/
opaque Config.runRateFree : Nat

/-- The instance `State.reset` carries: the defaults R7 names, and free values where R7 names none (log 4). -/
def Params.initial : Params where
  tokenBudget := Config.tokenBudgetPred + 1
  busyBudget := Config.busyBudgetPred.map (· + 1)
  crcPolicy := .generator
  tokenDataStart := Config.tokenDataStart
  tokenMultiWrite := Config.tokenMultiWrite
  tokenStopTran := Config.tokenStopTran
  drespAccept := Config.drespAccept
  flagIdle := 0x01
  flagIllegal := 0x04
  ifcondArg := 0x000001AA
  opcondArgG1 := 0x40000000
  opcondArgG2 := 0x40000000
  settle := Config.settleBytes
  initRate := min Config.initRateFree Config.initRateMax
  runRate := Config.runRateFree

end Sys2Proof
end

