-- ==== Sys2Proof/Syntax.lean ====
section
/-! DEFINITION. The instruction set: one constructor for every row of spec/opcode_table.json. The block has two levels of
"instruction" (R1): the operations a host issues (a call interface, R91, with no binary encoding) and the formats that
cross the bus (R80 to R90). -/

namespace Sys2Proof

/-- R190: the two tokens SEND_BLOCK may send before a payload. -/
inductive DataToken where
  | dataStart
  | multiWrite
  deriving DecidableEq, Repr

/-- R217: the operand of CONTROL. The document defines "get-sector-count" alone; every other value is `other`. -/
inductive ControlOp where
  | getSectorCount
  | other (code : Nat)
  deriving DecidableEq, Repr

/-- R23, D14: the abstract value of `RESP`. -/
inductive Response where
  | status (s : BitVec 7)
  | timeout
  deriving DecidableEq, Repr

/-- One constructor per row of spec/opcode_table.json, in the table's order. -/
inductive Instr where
  -- command frames (format CF): argument and CRC as the frame carries them
  | cmd0 (argument : Arg) (crc : Crc7)
  | cmd8 (argument : Arg) (crc : Crc7)
  | cmd9 (argument : Arg) (crc : Crc7)
  | cmd12 (argument : Arg) (crc : Crc7)
  | cmd16 (argument : Arg) (crc : Crc7)
  | cmd17 (argument : Arg) (crc : Crc7)
  | cmd18 (argument : Arg) (crc : Crc7)
  | cmd24 (argument : Arg) (crc : Crc7)
  | cmd25 (argument : Arg) (crc : Crc7)
  | acmd41 (argument : Arg) (crc : Crc7)
  | cmd55 (argument : Arg) (crc : Crc7)
  | cmd58 (argument : Arg) (crc : Crc7)
  | cfAny (index : Index) (argument : Arg) (crc : Crc7)
  -- single bytes and responses
  | tokenDataStart
  | tokenMultiWrite
  | tokenStopTran
  | r1 (flags : BitVec 7)
  | r1Tail (flags : BitVec 7) (extra : BitVec 32)
  | notStatus (ignored : BitVec 7)
  | drespAccepted (ignored : BitVec 3)
  | busy
  | fill
  -- data blocks
  | dblkR (skipped payload : List Byte) (sum0 sum1 : Byte)
  | dblkW (token : DataToken) (payload : List Byte)
  -- host operations
  | sendCommand (index argument crc : Nat)
  | awaitResponse (extraBytes : Nat) (release skipLeadByte : Bool)
  | readBlocks (startBlock len : Nat)
  | writeBlocks (startBlock len : Nat)
  | blockCount
  | blockSize
  | control (op : ControlOp)
  -- micro-operations
  | release
  | clockIdle (n : Nat)
  | checkBuffer (len : Nat)
  | waitToken
  | recvBlock (off n : Nat)
  | readSingle (startBlock : Nat)
  | readMulti (startBlock : Nat)
  | readCsd
  | sendBlock (token : DataToken) (off : Nat)
  | checkDresp
  | busyWait
  | sendStop
  | writeSingle (startBlock : Nat)
  | writeMulti (startBlock : Nat)
  -- pseudo-operations
  | cmd (index argument extraBytes : Nat) (release skipLeadByte : Bool)
  | acmd (index argument extraBytes : Nat) (release skipLeadByte : Bool)
  -- pure functions
  | build (index argument crc : Nat)
  | crc7Gen (b0 b1 b2 b3 b4 : Byte)
  | classify (r : Response)
  deriving DecidableEq, Repr

end Sys2Proof
end

