-- ==== Sys2Proof/WellFormed.lean ====
section
/-! DEFINITION. The operand domains of the rules (R92, D9, D40): what an operand must satisfy for its instruction to have
a meaning. Operands whose type already bounds them need no check. -/

namespace Sys2Proof

/-- R123, D9: index 0..63, argument 0..2^32-1, crc 0..127. -/
def frameOperandsOk (index argument crc : Nat) : Bool :=
  decide (index < 64) && decide (argument < Config.argLimit) && decide (crc < 128)

/-- R125: the operands of CMD and ACMD (their CRC is the block's own). -/
def cmdOperandsOk (index argument : Nat) : Bool := frameOperandsOk index argument 0

/-- R172, D40: RECV_BLOCK takes 512 or 16 payload bytes, no other length. -/
def payloadLenOk (n : Nat) : Bool := n == Config.blockSize || n == Config.csdLen

/-- The operand domain of an instruction under the parameters, as a check (R86 names a parameter, the data-start token). -/
def Instr.wellFormed (p : Params) : Instr → Bool
  | .sendCommand i a c => frameOperandsOk i a c
  | .build i a c => frameOperandsOk i a c
  | .cmd i a _ _ _ => cmdOperandsOk i a
  | .acmd i a _ _ _ => cmdOperandsOk i a
  | .recvBlock _ n => payloadLenOk n
  | .control op => op == .getSectorCount
  | .dblkR skipped payload _ _ => payloadLenOk payload.length && !skipped.contains p.tokenDataStart
  | .dblkW _ payload => payload.length == Config.blockSize
  | .cmd0 _ _ | .cmd8 _ _ | .cmd9 _ _ | .cmd12 _ _ | .cmd16 _ _ | .cmd17 _ _ | .cmd18 _ _ | .cmd24 _ _ | .cmd25 _ _
  | .acmd41 _ _ | .cmd55 _ _ | .cmd58 _ _ | .cfAny _ _ _ | .tokenDataStart | .tokenMultiWrite | .tokenStopTran
  | .r1 _ | .r1Tail _ _ | .notStatus _ | .drespAccepted _ | .busy | .fill | .awaitResponse _ _ _ | .readBlocks _ _
  | .writeBlocks _ _ | .blockCount | .blockSize | .release | .clockIdle _ | .checkBuffer _ | .waitToken
  | .readSingle _ | .readMulti _ | .readCsd | .sendBlock _ _ | .checkDresp | .busyWait | .sendStop
  | .writeSingle _ | .writeMulti _ | .crc7Gen _ _ _ _ _ | .classify _ => true

/-- R93: the twelve indices whose frames have a row of their own. -/
def namedIndex (i : Index) : Bool :=
  [0#6, 8#6, 9#6, 12#6, 16#6, 17#6, 18#6, 24#6, 25#6, 41#6, 55#6, 58#6].contains i

/-- The spelling the decoder answers: a frame of one of the twelve indices is that command's own constructor (R93), so
`cfAny` is the canonical form of the 52 other indices (R94). -/
def Instr.canonical : Instr → Bool
  | .cfAny i _ _ => !namedIndex i
  | _ => true

end Sys2Proof
end

