-- ==== Sys2Proof/Decode.lean ====
section
/-! DEFINITION. Reading and writing the bus formats (spec/30_encoding.md R80 to R94). The same byte means different rows
in different positions on the bus (a polled 0x00 is a status byte, a busy poll's 0x00 is BUSY), so the decoder is told the
position (`Slot`) and the parameters that name the tokens and the accepted data response (R7, R8); `decodeTableWord` is
its context-free form for the default parameters, the most specific row first (log 6). Host operations,
micro-operations, pseudo-operations and functions are calls and have no encoding (R91). -/

namespace Sys2Proof

/-! ### The frame (R80, R81) -/

/-- R81 `build`: 0b01 ++ index, the argument big-endian, crc ++ 0b1. -/
def build (index : Index) (argument : Arg) (crc : Crc7) : Frame :=
  0b01#2 ++ index ++ argument ++ crc ++ 1#1

/-- R9: `FRAME[k]` for k in 0..5, `FRAME[0]` = bits 47:40. -/
def frameByte (f : Frame) (k : Nat) : Byte := f.extractLsb' (40 - 8 * k) 8

/-- R53: the frame's bytes in the order they cross the bus. -/
def frameBytes (f : Frame) : List Byte :=
  [frameByte f 0, frameByte f 1, frameByte f 2, frameByte f 3, frameByte f 4, frameByte f 5]

/-- R80: bits 45:40. -/
def frameIndex (f : Frame) : Index := f.extractLsb' 40 6
/-- R80: bits 39:8. -/
def frameArgument (f : Frame) : Arg := f.extractLsb' 8 32
/-- R80: bits 7:1. -/
def frameCrc (f : Frame) : Crc7 := f.extractLsb' 1 7

/-- R94: the fixed bits every frame `build` yields has: bits 47:46 = 01 and bit 0 = 1. -/
def frameFixedOk (f : Frame) : Bool := f.extractLsb' 46 2 == 0b01#2 && f.extractLsb' 0 1 == 1#1

/-! ### The decoder -/

/-- Why bytes are no row of the table. -/
inductive DecodeError where
  /-- not the number of bytes the format has -/
  | wrongLength
  /-- R94: a frame whose bit 47, 46 or 0 `build` cannot produce -/
  | fixedBits
  /-- R85: not one of the three tokens -/
  | notToken
  /-- R82, R83: bit 7 set where a status byte must stand -/
  | notStatusByte
  /-- R88: the low five bits differ from the accepted pattern -/
  | rejectedDataResponse
  /-- R89: a non-zero byte is no busy byte -/
  | notBusy
  /-- R90: not 0xFF -/
  | notFiller
  /-- R86: no data-start token among the bytes -/
  | noDataStart
  /-- R87: the checksum positions of a written block are not FILL FILL -/
  | checksumNotFiller
  deriving DecidableEq, Repr

/-- A position on the bus at which a format is read. -/
inductive Slot where
  | commandFrame
  | statusPoll
  | statusTail
  | token
  | dataResponse
  | busyPoll
  | filler
  | blockIn (payloadLen : Nat)
  | blockOut
  deriving DecidableEq, Repr

/-- R93: the twelve indices select by `FRAME[0]`; R94: any other index is the generic frame. -/
def decodeFrame (f : Frame) : Except DecodeError Instr :=
  let i := frameIndex f
  let a := frameArgument f
  let c := frameCrc f
  if !frameFixedOk f then .error .fixedBits
  else if i = 0 then .ok (.cmd0 a c)
  else if i = 8 then .ok (.cmd8 a c)
  else if i = 9 then .ok (.cmd9 a c)
  else if i = 12 then .ok (.cmd12 a c)
  else if i = 16 then .ok (.cmd16 a c)
  else if i = 17 then .ok (.cmd17 a c)
  else if i = 18 then .ok (.cmd18 a c)
  else if i = 24 then .ok (.cmd24 a c)
  else if i = 25 then .ok (.cmd25 a c)
  else if i = 41 then .ok (.acmd41 a c)
  else if i = 55 then .ok (.cmd55 a c)
  else if i = 58 then .ok (.cmd58 a c)
  else .ok (.cfAny i a c)

/-- R82, R124: a polled byte: bit 7 clear is a status byte, bit 7 set is skipped. -/
def decodePolled (b : Byte) : Instr :=
  if b.extractLsb' 7 1 = 0#1 then .r1 (b.extractLsb' 0 7) else .notStatus (b.extractLsb' 0 7)

/-- R85: the three tokens. -/
def decodeToken (p : Params) (b : Byte) : Except DecodeError Instr :=
  if b = p.tokenDataStart then .ok .tokenDataStart
  else if b = p.tokenMultiWrite then .ok .tokenMultiWrite
  else if b = p.tokenStopTran then .ok .tokenStopTran
  else .error .notToken

/-- R88: the low five bits, bits 7:5 ignored. -/
def decodeDresp (p : Params) (b : Byte) : Except DecodeError Instr :=
  if b.extractLsb' 0 5 = p.drespAccept then .ok (.drespAccepted (b.extractLsb' 5 3)) else .error .rejectedDataResponse

/-- R89: 0x00 is still busy. -/
def decodeBusy (b : Byte) : Except DecodeError Instr := if b = 0 then .ok .busy else .error .notBusy

/-- R90: the filler byte. -/
def decodeFiller (b : Byte) : Except DecodeError Instr := if b = Config.fill then .ok .fill else .error .notFiller

/-- R86: what follows the data-start token: n payload bytes and two checksum bytes, no more and no fewer. -/
def decodeBlockBody (n : Nat) (skipped rest : List Byte) : Except DecodeError Instr :=
  match rest.drop n with
  | [c0, c1] => .ok (.dblkR skipped (rest.take n) c0 c1)
  | _ => .error .wrongLength

/-- R86: bytes that are not the data-start token are skipped (`seen`, newest first), then the block's body. -/
def decodeBlockIn (p : Params) (n : Nat) : List Byte → List Byte → Except DecodeError Instr
  | [], _ => .error .noDataStart
  | b :: rest, seen =>
    if b = p.tokenDataStart then decodeBlockBody n seen.reverse rest else decodeBlockIn p n rest (b :: seen)

/-- R87: the payload and the two checksum fillers of a written block. -/
def decodeBlockOutBody (t : DataToken) (rest : List Byte) : Except DecodeError Instr :=
  match rest.drop Config.blockSize with
  | [c0, c1] =>
    if c0 = Config.fill ∧ c1 = Config.fill then .ok (.dblkW t (rest.take Config.blockSize)) else .error .checksumNotFiller
  | _ => .error .wrongLength

/-- R87: token, payload, FILL FILL. -/
def decodeBlockOut (p : Params) : List Byte → Except DecodeError Instr
  | [] => .error .wrongLength
  | b :: rest =>
    if b = p.tokenDataStart then decodeBlockOutBody .dataStart rest
    else if b = p.tokenMultiWrite then decodeBlockOutBody .multiWrite rest
    else .error .notToken

/-- One byte at a position that holds one byte. -/
def decodeOne (f : Byte → Except DecodeError Instr) : List Byte → Except DecodeError Instr
  | [b] => f b
  | _ => .error .wrongLength

/-- Six bytes, the first on the bus in bits 47:40 (R80). -/
def decodeFrameBytes : List Byte → Except DecodeError Instr
  | [b0, b1, b2, b3, b4, b5] => decodeFrame (b0 ++ b1 ++ b2 ++ b3 ++ b4 ++ b5)
  | _ => .error .wrongLength

/-- R83: a status byte and four more bytes. -/
def decodeStatusTail : List Byte → Except DecodeError Instr
  | [b0, b1, b2, b3, b4] =>
    if b0.extractLsb' 7 1 = 0#1 then .ok (.r1Tail (b0.extractLsb' 0 7) (b1 ++ b2 ++ b3 ++ b4)) else .error .notStatusByte
  | _ => .error .wrongLength

/-- Decode, total on any bytes at any position. -/
def decodeAt (p : Params) (sl : Slot) (bs : List Byte) : Except DecodeError Instr :=
  match sl with
  | .commandFrame => decodeFrameBytes bs
  | .statusPoll => decodeOne (fun b => .ok (decodePolled b)) bs
  | .statusTail => decodeStatusTail bs
  | .token => decodeOne (decodeToken p) bs
  | .dataResponse => decodeOne (decodeDresp p) bs
  | .busyPoll => decodeOne decodeBusy bs
  | .filler => decodeOne decodeFiller bs
  | .blockIn n => decodeBlockIn p n bs []
  | .blockOut => decodeBlockOut p bs

/-! ### The encoder, from the same tables -/

/-- R80: a frame with the given index, as bytes. -/
def encodeFrame (i : Index) (a : Arg) (c : Crc7) : Option (List Byte) := some (frameBytes (build i a c))

/-- R190: the byte of a data token. -/
def tokenByte (p : Params) : DataToken → Byte
  | .dataStart => p.tokenDataStart
  | .multiWrite => p.tokenMultiWrite

/-- The four bytes of a response tail, first on the bus first. -/
def tailBytes (x : BitVec 32) : List Byte :=
  [x.extractLsb' 24 8, x.extractLsb' 16 8, x.extractLsb' 8 8, x.extractLsb' 0 8]

/-- R82: a status byte, 0 then its flags. -/
def statusByte (s : BitVec 7) : Byte := 0#1 ++ s

/-- R124: a polled byte that is no status byte. -/
def notStatusByte (x : BitVec 7) : Byte := 1#1 ++ x

/-- R88: a data-response byte with the pattern p. -/
def drespByte (ignored : BitVec 3) (p : BitVec 5) : Byte := ignored ++ p

/-- R86's bytes in bus order. -/
def blockInBytes (p : Params) (skipped payload : List Byte) (sum0 sum1 : Byte) : List Byte :=
  skipped ++ p.tokenDataStart :: (payload ++ [sum0, sum1])

/-- The bytes of an instruction that crosses the bus; none for the call interface (R91). -/
def encode (p : Params) : Instr → Option (List Byte)
  | .cmd0 a c => encodeFrame 0 a c
  | .cmd8 a c => encodeFrame 8 a c
  | .cmd9 a c => encodeFrame 9 a c
  | .cmd12 a c => encodeFrame 12 a c
  | .cmd16 a c => encodeFrame 16 a c
  | .cmd17 a c => encodeFrame 17 a c
  | .cmd18 a c => encodeFrame 18 a c
  | .cmd24 a c => encodeFrame 24 a c
  | .cmd25 a c => encodeFrame 25 a c
  | .acmd41 a c => encodeFrame 41 a c
  | .cmd55 a c => encodeFrame 55 a c
  | .cmd58 a c => encodeFrame 58 a c
  | .cfAny i a c => encodeFrame i a c
  | .tokenDataStart => some [p.tokenDataStart]
  | .tokenMultiWrite => some [p.tokenMultiWrite]
  | .tokenStopTran => some [p.tokenStopTran]
  | .r1 f => some [statusByte f]
  | .r1Tail f x => some (statusByte f :: tailBytes x)
  | .notStatus x => some [notStatusByte x]
  | .drespAccepted x => some [drespByte x p.drespAccept]
  | .busy => some [0]
  | .fill => some [Config.fill]
  | .dblkR skipped payload c0 c1 => some (blockInBytes p skipped payload c0 c1)
  | .dblkW t payload => some (tokenByte p t :: (payload ++ [Config.fill, Config.fill]))
  | .sendCommand _ _ _ | .awaitResponse _ _ _ | .readBlocks _ _ | .writeBlocks _ _ | .blockCount | .blockSize
  | .control _ | .release | .clockIdle _ | .checkBuffer _ | .waitToken | .recvBlock _ _ | .readSingle _ | .readMulti _
  | .readCsd | .sendBlock _ _ | .checkDresp | .busyWait | .sendStop | .writeSingle _ | .writeMulti _
  | .cmd _ _ _ _ _ | .acmd _ _ _ _ _ | .build _ _ _ | .crc7Gen _ _ _ _ _ | .classify _ => none

/-- The position at which an instruction's bytes stand; none for the call interface. -/
def Instr.slot : Instr → Option Slot
  | .cmd0 _ _ | .cmd8 _ _ | .cmd9 _ _ | .cmd12 _ _ | .cmd16 _ _ | .cmd17 _ _ | .cmd18 _ _ | .cmd24 _ _ | .cmd25 _ _
  | .acmd41 _ _ | .cmd55 _ _ | .cmd58 _ _ | .cfAny _ _ _ => some .commandFrame
  | .tokenDataStart | .tokenMultiWrite | .tokenStopTran => some .token
  | .r1 _ | .notStatus _ => some .statusPoll
  | .r1Tail _ _ => some .statusTail
  | .drespAccepted _ => some .dataResponse
  | .busy => some .busyPoll
  | .fill => some .filler
  | .dblkR _ payload _ _ => some (.blockIn payload.length)
  | .dblkW _ _ => some .blockOut
  | .sendCommand _ _ _ | .awaitResponse _ _ _ | .readBlocks _ _ | .writeBlocks _ _ | .blockCount | .blockSize
  | .control _ | .release | .clockIdle _ | .checkBuffer _ | .waitToken | .recvBlock _ _ | .readSingle _ | .readMulti _
  | .readCsd | .sendBlock _ _ | .checkDresp | .busyWait | .sendStop | .writeSingle _ | .writeMulti _
  | .cmd _ _ _ _ _ | .acmd _ _ _ _ _ | .build _ _ _ | .crc7Gen _ _ _ _ _ | .classify _ => none

/-! ### Words as spec/opcode_table.json numbers them -/

/-- The k bytes of a table word, first on the bus (the most significant) first. -/
def tableBytes : Nat → Nat → List Byte
  | 0, _ => []
  | k + 1, w => BitVec.ofNat 8 (w / 2 ^ (8 * k)) :: tableBytes k w

/-- The first position, of those given, at which the bytes are a row. -/
def decodeFirst (p : Params) (bs : List Byte) : List Slot → Option Instr
  | [] => none
  | sl :: rest =>
    match decodeAt p sl bs with
    | .ok i => some i
    | .error _ => decodeFirst p bs rest

/-- The row a table word stands for when nothing says where on the bus it stands: frames and status-with-tail by their
length, single bytes by the most specific row (log 6). -/
def decodeWord (p : Params) (nbits w : Nat) : Option Instr :=
  if nbits = 48 then (if w < 2 ^ 48 then decodeFirst p (tableBytes 6 w) [.commandFrame] else none)
  else if nbits = 40 then (if w < 2 ^ 40 then decodeFirst p (tableBytes 5 w) [.statusTail] else none)
  else if nbits = 8 then
    (if w < 2 ^ 8 then decodeFirst p (tableBytes 1 w) [.token, .filler, .busyPoll, .dataResponse, .statusPoll] else none)
  else none

/-- The same under the parameters of the reset instance, whose tokens and data response are the table's own (R85, R88, log 4). -/
def decodeTableWord (nbits w : Nat) : Option Instr := decodeWord Params.initial nbits w

end Sys2Proof
end

