-- ==== Sys2Proof/Machine/State.lean ====
section
/-! DEFINITION. The state of the block as plain data (spec/10_state.md): the Command Framer's registers (R21 to R25), the
Block Transfer Engine's (R26), the session registers (R27), the sequencer state that stands in for a program counter
(R30), the host buffer (R31, R50), the event history (R33), the card's lined-up answers (R32) and the host's calls (R20). -/

namespace Sys2Proof.Machine

/-! ### Small types -/

/-- R26 `OP`. -/
inductive Op where
  | none
  | read
  | write
  deriving DecidableEq, Repr

/-- R27 `VER`. -/
inductive Gen where
  | gen1
  | gen2
  deriving DecidableEq, Repr

/-- R27 `CDV`: the two legal multipliers. -/
inductive Cdv where
  | byteAddressed
  | sectorAddressed
  deriving DecidableEq, Repr

/-- R27: 512 for generation 1, 1 for generation 2. -/
def Cdv.toNat : Cdv → Nat
  | .byteAddressed => 512
  | .sectorAddressed => 1

/-- R28: the multiplier a version must have. -/
def Gen.cdv : Gen → Cdv
  | .gen1 => .byteAddressed
  | .gen2 => .sectorAddressed

/-- R230: which wait an IOTimeout ended. -/
inductive Wait where
  | waitingForData
  | writeCompletion
  deriving DecidableEq, Repr

/-- R230: which check an IOError failed, and the byte or sentinel it saw. -/
inductive IoCause where
  | commandStatus (r : Response)
  | stopStatus (r : Response)
  | dataRejected (b : Byte)
  deriving DecidableEq, Repr

/-- R232: why a card is unsupported. -/
inductive Unsupported where
  | ifcondStatus (r : Response)
  | csdStatus (r : Response)
  | csdVersion (v : BitVec 2)
  deriving DecidableEq, Repr

/-- R230: the seven errors with the information the spec records of each. -/
inductive BlockError where
  | noCard
  | unsupportedCard (why : Unsupported)
  | initTimeout (branch : Gen)
  | blockLengthError (r : Response)
  | ioTimeout (wait : Wait)
  | ioError (cause : IoCause)
  | invalidArgument (len : Nat)
  deriving DecidableEq, Repr

/-- R126: the classes of a response. -/
inductive RespClass where
  | noResponse
  | readyOk
  | idleOnly
  | idleAndIllegal
  | other (s : BitVec 7)
  deriving DecidableEq, Repr

/-- What the last operation gave the host: R11's "return: a result value" or "error". A field of the MODEL (log 7). -/
inductive Result where
  | none
  | done
  | success
  | frame (f : Frame)
  | response (r : Response)
  | count (n : Nat)
  | crc (c : Crc7)
  | cls (c : RespClass)
  | error (e : BlockError)
  deriving DecidableEq, Repr

/-! ### The sequencer (R30) -/

/-- R50, R176: the buffer a received payload goes to: the host buffer of a transfer, or the destination of READ_CSD. -/
inductive Dest where
  | host
  | csd
  deriving DecidableEq, Repr

/-- What a run of filler exchanges is for (R90). It has no effect on them. -/
inductive FillWhy where
  | release
  | settle
  | drain
  | checksumIn
  | checksumOut
  | clock
  deriving DecidableEq, Repr

/-- R30 `PHASE`: the bus primitive the sequencer does next. -/
inductive Phase where
  /-- between operations -/
  | idle
  /-- R123 steps 1, 2: assert chip-select, build FRAME -/
  | assert (index : Index) (argument : Arg) (crc : Crc7)
  /-- R123 step 3: send FRAME[k] -/
  | frame (k : Nat)
  /-- R124 step 2: read and discard the lead byte -/
  | skipLead (extra : Nat) (release : Bool)
  /-- R124 steps 3, 4: poll for the status byte -/
  | poll (extra : Nat) (release : Bool)
  /-- R120, R121 step 1: deassert chip-select; n fillers follow -/
  | deassert (why : FillWhy) (n : Nat)
  /-- filler exchanges whose received byte is discarded, n left -/
  | fill (why : FillWhy) (n : Nat)
  /-- R190 step 1, R196 step 1: send one token byte -/
  | tx (b : Byte)
  /-- R171 step 3 -/
  | token
  /-- R172 step 3: receive payload byte BYTE_IDX of n into offset off + BYTE_IDX of the destination -/
  | recv (dest : Dest) (off n : Nat)
  /-- R190 step 3: send payload byte BYTE_IDX from off -/
  | send (off : Nat)
  /-- R191 step 1 -/
  | dresp
  /-- R192 step 3 -/
  | busy
  deriving DecidableEq, Repr

/-- Which status check an operation makes after a response, and so which error it raises. -/
inductive StatusCheck where
  /-- R173, R174, R193, R194 step 2: RELEASE, then IOError(command_status) -/
  | command
  /-- R174 step 6: IOError(stop_status), chip-select already released -/
  | stop
  /-- R176 step 2: RELEASE, then UnsupportedCard(csd_status) -/
  | csd
  deriving DecidableEq, Repr

/-- What an operation returns when it ends without error. -/
inductive Ret where
  | done
  | success
  | frame
  | response
  deriving DecidableEq, Repr

/-- What is left to do of the operations in flight, the innermost first: the return points of the numbered steps. -/
inductive Cont where
  /-- R125: AWAIT_RESPONSE after the frame -/
  | await (extra : Nat) (release skip : Bool)
  /-- R124 step 6 -/
  | releaseIf (release : Bool)
  /-- R120 -/
  | release
  /-- R125: a further CMD -/
  | cmd (index : Index) (argument : Arg) (extra : Nat) (release skip : Bool)
  /-- the status must be 0x00 -/
  | status (check : StatusCheck)
  /-- R172 -/
  | recvBlock (dest : Dest) (off n : Nat)
  /-- R172 steps 2, 3 -/
  | payload (dest : Dest) (off n : Nat)
  /-- R174 step 4 at BLK_IDX = k -/
  | readFrom (k : Nat)
  /-- filler exchanges -/
  | fill (why : FillWhy) (n : Nat)
  /-- R190 -/
  | sendBlock (token : DataToken) (off : Nat)
  /-- R190 steps 2, 3 -/
  | sendPayload (off : Nat)
  /-- R191 -/
  | checkDresp
  /-- R192 -/
  | busyWait
  /-- R194 step 4 at BLK_IDX = k -/
  | writeFrom (k : Nat)
  /-- R196 -/
  | sendStop
  /-- the operation ends and returns -/
  | finish (v : Ret)
  /-- the operation ends with an error (after its RELEASE) -/
  | raise (e : BlockError)
  deriving DecidableEq, Repr

/-! ### The host (R20 agent 1) -/

/-- R261: where the Initialization State Machine stands: what was just done and is now to be judged. -/
inductive Boot where
  /-- start of construction; DEBUG is a construction argument (R35) -/
  | start (debug : Bool)
  | clocked
  | idleTried (attempt : Nat)
  | probed
  | gen1Announced (iteration : Nat)
  | gen1Polled (iteration : Nat)
  | gen2OcrRead (iteration : Nat)
  | gen2Announced (iteration : Nat)
  | gen2Polled (iteration : Nat)
  | gen2Reread
  | csdRead
  | blockLenSent
  deriving DecidableEq, Repr

/-- What the host does next. -/
inductive HostCall where
  /-- issue an operation (the call interface of R91) -/
  | call (i : Instr)
  /-- issue what a word of spec/opcode_table.json stands for -/
  | wire (nbits w : Nat)
  /-- write its own buffer between operations (R31: "It belongs to the host") -/
  | poke (off : Nat) (bytes : List Byte)
  /-- take a step of the Initialization State Machine -/
  | boot (b : Boot)
  deriving DecidableEq, Repr

/-! ### The bus and the card -/

/-- R31 space 3: the event history and what the card will answer. -/
structure Bus where
  /-- R33: the event history, newest event first -/
  hist : List BusEvent
  /-- R32: answers the card has lined up for the next exchanges -/
  cardIn : List Byte
  /-- the MODEL's count of the card's free choices drawn (log 2) -/
  draws : Nat
  deriving DecidableEq, Repr

/-! ### The state -/

structure State where
  /-- R7: the open parameters; no operation writes them (R8) -/
  cfg : Params
  /-- R21 `CS`: true = asserted -/
  cs : Bool
  /-- R22 `FRAME` -/
  frame : Frame
  /-- R23 `RESP` -/
  resp : Response
  /-- R24 `PENDING` -/
  pending : Bool
  /-- R25 `POLL_CNT` -/
  pollCnt : Nat
  /-- R26 `OP` -/
  op : Op
  /-- R26 `BLK_N` -/
  blkN : Nat
  /-- R26 `BLK_IDX` -/
  blkIdx : Nat
  /-- R26 `BYTE_IDX` -/
  byteIdx : Nat
  /-- R26 `TOK` -/
  tok : Byte
  /-- R26 `DRESP` -/
  dresp : Byte
  /-- R26 `TOKEN_CNT` -/
  tokenCnt : Nat
  /-- R26 `BUSY_CNT` -/
  busyCnt : Nat
  /-- R26 `ERR`: none = NONE -/
  err : Option BlockError
  /-- R27 `VER`: none = unset (R28, R35) -/
  ver : Option Gen
  /-- R27 `CDV`: none = unset -/
  cdv : Option Cdv
  /-- R27 `SECTORS`: none = unset -/
  sectors : Option Nat
  /-- R27 `BUS_RATE` in Hz -/
  busRate : Nat
  /-- R27 `DEBUG` -/
  debug : Bool
  /-- R27 `READY` -/
  ready : Bool
  /-- R30 `PHASE` -/
  phase : Phase
  /-- R30: the return points of the operations in flight -/
  stack : List Cont
  /-- R31, R50: the bytes of the host buffer; one memory for the buffers of all operations, each the offsets from 0 up (the
  model's choice, log 8) -/
  buf : List Host.Cell
  /-- R50: the length L of the buffer the host passed; offsets 0..L-1 exist -/
  bufLen : Nat
  /-- R50, R176: the 16-byte destination of READ_CSD -/
  csd : List Host.Cell
  /-- R32, R33: the bus as seen from the block -/
  bus : Bus
  /-- R20: the host's calls still to be made, the next first -/
  host : List HostCall
  /-- the MODEL's record of what the last operation gave the host (log 7) -/
  result : Result
  deriving DecidableEq, Repr

/-- The one reason a step faults. -/
inductive Fault where
  /-- R50: a payload byte was to be moved at an offset outside 0..L-1 of its buffer, which does not exist. Raised by the
  sequencer's payload steps, in no state of the invariant: an operation whose buffer is too short is refused when it is
  issued (`bufferTooShort`, R11, log 8). Safe: the machine stops where the spec gives no byte. -/
  | hostBufferOutOfRange (off : Nat)
  deriving DecidableEq, Repr

/-- Why a request has no meaning (R11 outcome 3). All are safe: the model stops and claims nothing. -/
inductive Refusal where
  /-- an instruction whose meaning is not written yet -/
  | notModelled (mnemonic : String)
  /-- D9, D40: an operand outside its domain. Raised by the meanings that take such operands. -/
  | operandOutOfDomain
  /-- R65, R247: issued while another operation is in flight. Raised by every bus operation. -/
  | operationInFlight
  /-- R24, D15: issued while PENDING = 1 and not AWAIT_RESPONSE. -/
  | responsePollDue
  /-- R24, R124: AWAIT_RESPONSE with PENDING = 0. -/
  | noCommandPending
  /-- R175, R195, R215, D31: READY = 0. -/
  | notReady
  /-- R62, D10: start_block * CDV does not fit 32 bits. -/
  | argumentTooWide
  /-- R28, D43: SECTORS or CDV is unset, "an operation that would read it is refused". Raised by the facade queries and the
  transfers, in no state of the invariant (READY = 0 is refused first). Safe: the spec refuses it. -/
  | registerUnset
  /-- R217, D38: an op other than "get-sector-count". -/
  | unknownControlOp
  /-- R171, R172, R190, R192: the precondition on CS, or on the acknowledged command, does not hold. -/
  | preconditionUnmet
  /-- R173, R174, R193, R194: READ_SINGLE or WRITE_SINGLE with BLK_N ≠ 1, READ_MULTI or WRITE_MULTI with BLK_N < 2. -/
  | blockCountMismatch
  /-- R50, R172, R190, R11: the host buffer has not all the offsets the operation would move (log 8). Raised by RECV_BLOCK,
  SEND_BLOCK and the transfer cases issued alone. -/
  | bufferTooShort
  /-- R94: a wire word that is no row of the table. Raised by step. -/
  | undecodable
  deriving DecidableEq, Repr

/-- R35, R260: the state at the start of construction; the host is the Initialization State Machine at boot step 1. The
values R35 calls unspecified are 0 or false, and RESP, which R35 calls unwritten, holds TIMEOUT (log 5). -/
def State.reset : State where
  cfg := Params.initial
  cs := false
  frame := 0
  resp := .timeout
  pending := false
  pollCnt := 0
  op := .none
  blkN := 0
  blkIdx := 0
  byteIdx := 0
  tok := 0
  dresp := 0
  tokenCnt := 0
  busyCnt := 0
  err := none
  ver := none
  cdv := none
  sectors := none
  busRate := 0
  debug := false
  ready := false
  phase := .idle
  stack := []
  buf := []
  bufLen := 0
  csd := []
  bus := { hist := [], cardIn := [], draws := 0 }
  host := [.boot (.start false)]
  result := .none

end Sys2Proof.Machine
end

