-- ==== Sys2Proof/Machine/Operands.lean ====
section
/-! DEFINITION. Operand assembly (R92): the CRC-7 generator and CRC_POLICY, the address translation start_block * CDV, the
bytes of the data tokens, the block count of a buffer, and the fields of the capacity register (R268). -/

namespace Sys2Proof.Machine

/-! ### The CRC-7 generator (R122) -/

/-- R122: one input bit: shift left, and xor 0x09 when the bit leaving differs from the input. -/
def crc7Bit (c : Crc7) (b : Bool) : Crc7 :=
  let shifted := c <<< 1
  if (c.getLsbD 6 ^^ b) then shifted ^^^ 0b0001001 else shifted

/-- R122: the bits of a byte, 7 down to 0. -/
def byteBits (b : Byte) : List Bool :=
  [b.getLsbD 7, b.getLsbD 6, b.getLsbD 5, b.getLsbD 4, b.getLsbD 3, b.getLsbD 2, b.getLsbD 1, b.getLsbD 0]

/-- R122: one byte. -/
def crc7Byte (c : Crc7) (b : Byte) : Crc7 := (byteBits b).foldl crc7Bit c

/-- R122 `crc7_gen` over bytes in bus order, from 0, no final inversion. -/
def crc7 (bs : List Byte) : Crc7 := bs.foldl crc7Byte 0

/-- R122: `crc7_gen(index, argument)`, over the first 40 bits of the frame. -/
def crc7Of (i : Index) (a : Arg) : Crc7 := crc7 ((frameBytes (build i a 0)).take 5)

/-- R125, R7 `CRC_POLICY(index, argument)`. -/
def crcFor (p : Params) (i : Index) (a : Arg) : Crc7 :=
  match p.crcPolicy with
  | .generator => crc7Of i a
  | .reference => Config.referenceCrc i a

/-! ### The CRC-16 (R177: information only; no operation uses it) -/

/-- R177: one shift. -/
def crc16Shift (c : BitVec 16) : BitVec 16 := if c.getLsbD 15 then (c <<< 1) ^^^ 0x1021 else c <<< 1

/-- R177: one byte, eight shifts. -/
def crc16Byte (c : BitVec 16) (b : Byte) : BitVec 16 :=
  let c := c ^^^ (b ++ 0#8)
  crc16Shift (crc16Shift (crc16Shift (crc16Shift (crc16Shift (crc16Shift (crc16Shift (crc16Shift c)))))))

/-- R177 `crc16`. -/
def crc16 (bs : List Byte) : BitVec 16 := bs.foldl crc16Byte 0

/-! ### Addresses, tokens, lengths -/

/-- R62: the command argument of a transfer, or none where the product does not fit 32 bits (D10). -/
def transferArgument (startBlock : Nat) (m : Cdv) : Option Arg :=
  if startBlock * m.toNat < Config.argLimit then some (BitVec.ofNat 32 (startBlock * m.toNat)) else none

/-- R57, R170: a legal buffer length is a positive multiple of 512. -/
def bufferLenOk (len : Nat) : Bool := 0 < len && len % Config.blockSize == 0

/-! ### The capacity register (R97, R268) -/

/-- R97: byte k of the register, in arrival order. -/
def csdByte (csd : List Byte) (k : Nat) : Byte := csd.getD k 0

/-- R97: the version field, the top two bits of byte 0. -/
def csdVersion (csd : List Byte) : BitVec 2 := (csdByte csd 0).extractLsb' 6 2

/-- R268: the version-2 sector count. -/
def csdSectors2 (csd : List Byte) : Nat := ((csdByte csd 8).toNat * 256 + (csdByte csd 9).toNat + 1) * 1024

/-- R268: `c_size`, 12 bits: byte 6 [1:0] ++ byte 7 ++ byte 8 [7:6]. -/
def csdCSize (csd : List Byte) : BitVec 12 :=
  (csdByte csd 6).extractLsb' 0 2 ++ csdByte csd 7 ++ (csdByte csd 8).extractLsb' 6 2

/-- R268: `c_size_mult`, 3 bits: byte 9 [1:0] ++ byte 10 [7]. -/
def csdCSizeMult (csd : List Byte) : BitVec 3 := (csdByte csd 9).extractLsb' 0 2 ++ (csdByte csd 10).extractLsb' 7 1

/-- R268: the version-1 sector count. -/
def csdSectors1 (csd : List Byte) : Nat := ((csdCSize csd).toNat + 1) * 2 ^ ((csdCSizeMult csd).toNat + 2)

/-- R268: the sector count, or none where the version is neither 01 nor 00. -/
def csdSectors (csd : List Byte) : Option Nat :=
  if csdVersion csd = 0b01 then some (csdSectors2 csd)
  else if csdVersion csd = 0b00 then some (csdSectors1 csd)
  else none

end Sys2Proof.Machine
end

