-- ==== Sys2Proof/Machine/Flags.lean ====
section
/-! DEFINITION. The block's condition state (R29): it has no arithmetic flags; what it tests is the whole status byte,
the timeout sentinel, the low five bits of a data response, and the two preconditions on an acknowledged command. -/

namespace Sys2Proof.Machine

/-- R126 `classify`. Whole bytes are compared, in the rule's order. -/
def classifyResponse (p : Params) : Response → RespClass
  | .timeout => .noResponse
  | .status s =>
    if s = 0 then .readyOk
    else if s = p.flagIdle then .idleOnly
    else if s = p.flagIdle ||| p.flagIllegal then .idleAndIllegal
    else .other s

/-- R82, R124: bit 7 clear marks a status byte. -/
def isStatusByte (b : Byte) : Bool := !b.getLsbD 7

/-- R23: the flags of a status byte, bits 6:0. -/
def statusBits (b : Byte) : BitVec 7 := b.extractLsb' 0 7

/-- R88, R191: bits 4:0 equal the accepted pattern; bits 7:5 ignored. -/
def drespAccepts (p : Params) (b : Byte) : Bool := b.extractLsb' 0 5 == p.drespAccept

/-- R171: "a read command has been acknowledged with status 0", chip-select still asserted. -/
def readAcknowledged (s : State) : Bool :=
  s.cs && s.resp == .status 0 && [9#6, 17#6, 18#6].contains (frameIndex s.frame)

/-- R190: "a write command has been acknowledged with status 0", chip-select still asserted. -/
def writeAcknowledged (s : State) : Bool :=
  s.cs && s.resp == .status 0 && [24#6, 25#6].contains (frameIndex s.frame)

/-- R192: the wait's budget is spent (never when it is ∞). -/
def busyBudgetSpent (p : Params) (n : Nat) : Bool := p.busyBudget == some n

end Sys2Proof.Machine
end

