-- ==== Sys2Proof/Machine/Ops.lean ====
section
/-! DEFINITION. The shared operations: the host buffer's memory, the bus primitives (R10), raising an error (R241) and
the return beside it (R243), entering each micro-operation, returning from one (`ret`), and one step of the sequencer
(`tick`: one bus primitive and the register updates its rule attaches, R20). -/

namespace Sys2Proof.Machine

/-- The outcome of a step. -/
abbrev Out := Host.Outcome State Fault Refusal

/-! ### Host buffer memory (R31, R50)

A list of (offset, byte) in canonical form: offsets strictly rising, no entry equal to what an unlisted offset reads. -/

/-- What an offset no one has written reads as (log 8). -/
def Memory.unlisted : Byte := 0

/-- The canonical form. -/
abbrev Memory.wf (m : List Host.Cell) : Prop :=
  m.Pairwise (fun x y => x.1 < y.1) ∧ ∀ c ∈ m, c.2 ≠ Memory.unlisted

/-- `MemRead(a, 1)`. -/
def Memory.read : List Host.Cell → Nat → Byte
  | [], _ => Memory.unlisted
  | (k, v) :: rest, a => if a = k then v else Memory.read rest a

/-- `MemWrite(a, 1, b)`. -/
def Memory.write : List Host.Cell → Nat → Byte → List Host.Cell
  | [], a, b => if b = Memory.unlisted then [] else [(a, b)]
  | (k, v) :: rest, a, b =>
    if a < k then (if b = Memory.unlisted then (k, v) :: rest else (a, b) :: (k, v) :: rest)
    else if a = k then (if b = Memory.unlisted then rest else (a, b) :: rest)
    else (k, v) :: Memory.write rest a b

/-- Consecutive bytes from offset a up. -/
def Memory.writeList (m : List Host.Cell) : Nat → List Byte → List Host.Cell
  | _, [] => m
  | a, b :: rest => Memory.writeList (Memory.write m a b) (a + 1) rest

/-- `MemRead(a, n)`. -/
def Memory.readList (m : List Host.Cell) (a : Nat) : Nat → List Byte
  | 0 => []
  | n + 1 => Memory.read m a :: Memory.readList m (a + 1) n

/-! ### The destinations of a received payload (R50) -/

/-- How many offsets the destination has: L of the host buffer, or the 16 of READ_CSD's. -/
def Dest.len (bufLen : Nat) : Dest → Nat
  | .host => bufLen
  | .csd => Config.csdLen

/-- The bytes the destination holds. -/
def Dest.bytes (s : State) : Dest → List Host.Cell
  | .host => s.buf
  | .csd => s.csd

/-- The state whose destination holds m. -/
def Dest.put (m : List Host.Cell) (s : State) (d : Dest) : State :=
  { s with
    buf := match d with
      | .host => m
      | .csd => s.buf
    csd := match d with
      | .host => s.csd
      | .csd => m }

/-! ### Bus primitives (R10) -/

/-- R32: the card's answer to the next exchange: the next byte it has lined up, else a free choice. -/
def Bus.answer (b : Bus) : Byte :=
  match b.cardIn with
  | x :: _ => x
  | [] => Config.cardAnswer b.hist b.draws

/-- R10 `xchg(o)` on the bus: the event, and the answer is used up. -/
def Bus.xchg (o : Byte) (b : Bus) : Bus :=
  match b.cardIn with
  | _ :: rest => { b with hist := .xchg o b.answer :: b.hist, cardIn := rest }
  | [] => { b with hist := .xchg o b.answer :: b.hist, draws := b.draws + 1 }

/-- R10: an event without an exchange. -/
def Bus.note (e : BusEvent) (b : Bus) : Bus := { b with hist := e :: b.hist }

/-- R10 `tx`: several exchanges, the received bytes discarded. -/
def Bus.send : List Byte → Bus → Bus
  | [], b => b
  | o :: os, b => Bus.send os (b.xchg o)

/-- The bytes received while sending `os`. -/
def Bus.answers : List Byte → Bus → List Byte
  | [], _ => []
  | o :: os, b => b.answer :: Bus.answers os (b.xchg o)

/-- The byte the next exchange receives. -/
def answer (s : State) : Byte := s.bus.answer

/-- R10 `xchg(o)`; the byte received is `answer s`. -/
def xchg (o : Byte) (s : State) : State := { s with bus := s.bus.xchg o }

/-- R10 `cs_assert()`. -/
def csAssert (s : State) : State := { s with cs := true, bus := s.bus.note .assert }

/-- R10 `cs_deassert()`. -/
def csDeassert (s : State) : State := { s with cs := false, bus := s.bus.note .deassert }

/-- R10 `set_clock_rate(hz)`: no bus event. -/
def setClockRate (hz : Nat) (s : State) : State := { s with busRate := hz }

/-- R266 `sleep(ms)`: "no bus event and no effect on any register" (D41). -/
def sleep (_ms : Nat) (s : State) : State := s

/-- R20 agent 4: the card will answer the next exchanges with these bytes. -/
def present (bs : List Byte) (s : State) : State := { s with bus := { s.bus with cardIn := bs ++ s.bus.cardIn } }

/-- R20 agent 4: the card lines bytes up behind those it has lined up already. -/
def lineUp (bs : List Byte) (s : State) : State := { s with bus := { s.bus with cardIn := s.bus.cardIn ++ bs } }

/-! ### The end of an operation -/

/-- R175, R195 step 4, R241 step 2: OP <- NONE, PHASE <- IDLE; R50: a bulk operation's buffer is no longer pointed to. -/
def endOperation (s : State) : State :=
  { s with op := .none, phase := .idle, stack := [], bufLen := if s.op = .none then s.bufLen else 0 }

/-- R241 steps 2, 3: ERR <- the error, the operation ends, the error goes to the host. -/
def raise (e : BlockError) (s : State) : State := { endOperation s with err := some e, result := .error e }

/-- R11: what the operation returns. -/
def Ret.result (s : State) : Ret → Result
  | .done => .done
  | .success => .success
  | .frame => .frame s.frame
  | .response => .response s.resp

/-- R11: the operation ends and returns. -/
def finish (v : Ret) (s : State) : State := { endOperation s with result := v.result s }

/-! ### Entering micro-operations -/

/-- R120 RELEASE: deassert, then one filler. -/
def enterRelease (ks : List Cont) (s : State) : State := { s with phase := .deassert .release 1, stack := ks }

/-- R241 step 1 and then the error: RELEASE, then `raise`; nothing else of the operation is done. -/
def fail (e : BlockError) (s : State) : State := enterRelease [.raise e] s

/-- R123 SEND_COMMAND. -/
def enterSend (i : Index) (a : Arg) (c : Crc7) (ks : List Cont) (s : State) : State :=
  { s with phase := .assert i a c, stack := ks }

/-- R124 AWAIT_RESPONSE, step 1, up to its first exchange. -/
def enterAwait (extra : Nat) (release skip : Bool) (ks : List Cont) (s : State) : State :=
  { s with
    pending := false
    pollCnt := 0
    phase := if skip then .skipLead extra release else .poll extra release
    stack := ks }

/-- R125 CMD. -/
def enterCmd (i : Index) (a : Arg) (extra : Nat) (release skip : Bool) (ks : List Cont) (s : State) : State :=
  enterSend i a (crcFor s.cfg i a) (.await extra release skip :: ks) s

/-- R171 WAIT_TOKEN, steps 1 and 2. -/
def enterWaitToken (ks : List Cont) (s : State) : State :=
  if s.cfg.tokenBudget = 0 then fail (.ioTimeout .waitingForData) { s with tokenCnt := 0 }
  else { s with tokenCnt := 0, phase := .token, stack := ks }

/-- R172 RECV_BLOCK(off, n) into a destination. -/
def enterRecvBlock (d : Dest) (off n : Nat) (ks : List Cont) (s : State) : State :=
  enterWaitToken (.payload d off n :: ks) s

/-- R190 SEND_BLOCK(token, off). -/
def enterSendBlock (t : DataToken) (off : Nat) (ks : List Cont) (s : State) : State :=
  { s with phase := .tx (tokenByte s.cfg t), stack := .sendPayload off :: .checkDresp :: .busyWait :: ks }

/-- R192 BUSY_WAIT, steps 1 and 2. -/
def enterBusyWait (ks : List Cont) (s : State) : State :=
  if busyBudgetSpent s.cfg 0 then fail (.ioTimeout .writeCompletion) { s with busyCnt := 0 }
  else { s with busyCnt := 0, phase := .busy, stack := ks }

/-- The error a failed status check raises (R173, R174, R176, R193, R194). -/
def statusFailure (check : StatusCheck) (s : State) : State :=
  match check with
  | .command => fail (.ioError (.commandStatus s.resp)) s
  | .stop => raise (.ioError (.stopStatus s.resp)) s
  | .csd => fail (.unsupportedCard (.csdStatus s.resp)) s

/-! ### Returning from a micro-operation -/

/-- What is done when the innermost operation has ended: the next thing on the stack, up to the next bus primitive or
the end of the whole operation. -/
def ret : List Cont → State → State
  | [], s => endOperation s
  | .await extra release skip :: ks, s => enterAwait extra release skip ks s
  | .releaseIf release :: ks, s => if release then enterRelease ks s else ret ks s
  | .release :: ks, s => enterRelease ks s
  | .cmd i a extra release skip :: ks, s => enterCmd i a extra release skip ks s
  | .status check :: ks, s => if s.resp = .status 0 then ret ks s else statusFailure check s
  | .recvBlock d off n :: ks, s => enterRecvBlock d off n ks s
  | .payload d off n :: ks, s => { s with byteIdx := 0, phase := .recv d off n, stack := ks }
  | .readFrom k :: ks, s =>
    if k < s.blkN then
      enterRecvBlock .host (Config.blockSize * k) Config.blockSize (.readFrom (k + 1) :: ks) { s with blkIdx := k }
    else ret ks { s with blkIdx := k }
  | .fill why n :: ks, s => if n = 0 then ret ks s else { s with phase := .fill why n, stack := ks }
  | .sendBlock t off :: ks, s => enterSendBlock t off ks s
  | .sendPayload off :: ks, s => { s with byteIdx := 0, phase := .send off, stack := ks }
  | .checkDresp :: ks, s => { s with phase := .dresp, stack := ks }
  | .busyWait :: ks, s => enterBusyWait ks s
  | .writeFrom k :: ks, s =>
    if k < s.blkN then
      enterSendBlock .multiWrite (Config.blockSize * k) (.writeFrom (k + 1) :: ks) { s with blkIdx := k }
    else ret ks { s with blkIdx := k }
  | .sendStop :: ks, s => { s with phase := .tx s.cfg.tokenStopTran, stack := .busyWait :: ks }
  | .finish v :: _, s => finish v s
  | .raise e :: _, s => raise e s

/-! ### One step of the sequencer -/

/-- R123 step 3, after byte k: the next byte, or PENDING <- 1 and the return. -/
def afterFrameByte (k : Nat) (s : State) : State :=
  if k + 1 < Config.frameLen then { s with phase := .frame (k + 1) } else ret s.stack { s with pending := true }

/-- R124 steps 3 to 6, after the poll that read b. -/
def afterPoll (extra : Nat) (release : Bool) (b : Byte) (s : State) : State :=
  let s := { s with pollCnt := s.pollCnt + 1 }
  if isStatusByte b then
    ret (.fill .drain extra :: .releaseIf release :: s.stack) { s with resp := .status (statusBits b) }
  else if s.pollCnt = Config.respBudget then ret (.releaseIf release :: s.stack) { s with resp := .timeout }
  else s

/-- R171 steps 2 to 5, after the poll that read b. -/
def afterToken (b : Byte) (s : State) : State :=
  let s := { s with tok := b, tokenCnt := s.tokenCnt + 1 }
  if b = s.cfg.tokenDataStart then ret s.stack s
  else if s.tokenCnt = s.cfg.tokenBudget then fail (.ioTimeout .waitingForData) s
  else s

/-- R172 steps 3, 4, after payload byte BYTE_IDX was stored. -/
def afterRecv (n : Nat) (s : State) : State :=
  let s := { s with byteIdx := s.byteIdx + 1 }
  if s.byteIdx < n then s else ret (.fill .checksumIn 2 :: s.stack) s

/-- R190 steps 3, 4, after payload byte BYTE_IDX was sent. -/
def afterSend (s : State) : State :=
  let s := { s with byteIdx := s.byteIdx + 1 }
  if s.byteIdx < Config.blockSize then s else ret (.fill .checksumOut 2 :: s.stack) s

/-- R191 step 2, after the data response b was read. -/
def afterDresp (b : Byte) (s : State) : State :=
  let s := { s with dresp := b }
  if drespAccepts s.cfg b then ret s.stack s else fail (.ioError (.dataRejected b)) s

/-- R192 steps 2 to 5, after the poll that read b. -/
def afterBusy (b : Byte) (s : State) : State :=
  let s := { s with busyCnt := s.busyCnt + 1 }
  if b ≠ 0 then ret s.stack s
  else if busyBudgetSpent s.cfg s.busyCnt then fail (.ioTimeout .writeCompletion) s
  else s

/-- R20: one bus primitive and the register updates attached to it. -/
def tick (s : State) : Out :=
  match s.phase with
  | .idle => .next s
  | .assert i a c => .next { csAssert s with frame := build i a c, phase := .frame 0 }
  | .frame k => .next (afterFrameByte k (xchg (frameByte s.frame k) s))
  | .skipLead extra release => .next { xchg Config.fill s with phase := .poll extra release }
  | .poll extra release => .next (afterPoll extra release (answer s) (xchg Config.fill s))
  | .deassert why n => .next (ret (.fill why n :: s.stack) (csDeassert s))
  | .fill why n => .next (ret (.fill why (n - 1) :: s.stack) (xchg Config.fill s))
  | .tx b => .next (ret s.stack (xchg b s))
  | .token => .next (afterToken (answer s) (xchg Config.fill s))
  | .recv d off n =>
    if off + s.byteIdx < d.len s.bufLen then
      .next (afterRecv n (d.put (Memory.write (d.bytes s) (off + s.byteIdx) (answer s)) (xchg Config.fill s)))
    else .fault (.hostBufferOutOfRange (off + s.byteIdx))
  | .send off =>
    if off + s.byteIdx < s.bufLen then .next (afterSend (xchg (Memory.read s.buf (off + s.byteIdx)) s))
    else .fault (.hostBufferOutOfRange (off + s.byteIdx))
  | .dresp => .next (afterDresp (answer s) (xchg Config.fill s))
  | .busy => .next (afterBusy (answer s) (xchg Config.fill s))

/-! ### Issuing an operation -/

/-- R26: at the start of an operation ERR <- NONE; the previous result is gone. -/
def started (s : State) : State := { s with err := none, result := .none }

/-- R65, R24: an operation other than AWAIT_RESPONSE is accepted only when none is in flight and PENDING = 0; READY is not
tested here, and only the operations whose rules name it or read CDV test it (log 23). -/
def begin (s : State) (k : State → Out) : Out :=
  if s.phase ≠ .idle then .refused .operationInFlight
  else if s.pending then .refused .responsePollDue
  else k (started s)

/-- R24, R124: AWAIT_RESPONSE is accepted only with PENDING = 1. -/
def beginAwait (extra : Nat) (release skip : Bool) (s : State) : Out :=
  if s.phase ≠ .idle then .refused .operationInFlight
  else if s.pending then tick (enterAwait extra release skip [.finish .response] (started s))
  else .refused .noCommandPending

/-- Accept a facade query: nothing in flight, PENDING = 0, READY = 1; no register is written but the result. -/
def beginQuery (s : State) (k : State → Out) : Out :=
  if s.phase ≠ .idle then .refused .operationInFlight
  else if s.pending then .refused .responsePollDue
  else if !s.ready then .refused .notReady
  else k s

/-- R50, R172, R190: an operation that moves the offsets below `top` of the host buffer is issued only with a buffer that has
them; else it is refused before any bus event, and so never meets an offset that does not exist (R11, log 8). -/
def withBuffer (top : Nat) (s : State) (o : Out) : Out := if top ≤ s.bufLen then o else .refused .bufferTooShort

/-- R62: the command argument of a transfer from the host: the product within 32 bits. R28, D43: an unset CDV holds no value,
and "an operation that would read it is refused"; with READY = 1 it is set, so no state of the invariant comes to that
refusal. -/
def withArgument (startBlock : Nat) (s : State) (k : Arg → Out) : Out :=
  match s.cdv with
  | none => .refused .registerUnset
  | some m =>
    match transferArgument startBlock m with
    | none => .refused .argumentTooWide
    | some a => k a

end Sys2Proof.Machine
end

