-- ==== Sys2Proof/Machine/Commands.lean ====
section
/-! DEFINITION. The twelve command frames (spec/41_command_set.md) and the generic frame: each of the twelve is sent and
then polled with the AWAIT_RESPONSE operands of its rule; argument and CRC are the frame's own. Which status is expected,
and the error where it is not answered, belong to the operation that issues the command (42, 43, 70). -/

namespace Sys2Proof.Machine

/-- A command frame as given, then its response poll, as R125 pairs them. -/
def frameThenPoll (i : Index) (a : Arg) (c : Crc7) (extra : Nat) (release skip : Bool) (s : State) : Out :=
  begin s fun s => tick (enterSend i a c [.await extra release skip, .finish .response] s)

/-- R150: go-idle; extra_bytes 0, release. -/
def execCmd0 (a : Arg) (c : Crc7) (s : State) : Out := frameThenPoll 0 a c 0 true false s

/-- R151: interface condition; four echo bytes drained, release. -/
def execCmd8 (a : Arg) (c : Crc7) (s : State) : Out := frameThenPoll 8 a c 4 true false s

/-- R152: CSD read; the data block follows under the same assertion, so no release. -/
def execCmd9 (a : Arg) (c : Crc7) (s : State) : Out := frameThenPoll 9 a c 0 false false s

/-- R153: stop transmission; one lead byte skipped, release. -/
def execCmd12 (a : Arg) (c : Crc7) (s : State) : Out := frameThenPoll 12 a c 0 true true s

/-- R154: set block length; release. -/
def execCmd16 (a : Arg) (c : Crc7) (s : State) : Out := frameThenPoll 16 a c 0 true false s

/-- R155: read single block; no release. -/
def execCmd17 (a : Arg) (c : Crc7) (s : State) : Out := frameThenPoll 17 a c 0 false false s

/-- R156: read multiple blocks; no release. -/
def execCmd18 (a : Arg) (c : Crc7) (s : State) : Out := frameThenPoll 18 a c 0 false false s

/-- R157: write single block; no release. -/
def execCmd24 (a : Arg) (c : Crc7) (s : State) : Out := frameThenPoll 24 a c 0 false false s

/-- R158: write multiple blocks; no release. -/
def execCmd25 (a : Arg) (c : Crc7) (s : State) : Out := frameThenPoll 25 a c 0 false false s

/-- R159, R95: the frame of index 41, an ordinary frame; the CMD55 before it is a frame of its own (log 9). Release. -/
def execAcmd41 (a : Arg) (c : Crc7) (s : State) : Out := frameThenPoll 41 a c 0 true false s

/-- R160: app-command prefix; release. -/
def execCmd55 (a : Arg) (c : Crc7) (s : State) : Out := frameThenPoll 55 a c 0 true false s

/-- R161: read OCR; four bytes drained, release. -/
def execCmd58 (a : Arg) (c : Crc7) (s : State) : Out := frameThenPoll 58 a c 4 true false s

/-- R81, R94: the generic frame "as SEND_COMMAND builds it for any 6-bit index": sent, its response still due. -/
def execCfAny (i : Index) (a : Arg) (c : Crc7) (s : State) : Out :=
  begin s fun s => tick (enterSend i a c [.finish .frame] s)

end Sys2Proof.Machine
end

