-- ==== Sys2Proof/Machine/Facade.lean ====
section
/-! DEFINITION. The Device Facade's queries (spec/44_device_facade.md R215 to R217). -/

namespace Sys2Proof.Machine

/-- R215, R217: `return SECTORS`. R28, D43: unset, it holds no value, and "an operation that would read it is refused"; with
READY = 1 it is set, so no state of the invariant comes to that refusal. -/
def returnSectors (s : State) : Out :=
  match s.sectors with
  | some n => .next { s with result := .count n }
  | none => .refused .registerUnset

/-- R215 BLOCK_COUNT(). -/
def execBlockCount (s : State) : Out := beginQuery s returnSectors

/-- R216 BLOCK_SIZE(): no precondition, no register read or written. -/
def execBlockSize (s : State) : Out := .next { s with result := .count Config.blockSize }

/-- R217 CONTROL(op). -/
def execControl (op : ControlOp) (s : State) : Out :=
  match op with
  | .getSectorCount => beginQuery s returnSectors
  | .other _ => .refused .unknownControlOp

end Sys2Proof.Machine
end

