-- ==== Sys2Proof/Machine/Formats.lean ====
section
/-! DEFINITION. The bytes and blocks that cross the bus as rows of the table (spec/30_encoding.md R82 to R90). Bytes the card
sends while an operation is in flight are the card's answers to the exchanges that come next, and the rule of each such
exchange says what it makes of its byte (R32, R52, R94: any byte may be answered); between operations they start the
micro-operation that receives them, where its precondition holds, and are otherwise lined up as the card's answers to
later exchanges. A byte the block sends is one exchange (log 6). -/

namespace Sys2Proof.Machine

/-- Bytes the card sends: answers to the exchanges in flight, or what `idle` says between operations. -/
def receive (bs : List Byte) (idle : State → Out) (s : State) : Out :=
  if s.phase = .idle then idle s else tick (present bs s)

/-- Between operations: the micro-operation that receives the bytes starts on them where it may (`due`, and PENDING = 0,
R24); otherwise they are lined up. -/
def startOrLineUp (due : Bool) (bs : List Byte) (start : State → State) (s : State) : Out :=
  if due && !s.pending then begin s fun s => tick (start (present bs s)) else .next (lineUp bs s)

/-- R124: a polled byte between operations is the first poll of the AWAIT_RESPONSE that is due, or is lined up. -/
def polledWhenIdle (extra : Nat) (bs : List Byte) (s : State) : Out :=
  if s.pending then beginAwait extra true false (present bs s) else .next (lineUp bs s)

/-- The block sends one byte between operations: one exchange, the received byte discarded (R10 `tx`). -/
def sendByte (b : Byte) (s : State) : Out :=
  begin s fun s => tick { s with phase := .tx b, stack := [.finish .done] }

/-- R85, R171, R193: the data-start token: an answer to the exchange in flight; after an acknowledged read command it
starts the wait it ends; with a poll due it can only be the card's; otherwise the block sends it. -/
def execTokenDataStart (s : State) : Out :=
  receive [s.cfg.tokenDataStart]
    (fun s =>
      if readAcknowledged s || s.pending then
        startOrLineUp (readAcknowledged s) [s.cfg.tokenDataStart] (enterWaitToken [.finish .done]) s
      else sendByte s.cfg.tokenDataStart s) s

/-- R85, R194: the block sends the multi-write-start token. -/
def execTokenMultiWrite (s : State) : Out := sendByte s.cfg.tokenMultiWrite s

/-- R85, R196 step 1: the block sends the stop-transmission token. -/
def execTokenStopTran (s : State) : Out := sendByte s.cfg.tokenStopTran s

/-- R82, R124, R126: a status byte: a poll in flight ends on it, RESP <- Status(flags). -/
def execR1 (flags : BitVec 7) (s : State) : Out :=
  receive [statusByte flags] (polledWhenIdle 0 [statusByte flags]) s

/-- R83, R84: a status byte and four bytes behind it, drained as the poll's extra_bytes says. -/
def execR1Tail (flags : BitVec 7) (extra : BitVec 32) (s : State) : Out :=
  receive (statusByte flags :: tailBytes extra) (polledWhenIdle 4 (statusByte flags :: tailBytes extra)) s

/-- R94, R124: a polled byte with bit 7 set: skipped, one attempt of the budget. -/
def execNotStatus (ignored : BitVec 7) (s : State) : Out :=
  receive [notStatusByte ignored] (polledWhenIdle 0 [notStatusByte ignored]) s

/-- R88, R191: the accepted data response, read by CHECK_DRESP. -/
def execDrespAccepted (ignored : BitVec 3) (s : State) : Out :=
  receive [drespByte ignored s.cfg.drespAccept]
    (startOrLineUp true [drespByte ignored s.cfg.drespAccept] fun s =>
      { s with phase := .dresp, stack := [.finish .done] }) s

/-- R89, R192: 0x00, still busy: one attempt of the busy-wait, which needs CS = 1. -/
def execBusy (s : State) : Out := receive [0] (startOrLineUp s.cs [0] (enterBusyWait [.finish .done])) s

/-- R90: the block sends the filler byte: one exchange that only clocks the bus. -/
def execFill (s : State) : Out :=
  begin s fun s => tick { s with phase := .fill .clock 1, stack := [.finish .done] }

/-- R86, R172: a data block received between operations: 512 bytes into a host buffer of that length, 16 into the
destination of READ_CSD. -/
def enterBlockIn (n : Nat) (s : State) : State :=
  if n = Config.blockSize then enterRecvBlock .host 0 n [.finish .done] { s with bufLen := Config.blockSize }
  else enterRecvBlock .csd 0 n [.finish .done] s

/-- R86, R171, R172: a data block from the card: answers to the exchanges in flight; after an acknowledged read command
it is received; otherwise lined up. -/
def execDblkR (skipped payload : List Byte) (sum0 sum1 : Byte) (s : State) : Out :=
  if payloadLenOk payload.length && !skipped.contains s.cfg.tokenDataStart then
    receive (blockInBytes s.cfg skipped payload sum0 sum1)
      (startOrLineUp (readAcknowledged s) (blockInBytes s.cfg skipped payload sum0 sum1) (enterBlockIn payload.length)) s
  else .refused .operandOutOfDomain

/-- R87, R190: a data block to the card: the payload is the host buffer, and SEND_BLOCK sends it. -/
def execDblkW (t : DataToken) (payload : List Byte) (s : State) : Out :=
  if payload.length = Config.blockSize then
    begin s fun s =>
      if writeAcknowledged s then
        tick (enterSendBlock t 0 [.finish .done]
          { s with buf := Memory.writeList s.buf 0 payload, bufLen := Config.blockSize })
      else .refused .preconditionUnmet
  else .refused .operandOutOfDomain

end Sys2Proof.Machine
end

