-- ==== Sys2Proof/Machine/Framer.lean ====
section
/-! DEFINITION. The Command Framer's operations (spec/40_command_framer.md): SEND_COMMAND, AWAIT_RESPONSE, RELEASE,
CLOCK_IDLE and the pseudo-operations CMD and ACMD. -/

namespace Sys2Proof.Machine

/-- R123 SEND_COMMAND(index, argument, crc): seven primitives, then PENDING = 1 and the frame is returned. -/
def execSendCommand (index argument crc : Nat) (s : State) : Out :=
  if frameOperandsOk index argument crc then
    begin s fun s =>
      tick (enterSend (BitVec.ofNat 6 index) (BitVec.ofNat 32 argument) (BitVec.ofNat 7 crc) [.finish .frame] s)
  else .refused .operandOutOfDomain

/-- R124 AWAIT_RESPONSE(extra_bytes, release, skip_lead_byte). -/
def execAwaitResponse (extraBytes : Nat) (release skipLeadByte : Bool) (s : State) : Out :=
  beginAwait extraBytes release skipLeadByte s

/-- R120 RELEASE. -/
def execRelease (s : State) : Out := begin s fun s => tick (enterRelease [.finish .done] s)

/-- R121 CLOCK_IDLE(n): deassert, then n fillers. -/
def execClockIdle (n : Nat) (s : State) : Out :=
  begin s fun s => tick { s with phase := .deassert .settle n, stack := [.finish .done] }

/-- R125 CMD(index, argument, extra_bytes, release, skip_lead_byte), with the CRC of CRC_POLICY. -/
def execCmd (index argument extraBytes : Nat) (release skipLeadByte : Bool) (s : State) : Out :=
  if cmdOperandsOk index argument then
    begin s fun s =>
      tick (enterCmd (BitVec.ofNat 6 index) (BitVec.ofNat 32 argument) extraBytes release skipLeadByte
        [.finish .response] s)
  else .refused .operandOutOfDomain

/-- R96, R159 ACMD(index, argument, ...): CMD(55, 0), then CMD(index, argument, ...). -/
def execAcmd (index argument extraBytes : Nat) (release skipLeadByte : Bool) (s : State) : Out :=
  if cmdOperandsOk index argument then
    begin s fun s =>
      tick (enterCmd 55 0 0 true false
        [.cmd (BitVec.ofNat 6 index) (BitVec.ofNat 32 argument) extraBytes release skipLeadByte, .finish .response] s)
  else .refused .operandOutOfDomain

end Sys2Proof.Machine
end

