-- ==== Sys2Proof/Machine/Functions.lean ====
section
/-! DEFINITION. The pure functions the block makes available (R81, R122, R126): no bus event, no register read or written;
what they give the host is the result. -/

namespace Sys2Proof.Machine

/-- R81 `build(index, argument, crc)`. -/
def execBuild (index argument crc : Nat) (s : State) : Out :=
  if frameOperandsOk index argument crc then
    .next { s with result := .frame (build (BitVec.ofNat 6 index) (BitVec.ofNat 32 argument) (BitVec.ofNat 7 crc)) }
  else .refused .operandOutOfDomain

/-- R122 `crc7_gen` of five bytes. -/
def execCrc7Gen (b0 b1 b2 b3 b4 : Byte) (s : State) : Out :=
  .next { s with result := .crc (crc7 [b0, b1, b2, b3, b4]) }

/-- R126 `classify` of a response. -/
def execClassify (r : Response) (s : State) : Out :=
  .next { s with result := .cls (classifyResponse s.cfg r) }

end Sys2Proof.Machine
end

