-- ==== Sys2Proof/Machine/ReadPath.lean ====
section
/-! DEFINITION. The read path of the Block Transfer Engine (spec/42_block_read.md): CHECK_BUFFER, WAIT_TOKEN, RECV_BLOCK,
READ_SINGLE, READ_MULTI, READ_BLOCKS and READ_CSD. -/

namespace Sys2Proof.Machine

/-- R173 READ_SINGLE with the command argument a. -/
def enterReadSingle (a : Arg) (s : State) : State :=
  enterCmd 17 a 0 false false
    [.status .command, .recvBlock .host 0 Config.blockSize, .release, .finish .success] s

/-- R174 READ_MULTI with the command argument a. -/
def enterReadMulti (a : Arg) (s : State) : State :=
  enterCmd 18 a 0 false false
    [.status .command, .readFrom 0, .cmd 12 0 0 true true, .status .stop, .finish .success] s

/-- R170 CHECK_BUFFER(L): no bus event; BLK_N <- L div 512, or InvalidArgument. -/
def execCheckBuffer (len : Nat) (s : State) : Out :=
  begin s fun s =>
    if bufferLenOk len then
      .next { s with blkN := len / Config.blockSize, bufLen := len, result := .count (len / Config.blockSize) }
    else .next (raise (.invalidArgument len) s)

/-- R171 WAIT_TOKEN. -/
def execWaitToken (s : State) : Out :=
  begin s fun s =>
    if readAcknowledged s then tick (enterWaitToken [.finish .done] s) else .refused .preconditionUnmet

/-- R172 RECV_BLOCK(off, n): `off` is an offset into `buf`. -/
def execRecvBlock (off n : Nat) (s : State) : Out :=
  if payloadLenOk n then
    begin s fun s =>
      if readAcknowledged s then withBuffer (off + n) s (tick (enterRecvBlock .host off n [.finish .done] s))
      else .refused .preconditionUnmet
  else .refused .operandOutOfDomain

/-- R173 READ_SINGLE(start_block), the case BLK_N = 1. -/
def execReadSingle (startBlock : Nat) (s : State) : Out :=
  begin s fun s =>
    if !s.ready then .refused .notReady
    else if s.blkN ≠ 1 then .refused .blockCountMismatch
    else withBuffer Config.blockSize s (withArgument startBlock s fun a => tick (enterReadSingle a s))

/-- R174 READ_MULTI(start_block), the case BLK_N ≥ 2. -/
def execReadMulti (startBlock : Nat) (s : State) : Out :=
  begin s fun s =>
    if !s.ready then .refused .notReady
    else if s.blkN < 2 then .refused .blockCountMismatch
    else withBuffer (Config.blockSize * s.blkN) s (withArgument startBlock s fun a => tick (enterReadMulti a s))

/-- R175 READ_BLOCKS(start_block, buffer of len bytes). That the buffer is the offsets 0 to len - 1 of the one host memory
`buf`, which keeps what earlier operations left there, is the model's choice (log 8). -/
def execReadBlocks (startBlock len : Nat) (s : State) : Out :=
  begin s fun s =>
    if !s.ready then .refused .notReady
    else if bufferLenOk len then
      withArgument startBlock s fun a =>
        let s := { s with op := .read, blkN := len / Config.blockSize, bufLen := len }
        if s.blkN = 1 then tick (enterReadSingle a s) else tick (enterReadMulti a s)
    else .next (raise (.invalidArgument len) { s with op := .read })

/-- R176 READ_CSD: CMD9, sixteen bytes into its own 16-byte destination, RELEASE. The rule says only that it "runs before
`READY` is set"; that the model accepts it at READY = 1 as well is the model's choice (log 23). -/
def execReadCsd (s : State) : Out :=
  begin s fun s =>
    tick (enterCmd 9 0 0 false false [.status .csd, .recvBlock .csd 0 Config.csdLen, .release, .finish .success] s)

end Sys2Proof.Machine
end

