-- ==== Sys2Proof/Machine/WritePath.lean ====
section
/-! DEFINITION. The write path of the Block Transfer Engine (spec/43_block_write.md): SEND_BLOCK, CHECK_DRESP, BUSY_WAIT,
SEND_STOP, WRITE_SINGLE, WRITE_MULTI and WRITE_BLOCKS. -/

namespace Sys2Proof.Machine

/-- R193 WRITE_SINGLE with the command argument a. -/
def enterWriteSingle (a : Arg) (s : State) : State :=
  enterCmd 24 a 0 false false [.status .command, .sendBlock .dataStart 0, .release, .finish .success] s

/-- R194 WRITE_MULTI with the command argument a. -/
def enterWriteMulti (a : Arg) (s : State) : State :=
  enterCmd 25 a 0 false false [.status .command, .writeFrom 0, .sendStop, .release, .finish .success] s

/-- R190 SEND_BLOCK(token, off): `off` is an offset into `buf`. -/
def execSendBlock (t : DataToken) (off : Nat) (s : State) : Out :=
  begin s fun s =>
    if writeAcknowledged s then withBuffer (off + Config.blockSize) s (tick (enterSendBlock t off [.finish .done] s))
    else .refused .preconditionUnmet

/-- R191 CHECK_DRESP. -/
def execCheckDresp (s : State) : Out :=
  begin s fun s => tick { s with phase := .dresp, stack := [.finish .done] }

/-- R192 BUSY_WAIT: precondition CS = 1. -/
def execBusyWait (s : State) : Out :=
  begin s fun s => if s.cs then tick (enterBusyWait [.finish .done] s) else .refused .preconditionUnmet

/-- R196 SEND_STOP: its BUSY_WAIT needs CS = 1. -/
def execSendStop (s : State) : Out :=
  begin s fun s =>
    if s.cs then tick { s with phase := .tx s.cfg.tokenStopTran, stack := [.busyWait, .finish .done] }
    else .refused .preconditionUnmet

/-- R193 WRITE_SINGLE(start_block), the case BLK_N = 1. -/
def execWriteSingle (startBlock : Nat) (s : State) : Out :=
  begin s fun s =>
    if !s.ready then .refused .notReady
    else if s.blkN ≠ 1 then .refused .blockCountMismatch
    else withBuffer Config.blockSize s (withArgument startBlock s fun a => tick (enterWriteSingle a s))

/-- R194 WRITE_MULTI(start_block), the case BLK_N ≥ 2. -/
def execWriteMulti (startBlock : Nat) (s : State) : Out :=
  begin s fun s =>
    if !s.ready then .refused .notReady
    else if s.blkN < 2 then .refused .blockCountMismatch
    else withBuffer (Config.blockSize * s.blkN) s (withArgument startBlock s fun a => tick (enterWriteMulti a s))

/-- R195 WRITE_BLOCKS(start_block, buffer of len bytes). That the buffer is the offsets 0 to len - 1 of the one host memory
`buf`, which keeps what earlier operations left there, is the model's choice (log 8). -/
def execWriteBlocks (startBlock len : Nat) (s : State) : Out :=
  begin s fun s =>
    if !s.ready then .refused .notReady
    else if bufferLenOk len then
      withArgument startBlock s fun a =>
        let s := { s with op := .write, blkN := len / Config.blockSize, bufLen := len }
        if s.blkN = 1 then tick (enterWriteSingle a s) else tick (enterWriteMulti a s)
    else .next (raise (.invalidArgument len) { s with op := .write })

end Sys2Proof.Machine
end

