-- ==== Sys2Proof/Machine/Dispatch.lean ====
section
/-! DEFINITION. The host issues an operation: one arm per row of spec/opcode_table.json. -/

namespace Sys2Proof.Machine

def exec (i : Instr) (s : State) : Host.Outcome State Fault Refusal :=
  match i with
  -- command frames (41)
  | .cmd0 a c => Sys2Proof.Machine.execCmd0 a c s
  | .cmd8 a c => Sys2Proof.Machine.execCmd8 a c s
  | .cmd9 a c => Sys2Proof.Machine.execCmd9 a c s
  | .cmd12 a c => Sys2Proof.Machine.execCmd12 a c s
  | .cmd16 a c => Sys2Proof.Machine.execCmd16 a c s
  | .cmd17 a c => Sys2Proof.Machine.execCmd17 a c s
  | .cmd18 a c => Sys2Proof.Machine.execCmd18 a c s
  | .cmd24 a c => Sys2Proof.Machine.execCmd24 a c s
  | .cmd25 a c => Sys2Proof.Machine.execCmd25 a c s
  | .acmd41 a c => Sys2Proof.Machine.execAcmd41 a c s
  | .cmd55 a c => Sys2Proof.Machine.execCmd55 a c s
  | .cmd58 a c => Sys2Proof.Machine.execCmd58 a c s
  | .cfAny index a c => Sys2Proof.Machine.execCfAny index a c s
  -- bytes and blocks on the bus (30)
  | .tokenDataStart => Sys2Proof.Machine.execTokenDataStart s
  | .tokenMultiWrite => Sys2Proof.Machine.execTokenMultiWrite s
  | .tokenStopTran => Sys2Proof.Machine.execTokenStopTran s
  | .r1 flags => Sys2Proof.Machine.execR1 flags s
  | .r1Tail flags extra => Sys2Proof.Machine.execR1Tail flags extra s
  | .notStatus ignored => Sys2Proof.Machine.execNotStatus ignored s
  | .drespAccepted ignored => Sys2Proof.Machine.execDrespAccepted ignored s
  | .busy => Sys2Proof.Machine.execBusy s
  | .fill => Sys2Proof.Machine.execFill s
  | .dblkR skipped payload sum0 sum1 => Sys2Proof.Machine.execDblkR skipped payload sum0 sum1 s
  | .dblkW token payload => Sys2Proof.Machine.execDblkW token payload s
  -- host operations (30 section 4)
  | .sendCommand index argument crc => Sys2Proof.Machine.execSendCommand index argument crc s
  | .awaitResponse extra release skip => Sys2Proof.Machine.execAwaitResponse extra release skip s
  | .readBlocks start len => Sys2Proof.Machine.execReadBlocks start len s
  | .writeBlocks start len => Sys2Proof.Machine.execWriteBlocks start len s
  | .blockCount => Sys2Proof.Machine.execBlockCount s
  | .blockSize => Sys2Proof.Machine.execBlockSize s
  | .control op => Sys2Proof.Machine.execControl op s
  -- micro-operations (40, 42, 43)
  | .release => Sys2Proof.Machine.execRelease s
  | .clockIdle n => Sys2Proof.Machine.execClockIdle n s
  | .checkBuffer len => Sys2Proof.Machine.execCheckBuffer len s
  | .waitToken => Sys2Proof.Machine.execWaitToken s
  | .recvBlock off n => Sys2Proof.Machine.execRecvBlock off n s
  | .readSingle start => Sys2Proof.Machine.execReadSingle start s
  | .readMulti start => Sys2Proof.Machine.execReadMulti start s
  | .readCsd => Sys2Proof.Machine.execReadCsd s
  | .sendBlock token off => Sys2Proof.Machine.execSendBlock token off s
  | .checkDresp => Sys2Proof.Machine.execCheckDresp s
  | .busyWait => Sys2Proof.Machine.execBusyWait s
  | .sendStop => Sys2Proof.Machine.execSendStop s
  | .writeSingle start => Sys2Proof.Machine.execWriteSingle start s
  | .writeMulti start => Sys2Proof.Machine.execWriteMulti start s
  -- pseudo-operations (40)
  | .cmd index argument extra release skip => Sys2Proof.Machine.execCmd index argument extra release skip s
  | .acmd index argument extra release skip => Sys2Proof.Machine.execAcmd index argument extra release skip s
  -- pure functions (30, 40)
  | .build index argument crc => Sys2Proof.Machine.execBuild index argument crc s
  | .crc7Gen b0 b1 b2 b3 b4 => Sys2Proof.Machine.execCrc7Gen b0 b1 b2 b3 b4 s
  | .classify r => Sys2Proof.Machine.execClassify r s

end Sys2Proof.Machine
end

