-- ==== Sys2Proof/Machine/Boot.lean ====
section
/-! DEFINITION. The Initialization State Machine (spec/70_reset_and_hazards.md R260 to R271): the host at construction.
Each of its steps judges what the operation it issued last has left in RESP or ERR, updates the session registers, and
issues the next operation, until READY = 1 or a fatal error. -/

namespace Sys2Proof.Machine

/-- Issue an operation and stand at `b` when it has ended. -/
def bootIssue (b : Boot) (i : Instr) (s : State) : Out := exec i { s with host := .boot b :: s.host }

/-- R271: construction fails: READY stays 0 and what was written of the session registers and the capacity register is
discarded with the instance. -/
def bootFail (e : BlockError) (s : State) : Out :=
  .next { s with
    err := some e, result := .error e, ver := none, cdv := none, sectors := none, ready := false, csd := [] }

/-- R260: "a new construction starts again from this state": every register of the block at its reset value; the event
history starts empty (R33, R35), and only what is not the instance's is kept: the parameters, the card, the host's buffer
and its further calls (log 16). -/
def newInstance (debug : Bool) (s : State) : State :=
  { State.reset with
    cfg := s.cfg
    debug := debug
    buf := s.buf
    bus := { s.bus with hist := [] }
    host := s.host }

/-- R263: one go-idle attempt. -/
def bootGoIdle (attempt : Nat) (s : State) : Out := bootIssue (.idleTried attempt) (.cmd 0 0 0 true false) s

/-- R265: the head of a generation-1 iteration: CMD55. -/
def bootGen1 (iteration : Nat) (s : State) : Out := bootIssue (.gen1Announced iteration) (.cmd 55 0 0 true false) s

/-- R266: the head of a generation-2 iteration: the sleep, then CMD58 with its four bytes. -/
def bootGen2 (iteration : Nat) (s : State) : Out :=
  bootIssue (.gen2OcrRead iteration) (.cmd 58 0 4 true false) (sleep Config.initSleepMs s)

/-- R267: READ_CSD. -/
def bootReadCsd (s : State) : Out := bootIssue .csdRead .readCsd s

/-- R263 step 1: idle-only succeeds; else the next attempt, at most IDLE_TRIES, then NoCard. -/
def bootJudgeIdle (attempt : Nat) (s : State) : Out :=
  if classifyResponse s.cfg s.resp = .idleOnly then
    bootIssue .probed (.cmd 8 s.cfg.ifcondArg.toNat 4 true false) s
  else if attempt < Config.idleTries then bootGoIdle (attempt + 1) s
  else bootFail .noCard s

/-- R264 step 2. -/
def bootJudgeProbe (s : State) : Out :=
  if classifyResponse s.cfg s.resp = .idleOnly then bootGen2 1 { s with ver := some .gen2 }
  else if classifyResponse s.cfg s.resp = .idleAndIllegal then bootGen1 1 { s with ver := some .gen1 }
  else bootFail (.unsupportedCard (.ifcondStatus s.resp)) s

/-- R265: status 0 sets CDV to 512; else iterate, at most INIT_BUDGET times, then InitTimeout. -/
def bootJudgeGen1 (iteration : Nat) (s : State) : Out :=
  if s.resp = .status 0 then bootReadCsd { s with cdv := some .byteAddressed }
  else if iteration < Config.initBudget then bootGen1 (iteration + 1) s
  else bootFail (.initTimeout .gen1) s

/-- R266: status 0 leads to the re-read of the OCR; else iterate, then InitTimeout. -/
def bootJudgeGen2 (iteration : Nat) (s : State) : Out :=
  if s.resp = .status 0 then bootIssue .gen2Reread (.cmd 58 0 4 true false) s
  else if iteration < Config.initBudget then bootGen2 (iteration + 1) s
  else bootFail (.initTimeout .gen2) s

/-- R267, R268: READ_CSD's own error, or the parse; the register is "consumed once, not retained": its destination is emptied. -/
def bootJudgeCsd (s : State) : Out :=
  match s.err with
  | some e => bootFail e s
  | none =>
    let csd := Memory.readList s.csd 0 Config.csdLen
    match csdSectors csd with
    | none => bootFail (.unsupportedCard (.csdVersion (csdVersion csd))) s
    | some n =>
      bootIssue .blockLenSent (.cmd 16 Config.blockSize 0 true false)
        { s with sectors := some n, csd := [] }

/-- R269, R270: status 0, then RUN_RATE and READY = 1; else BlockLengthError. -/
def bootJudgeBlockLen (s : State) : Out :=
  if s.resp = .status 0 then .next { setClockRate s.cfg.runRate s with ready := true, result := .done }
  else bootFail (.blockLengthError s.resp) s

/-- R261 to R270: a step of the boot sequence. -/
def bootStep (b : Boot) (s : State) : Out :=
  match b with
  | .start debug =>
    let s := newInstance debug s
    bootIssue .clocked (.clockIdle s.cfg.settle) (setClockRate s.cfg.initRate s)
  | .clocked => bootGoIdle 1 s
  | .idleTried attempt => bootJudgeIdle attempt s
  | .probed => bootJudgeProbe s
  | .gen1Announced iteration => bootIssue (.gen1Polled iteration) (.cmd 41 s.cfg.opcondArgG1.toNat 0 true false) s
  | .gen1Polled iteration => bootJudgeGen1 iteration s
  | .gen2OcrRead iteration => bootIssue (.gen2Announced iteration) (.cmd 55 0 0 true false) s
  | .gen2Announced iteration => bootIssue (.gen2Polled iteration) (.cmd 41 s.cfg.opcondArgG2.toNat 0 true false) s
  | .gen2Polled iteration => bootJudgeGen2 iteration s
  | .gen2Reread => bootReadCsd { s with cdv := some .sectorAddressed }
  | .csdRead => bootJudgeCsd s
  | .blockLenSent => bootJudgeBlockLen s

end Sys2Proof.Machine
end

