-- ==== Sys2Proof/Machine/Step.lean ====
section
/-! DEFINITION. One step of the machine (R20): while an operation is in flight the sequencer does one bus primitive;
between operations the host makes its next call; with no call left the block waits (log 10). -/

namespace Sys2Proof.Machine

def step (s : State) : Host.Outcome State Fault Refusal :=
  if s.phase = .idle then
    match s.host with
    | [] => .next s
    | .call i :: rest => exec i { s with host := rest }
    | .wire nbits w :: rest =>
      match decodeWord s.cfg nbits w with
      | some i => exec i { s with host := rest }
      | none => .refused .undecodable
    | .poke off bytes :: rest => .next { s with host := rest, buf := Memory.writeList s.buf off bytes }
    | .boot b :: rest => bootStep b { s with host := rest }
  else tick s

/-- The host's next call is the table word w: the next step fetches, decodes and issues it (log 11). -/
def State.withFetchWord (s : State) (nbits w : Nat) : State :=
  { s with phase := .idle, stack := [], host := .wire nbits w :: s.host }

end Sys2Proof.Machine
end

