-- ==== Sys2Proof/Safety.lean ====
section
/-! DEFINITION. What a safe run is, in the terms the statements use: when the block accepts an operation, when it is
quiescent (R285), the exit invariant BUS_IDLE (R240), the invariant every step keeps, the flow condition a bulk operation
keeps until its exit, and reachability. -/

namespace Sys2Proof.Machine

/-! ### Points between operations -/

/-- Between operations, with no response poll due: the block accepts an operation (R24, R65). -/
abbrev State.accepting (s : State) : Prop := s.phase = .idle ∧ s.pending = false ∧ s.op = .none

/-- R285: PHASE = IDLE, PENDING = 0 and CS = 0. -/
abbrev State.quiescent (s : State) : Prop := s.phase = .idle ∧ s.pending = false ∧ s.cs = false

/-- R240: the last two bus events are `D` and one filler exchange. -/
def Bus.released (b : Bus) : Bool :=
  match b.hist with
  | .xchg o _ :: .deassert :: _ => o == Config.fill
  | _ => false

/-- R240 BUS_IDLE. -/
abbrev State.busIdle (s : State) : Prop :=
  s.cs = false ∧ s.pending = false ∧ s.op = .none ∧ s.phase = .idle ∧ s.bus.released = true

/-- The bus after RELEASE (R120). -/
def Bus.release (b : Bus) : Bus := (b.note .deassert).xchg Config.fill

/-- Whether n busy polls are within the budget (R192; always when it is ∞). -/
def busyWithin (p : Params) (n : Nat) : Prop := ∀ m, p.busyBudget = some m → n < m

/-! ### Runs -/

/-- Some number of steps leads from s to t, none of them a fault or a refusal. -/
def Reaches (s t : State) : Prop := ∃ k, Host.Core.run Sys2Proof.core k s = .next t

/-- k ticks of the sequencer; between operations a tick changes nothing. -/
def ticks : Nat → State → Out
  | 0, s => .next s
  | k + 1, s =>
    match tick s with
    | .next t => ticks k t
    | .fault r => .fault r
    | .refused r => .refused r

/-- n filler bytes (R90). -/
def fills (n : Nat) : List Byte := List.replicate n Config.fill

/-! ### What the card answers, said of the bus at the point where the block starts to listen

`Bus.answers (fills n) b` are the n bytes the card answers while the block sends fillers. -/

/-- R123: the bus after a command frame. -/
def Bus.command (i : Index) (a : Arg) (c : Crc7) (b : Bus) : Bus := Bus.send (frameBytes (build i a c)) (b.note .assert)

/-- R124 step 6. -/
def Bus.releaseIf (release : Bool) (b : Bus) : Bus := if release then b.release else b

/-- R124: the poll skips `lead` (one byte or none), reads `junk`, whose bytes have bit 7 set, and then the status f, within
the budget. -/
structure StatusAnswered (skip : Bool) (lead junk : List Byte) (f : BitVec 7) (b : Bus) : Prop where
  leadOk : lead.length = skip.toNat
  junkOk : ∀ y ∈ junk, isStatusByte y = false
  budget : junk.length < Config.respBudget
  bytes : Bus.answers (fills (lead.length + (junk.length + 1))) b = lead ++ (junk ++ [statusByte f])

/-- R124: no status byte in the budget's polls; the skipped byte, if any, may be anything. -/
def NoStatus (skip : Bool) (b : Bus) : Prop :=
  ∀ y ∈ (Bus.answers (fills (skip.toNat + Config.respBudget)) b).drop skip.toNat, isStatusByte y = false

/-- R171, R172: `junk` without the data-start token, within the budget, the token, then the payload. -/
structure BlockAnswered (p : Params) (junk payload : List Byte) (b : Bus) : Prop where
  junkOk : ∀ y ∈ junk, y ≠ p.tokenDataStart
  budget : junk.length < p.tokenBudget
  bytes : Bus.answers (fills (junk.length + 1 + payload.length)) b = junk ++ (p.tokenDataStart :: payload)

/-- The exchanges RECV_BLOCK makes for such a block (R172): the two checksum bytes are whatever the card answers. -/
def recvLen (junk payload : List Byte) : Nat := junk.length + 1 + payload.length + 2

/-- R174 step 4: the card answers consecutive blocks of 512 bytes, each (junk, payload). -/
def BlocksAnswered (p : Params) : List (List Byte × List Byte) → Bus → Prop
  | [], _ => True
  | (junk, payload) :: rest, b =>
    payload.length = Config.blockSize ∧ BlockAnswered p junk payload b ∧
      BlocksAnswered p rest (Bus.send (fills (recvLen junk payload)) b)

/-- R174 step 4: the bus after those blocks. -/
def Bus.recvBlocks : List (List Byte × List Byte) → Bus → Bus
  | [], b => b
  | (junk, payload) :: rest, b => Bus.recvBlocks rest (Bus.send (fills (recvLen junk payload)) b)

/-- R190 steps 1 to 4: what the block sends of a written block. -/
def blockOut (token : Byte) (payload : List Byte) : List Byte := token :: (payload ++ fills 2)

/-- R192: n bytes 0x00 within the budget, then a non-zero byte. -/
structure BusyAnswered (p : Params) (n : Nat) (last : Byte) (b : Bus) : Prop where
  lastOk : last ≠ 0
  budget : busyWithin p n
  bytes : Bus.answers (fills (n + 1)) b = List.replicate n 0 ++ [last]

/-- R191, R192: the accepted data response, then the busy-wait's end. -/
structure BlockAccepted (p : Params) (r : Byte) (n : Nat) (last : Byte) (b : Bus) : Prop where
  answer : b.answer = r
  accepted : drespAccepts p r = true
  busy : BusyAnswered p n last (b.xchg Config.fill)

/-- How the card takes one written block: its data response, how many busy bytes, the byte that ends the wait. -/
structure Taken where
  dresp : Byte
  busy : Nat
  last : Byte
  deriving DecidableEq, Repr

/-- R190: the bus after one written block, taken so. -/
def Bus.sendBlock (token : Byte) (payload : List Byte) (x : Taken) (b : Bus) : Bus :=
  Bus.send (fills (x.busy + 2)) (Bus.send (blockOut token payload) b)

/-- R194 step 4: the card takes the blocks of the buffer from block k on. -/
def BlocksAccepted (p : Params) (buf : List Host.Cell) : Nat → List Taken → Bus → Prop
  | _, [], _ => True
  | k, x :: rest, b =>
    BlockAccepted p x.dresp x.busy x.last
        (Bus.send (blockOut p.tokenMultiWrite (Memory.readList buf (Config.blockSize * k) Config.blockSize)) b) ∧
      BlocksAccepted p buf (k + 1) rest
        (b.sendBlock p.tokenMultiWrite (Memory.readList buf (Config.blockSize * k) Config.blockSize) x)

/-- R194 step 4: the bus after those blocks. -/
def Bus.sendBlocks (p : Params) (buf : List Host.Cell) : Nat → List Taken → Bus → Bus
  | _, [], b => b
  | k, x :: rest, b =>
    Bus.sendBlocks p buf (k + 1) rest
      (b.sendBlock p.tokenMultiWrite (Memory.readList buf (Config.blockSize * k) Config.blockSize) x)

/-! ### Operations -/

/-- R24, R65: what the host may issue only between operations and with no response poll due: every instruction but
AWAIT_RESPONSE, BLOCK_SIZE, the pure functions and the rows for what the card sends. -/
def busOperation : Instr → Bool
  | .cmd0 _ _ | .cmd8 _ _ | .cmd9 _ _ | .cmd12 _ _ | .cmd16 _ _ | .cmd17 _ _ | .cmd18 _ _ | .cmd24 _ _ | .cmd25 _ _
  | .acmd41 _ _ | .cmd55 _ _ | .cmd58 _ _ | .cfAny _ _ _ | .tokenMultiWrite | .tokenStopTran | .fill | .dblkW _ _
  | .sendCommand _ _ _ | .readBlocks _ _ | .writeBlocks _ _ | .blockCount | .control _ | .release | .clockIdle _
  | .checkBuffer _ | .waitToken | .recvBlock _ _ | .readSingle _ | .readMulti _ | .readCsd | .sendBlock _ _ | .checkDresp
  | .busyWait | .sendStop | .writeSingle _ | .writeMulti _ | .cmd _ _ _ _ _ | .acmd _ _ _ _ _ => true
  | .tokenDataStart | .r1 _ | .r1Tail _ _ | .notStatus _ | .drespAccepted _ | .busy | .dblkR _ _ _ _
  | .awaitResponse _ _ _ | .blockSize | .build _ _ _ | .crc7Gen _ _ _ _ _ | .classify _ => false

/-- R82 to R89: the rows for what the card may send, and their bytes under the parameters. -/
def fromCard (p : Params) (i : Instr) : Option (List Byte) :=
  match i with
  | .tokenDataStart | .r1 _ | .r1Tail _ _ | .notStatus _ | .drespAccepted _ | .busy | .dblkR _ _ _ _ => encode p i
  | _ => none

/-! ### The command frames as the rules of 41_command_set.md poll them -/

/-- R150 to R161: a named frame's index, argument and CRC, and the AWAIT_RESPONSE operands it is polled with
(extra_bytes, release, skip_lead_byte). -/
def polledFrame : Instr → Option (Index × Arg × Crc7 × Nat × Bool × Bool)
  | .cmd0 a c => some (0, a, c, 0, true, false)
  | .cmd8 a c => some (8, a, c, 4, true, false)
  | .cmd9 a c => some (9, a, c, 0, false, false)
  | .cmd12 a c => some (12, a, c, 0, true, true)
  | .cmd16 a c => some (16, a, c, 0, true, false)
  | .cmd17 a c => some (17, a, c, 0, false, false)
  | .cmd18 a c => some (18, a, c, 0, false, false)
  | .cmd24 a c => some (24, a, c, 0, false, false)
  | .cmd25 a c => some (25, a, c, 0, false, false)
  | .acmd41 a c => some (41, a, c, 0, true, false)
  | .cmd55 a c => some (55, a, c, 0, true, false)
  | .cmd58 a c => some (58, a, c, 4, true, false)
  | _ => none

/-! ### The invariant -/

/-- R28: VER, CDV and SECTORS hold values, CDV is the version's multiplier and SECTORS is not zero. -/
def State.sessionSet (s : State) : Bool :=
  match s.ver, s.cdv, s.sectors with
  | some g, some m, some n => m == g.cdv && decide (0 < n)
  | _, _, _ => false

/-- What the session registers hold when the Initialization State Machine stands at a stage (R262 to R270). -/
def Boot.sessionOk (b : Boot) (s : State) : Bool :=
  match b with
  | .start _ => true
  | .clocked | .idleTried _ | .probed => !s.ready && s.ver == none && s.cdv == none && s.sectors == none
  | .gen1Announced _ | .gen1Polled _ => !s.ready && s.ver == some .gen1 && s.cdv == none && s.sectors == none
  | .gen2OcrRead _ | .gen2Announced _ | .gen2Polled _ | .gen2Reread =>
    !s.ready && s.ver == some .gen2 && s.cdv == none && s.sectors == none
  | .csdRead => !s.ready && s.cdv == s.ver.map Gen.cdv && s.ver != none && s.sectors == none
  | .blockLenSent => !s.ready && s.sessionSet

/-- A host call that is not in the middle of a boot sequence. -/
def HostCall.fresh : HostCall → Bool
  | .boot (.start _) => true
  | .boot _ => false
  | .call _ | .wire _ _ | .poke _ _ => true

/-- Only the host's next call may stand inside a boot sequence, and then the session registers are as that stage has them. -/
def State.hostOk (s : State) : Bool :=
  match s.host with
  | [] => true
  | .boot b :: rest => b.sessionOk s && rest.all HostCall.fresh
  | _ :: rest => rest.all HostCall.fresh

/-- D40, R50: the return points that move a payload have a legal length and offsets that exist, with a host buffer of
length L and BLK_N = N. -/
def Cont.ok (L N : Nat) : Cont → Bool
  | .payload d off n => payloadLenOk n && decide (off + n ≤ d.len L)
  | .recvBlock d off n => payloadLenOk n && decide (off + n ≤ d.len L)
  | .sendBlock _ off => decide (off + Config.blockSize ≤ L)
  | .sendPayload off => decide (off + Config.blockSize ≤ L)
  | .readFrom _ => decide (Config.blockSize * N ≤ L)
  | .writeFrom _ => decide (Config.blockSize * N ≤ L)
  | _ => true

/-- What must follow a frame: its response poll (R24), or the return that leaves the poll to the host. -/
def frameStackOk : List Cont → Bool
  | .await _ _ _ :: _ => true
  | [.finish _] => true
  | _ => false

/-- What holds while the sequencer stands at a phase. -/
def State.phaseOk (s : State) : Bool :=
  match s.phase with
  | .idle => s.op == .none && s.stack == []
  | .assert _ _ _ => frameStackOk s.stack
  | .frame k => s.cs && decide (k < Config.frameLen) && frameStackOk s.stack
  | .skipLead _ _ => s.pollCnt == 0
  | .poll _ _ => decide (s.pollCnt < Config.respBudget)
  | .token => decide (s.tokenCnt < s.cfg.tokenBudget)
  | .recv d off n => decide (s.byteIdx < n) && payloadLenOk n && decide (off + n ≤ d.len s.bufLen)
  | .send off => decide (s.byteIdx < Config.blockSize) && decide (off + Config.blockSize ≤ s.bufLen)
  | .busy => match s.cfg.busyBudget with
    | some n => decide (s.busyCnt < n)
    | none => true
  | .deassert _ _ | .fill _ _ | .tx _ | .dresp => true

/-- The invariant: the host buffer and READ_CSD's destination are in canonical form; a pending response poll means
chip-select is asserted and no operation is in flight (R24); READY means the session registers are set and consistent
(R28); the counters are within their budgets (R25, R26); every payload byte still to be moved has an offset that exists
(R50); the sequencer and the host stand where they may. -/
structure State.Inv (s : State) : Prop where
  memory : Memory.wf s.buf
  csd : Memory.wf s.csd
  pending : s.pending = true → s.cs = true ∧ s.phase = .idle
  ready : s.ready = true → s.sessionSet = true
  consistent : ∀ g m, s.ver = some g → s.cdv = some m → m = g.cdv
  pollCnt : s.pollCnt ≤ Config.respBudget
  byteIdx : s.byteIdx ≤ Config.blockSize
  phase : s.phaseOk = true
  stack : s.stack.all (Cont.ok s.bufLen s.blkN) = true
  host : s.hostOk = true

/-! ### The flow of a bulk operation -/

/-- Whether every exit that the return points lead to leaves the bus released; `rel` says whether it is released now. -/
def closes : List Cont → Bool → Bool
  | [], _ => false
  | .await _ r _ :: ks, _ => closes ks r
  | .releaseIf r :: ks, rel => closes ks (r || rel)
  | .release :: ks, _ => closes ks true
  | .cmd _ _ _ r _ :: ks, _ => closes ks r
  | .status check :: ks, rel => (check != .stop || rel) && closes ks rel
  | .recvBlock _ _ _ :: ks, _ => closes ks false
  | .payload _ _ _ :: ks, _ => closes ks false
  | .readFrom _ :: ks, _ => closes ks false
  | .fill _ n :: ks, rel => closes ks (n == 0 && rel)
  | .sendBlock _ _ :: ks, _ => closes ks false
  | .sendPayload _ :: ks, _ => closes ks false
  | .checkDresp :: ks, _ => closes ks false
  | .busyWait :: ks, _ => closes ks false
  | .writeFrom _ :: ks, _ => closes ks false
  | .sendStop :: ks, _ => closes ks false
  | .finish _ :: _, rel => rel
  | .raise _ :: _, rel => rel

/-- Whether the frame in flight is followed by its response poll. -/
def awaitsFirst : List Cont → Bool
  | .await _ _ _ :: _ => true
  | _ => false

/-- R240 while the operation is still in flight: whatever the card answers, every exit leaves the bus released. -/
def State.flow (s : State) : Bool :=
  !s.pending &&
  match s.phase with
  | .idle => false
  | .assert _ _ _ | .frame _ => awaitsFirst s.stack && closes s.stack false
  | .skipLead _ r | .poll _ r => closes s.stack r
  | .deassert _ n => closes s.stack (n == 1)
  | .fill _ n => closes s.stack (n == 1 && !s.cs && s.bus.hist.head? == some .deassert)
  | .tx _ | .token | .recv _ _ _ | .send _ | .dresp | .busy => closes s.stack false

end Sys2Proof.Machine
end

