-- ==== Sys2Proof/Certificates/Slice0/Obligations.lean ====
section
/-! DEFINITION. The statements for the provers. A statement about an operation gives the state it ends in as an update of
the state it was issued in, so what it leaves alone is said by what the update does not name; what the card answers is a
hypothesis on `Bus.answers`, the bytes received while the block sends its own. -/

open Sys2Proof Sys2Proof.Machine

/-! ### Encodings -/

/-- R53: the argument is big-endian in FRAME[1..4], and the bytes of a frame cross the bus in index order. -/
def Obligations.ArgumentIsBigEndianAndBytesGoInOrder : Prop :=
  (∀ i a c,
    frameByte (build i a c) 1 = a.extractLsb' 24 8 ∧ frameByte (build i a c) 2 = a.extractLsb' 16 8 ∧
    frameByte (build i a c) 3 = a.extractLsb' 8 8 ∧ frameByte (build i a c) 4 = a.extractLsb' 0 8) ∧
  ∀ s t k, s.phase = .frame k → k < 6 → tick s = .next t →
    t.bus.hist = .xchg (frameByte s.frame k) s.bus.answer :: s.bus.hist ∧ (k < 5 → t.phase = .frame (k + 1))

/-- R80, R81: the layout of a frame (its fixed bits are D5's), the operands read back from it, and the operation `build`. -/
def Obligations.BuildPlacesItsOperandsInjectively : Prop :=
  (∀ i a c,
    frameByte (build i a c) 0 = 0b01#2 ++ i ∧ frameByte (build i a c) 5 = c ++ 1#1 ∧
    frameIndex (build i a c) = i ∧ frameArgument (build i a c) = a ∧ frameCrc (build i a c) = c) ∧
  (∀ i a c i' a' c', build i a c = build i' a' c' → i = i' ∧ a = a' ∧ c = c') ∧
  ∀ (s : State) (index argument crc : Nat), index < 64 → argument < 2 ^ 32 → crc < 128 →
    exec (.build index argument crc) s =
      .next { s with result := .frame (build (BitVec.ofNat 6 index) (BitVec.ofNat 32 argument) (BitVec.ofNat 7 crc)) }

/-- R80 to R94, R7, R8: decode after encode, for every legal choice of the open parameters and every well-formed
instruction that has bytes, at its position on the bus. -/
def Obligations.DecodeReadsWhatEncodeWrites : Prop :=
  ∀ p : Params, p.wf = true → ∀ i : Instr, i.wellFormed p = true → i.canonical = true →
    ∀ bs sl, encode p i = some bs → i.slot = some sl → decodeAt p sl bs = .ok i

/-- R93, R94: whatever the parameters, a 48-bit word is a frame exactly when its fixed bits are right, and then its row
holds all its bits; the table's own decoder answers the same. -/
def Obligations.FrameWordsDecodeExactlyWhenFixedBitsHold : Prop :=
  ∀ (p : Params) (f : Frame),
    (frameFixedOk f = true →
      ∃ i, decodeWord p 48 f.toNat = some i ∧ i.canonical = true ∧ encode p i = some (frameBytes f)) ∧
    (frameFixedOk f = false → decodeWord p 48 f.toNat = none) ∧
    decodeTableWord 48 f.toNat = decodeWord p 48 f.toNat

/-- R81, R82, R85, R88 to R90 on words written out from the tables; and a device whose data-start token is 0xFB (R7). -/
def Obligations.SampleWordsDecode : Prop :=
  decodeTableWord 48 0x5100000A00C9 = some (.cmd17 0x00000A00 0x64) ∧
  decodeTableWord 48 0x694000000077 = some (.acmd41 0x40000000 0x3B) ∧
  decodeTableWord 48 0x7FFFFFFFFF19 = some (.cfAny 63 0xFFFFFFFF 0x0C) ∧
  decodeTableWord 48 0xC00000000095 = none ∧
  decodeTableWord 40 0x01000001AA = some (.r1Tail 0x01 0x000001AA) ∧
  decodeTableWord 8 0xFE = some .tokenDataStart ∧
  decodeTableWord 8 0xE5 = some (.drespAccepted 0b111) ∧
  decodeTableWord 8 0x00 = some .busy ∧
  decodeTableWord 8 0xFF = some .fill ∧
  decodeTableWord 8 0x01 = some (.r1 0x01) ∧
  decodeTableWord 8 0x80 = some (.notStatus 0) ∧
  decodeWord { Params.initial with tokenDataStart := 0xFB } 8 0xFB = some .tokenDataStart ∧
  decodeWord { Params.initial with tokenDataStart := 0xFB } 8 0xFE = some (.notStatus 0x7E)

/-! ### The machine -/

/-- R20, R91, R8, log 11: what a step is: an operation in flight does one tick; between operations the host's next call is
issued (a table word after decoding it under the device's parameters; R94: a word that is no row is refused), or its boot
sequence takes the step it stands at; a host with no call left waits. -/
def Obligations.StepRunsTheDecodedInstruction : Prop :=
  (∀ (s : State) nbits w i, decodeWord s.cfg nbits w = some i →
    step (s.withFetchWord nbits w) = exec i { s with phase := .idle, stack := [] }) ∧
  (∀ (s : State) nbits w i, s.cfg = Params.initial → decodeTableWord nbits w = some i →
    step (s.withFetchWord nbits w) = exec i { s with phase := .idle, stack := [] }) ∧
  (∀ (s : State) nbits w i rest, s.phase = .idle → s.host = .wire nbits w :: rest → decodeWord s.cfg nbits w = some i →
    step s = exec i { s with host := rest }) ∧
  (∀ (s : State) i rest, s.phase = .idle → s.host = .call i :: rest → step s = exec i { s with host := rest }) ∧
  (∀ s : State, s.phase ≠ .idle → step s = tick s) ∧
  (∀ s : State, s.phase = .idle → s.host = [] → step s = .next s) ∧
  (∀ (s : State) off bytes rest, s.phase = .idle → s.host = .poke off bytes :: rest →
    step s = .next { s with host := rest, buf := Memory.writeList s.buf off bytes }) ∧
  (∀ (s : State) b rest, s.phase = .idle → s.host = .boot b :: rest → step s = bootStep b { s with host := rest }) ∧
  ∀ (s : State) nbits w rest, s.phase = .idle → s.host = .wire nbits w :: rest → decodeWord s.cfg nbits w = none →
    step s = .refused .undecodable

/-- R20, R21, R33, R35: a step makes at most one bus event, and chip-select follows the assert and deassert events alone; a
construction is the reset the history counts from: after its first step the history is the one deassert event. -/
def Obligations.OneBusEventPerStep : Prop :=
  (∀ s t, step s = .next t → (s.phase ≠ .idle ∨ ∀ debug rest, s.host ≠ .boot (.start debug) :: rest) →
    (t.bus.hist = s.bus.hist ∧ t.cs = s.cs) ∨
    (t.bus.hist = .assert :: s.bus.hist ∧ t.cs = true) ∨
    (t.bus.hist = .deassert :: s.bus.hist ∧ t.cs = false) ∨
    ∃ sent got, t.bus.hist = .xchg sent got :: s.bus.hist ∧ t.cs = s.cs) ∧
  ∀ (s t : State) debug rest, s.phase = .idle → s.host = .boot (.start debug) :: rest → step s = .next t →
    t.bus.hist = [.deassert] ∧ t.cs = false

/-- R90: every exchange that receives or only clocks sends FILL; so do the two checksum positions of a written block, and
one such exchange follows the deassertion of RELEASE. -/
def Obligations.ReceivingExchangesSendFill : Prop :=
  (∀ s t, tick s = .next t →
    (∃ e r, s.phase = .skipLead e r) ∨ (∃ e r, s.phase = .poll e r) ∨ (∃ w n, s.phase = .fill w n) ∨ s.phase = .token ∨
      (∃ d off n, s.phase = .recv d off n) ∨ s.phase = .dresp ∨ s.phase = .busy →
    t.bus.hist = .xchg 0xFF s.bus.answer :: s.bus.hist) ∧
  (∀ s t off, s.phase = .send off → s.byteIdx = 511 → tick s = .next t → t.phase = .fill .checksumOut 2) ∧
  (∀ s t w, s.phase = .fill w 2 → tick s = .next t → t.phase = .fill w 1) ∧
  ∀ s t, s.phase = .deassert .release 1 → tick s = .next t → t.phase = .fill .release 1

/-- R31, R50, R54, R172, R176: a received payload byte is stored at off + BYTE_IDX of its destination, the host buffer or
READ_CSD's own 16 bytes, and nothing else of either changes; no other tick changes a byte. Issuing an instruction changes
no byte, except that DBLK-W brings its payload as the buffer (log 8); a card's row given to an exchange in flight is that
exchange's tick. -/
def Obligations.MemoryChangesOnlyByPayload : Prop :=
  (∀ s t off n, s.phase = .recv .host off n → Memory.wf s.buf → tick s = .next t →
    t.csd = s.csd ∧
    ∀ a, Memory.read t.buf a = if a = off + s.byteIdx then s.bus.answer else Memory.read s.buf a) ∧
  (∀ s t off n, s.phase = .recv .csd off n → Memory.wf s.csd → tick s = .next t →
    t.buf = s.buf ∧
    ∀ a, Memory.read t.csd a = if a = off + s.byteIdx then s.bus.answer else Memory.read s.csd a) ∧
  (∀ s t, (∀ d off n, s.phase ≠ .recv d off n) → tick s = .next t → t.buf = s.buf ∧ t.csd = s.csd) ∧
  (∀ i s t, (∀ token payload, i ≠ .dblkW token payload) → s.phase = .idle ∨ fromCard s.cfg i = none → exec i s = .next t →
    t.buf = s.buf ∧ t.csd = s.csd) ∧
  ∀ token payload s t, Memory.wf s.buf → exec (.dblkW token payload) s = .next t →
    t.csd = s.csd ∧
    ∀ a, Memory.read t.buf a = if a < payload.length then payload.getD a 0 else Memory.read s.buf a

/-- R35, R260: what the rule gives a value for at reset; and of RESP and FRAME, which nothing has written: each operation that
reads them is refused (that it reads them is log 14's choice). -/
def Obligations.ResetStateIsTheRulesTable : Prop :=
  State.reset.cs = false ∧ State.reset.pending = false ∧ State.reset.op = .none ∧ State.reset.phase = .idle ∧
  State.reset.stack = [] ∧ State.reset.err = none ∧ State.reset.ver = none ∧
  State.reset.cdv = none ∧ State.reset.sectors = none ∧ State.reset.ready = false ∧ State.reset.bus.hist = [] ∧
  State.reset.cfg.wf = true ∧ exec .waitToken State.reset = .refused .preconditionUnmet ∧
  (∀ off, exec (.recvBlock off 512) State.reset = .refused .preconditionUnmet) ∧
  ∀ token off, exec (.sendBlock token off) State.reset = .refused .preconditionUnmet

/-- The invariant holds at reset. -/
def Obligations.ResetMeetsTheInvariant : Prop := State.reset.Inv

/-- The invariant (R24, R25, R26, R28, the canonical memory, D40) is kept by every step, from every state that has it. -/
def Obligations.EveryStepKeepsTheInvariant : Prop := ∀ s t : State, s.Inv → step s = .next t → t.Inv

/-- R8, R27, R28: no step writes the parameters; only a step of the Initialization State Machine writes a session
register; and in an initialised instance only a new construction does. -/
def Obligations.SessionRegistersAreWrittenByBootAlone : Prop :=
  (∀ s t, step s = .next t → t.cfg = s.cfg) ∧
  (∀ s t, step s = .next t → (s.phase ≠ .idle ∨ ∀ b rest, s.host ≠ .boot b :: rest) →
    t.ver = s.ver ∧ t.cdv = s.cdv ∧ t.sectors = s.sectors ∧ t.busRate = s.busRate ∧ t.debug = s.debug ∧
    t.ready = s.ready) ∧
  ∀ s t : State, s.Inv → s.ready = true → step s = .next t →
    (∀ debug rest, s.host ≠ .boot (.start debug) :: rest) →
    t.ver = s.ver ∧ t.cdv = s.cdv ∧ t.sectors = s.sectors ∧ t.ready = true

/-- R240: from a state with the exit invariant, READ_BLOCKS and WRITE_BLOCKS run until the sequencer is idle again, and
whatever the card has answered, the exit invariant holds there: after success and after any error; an InvalidArgument exit
makes no bus event, and the invariant still holds. -/
def Obligations.BulkOperationsLeaveTheBusReleased : Prop :=
  (∀ (s u t : State) (start len k : Nat) (i : Instr), s.busIdle → (i = .readBlocks start len ∨ i = .writeBlocks start len) →
    exec i s = .next u → ticks k u = .next t → t.phase = .idle → t.busIdle) ∧
  ∀ (s : State) (start len : Nat) (i : Instr), s.busIdle → s.ready = true → len = 0 ∨ len % 512 ≠ 0 →
    (i = .readBlocks start len ∨ i = .writeBlocks start len) →
    ∃ u, exec i s = .next u ∧ u.err = some (.invalidArgument len) ∧ u.bus = s.bus ∧ u.busIdle

/-- R243: whatever a bulk operation ended with, the session registers are as they were, READY stays 1, and the next bulk
operation is accepted. -/
def Obligations.AfterAnErrorTheNextOperationIsAccepted : Prop :=
  ∀ (s u t : State) (start len k : Nat) (i : Instr), s.busIdle → s.ready = true →
    (i = .readBlocks start len ∨ i = .writeBlocks start len) → exec i s = .next u → ticks k u = .next t → t.phase = .idle →
    t.ver = s.ver ∧ t.cdv = s.cdv ∧ t.sectors = s.sectors ∧ t.ready = true ∧
    ∀ m next len', s.cdv = some m → next * m.toNat < 2 ^ 32 → 0 < len' → len' % 512 = 0 →
      (∃ v, exec (.readBlocks next len') t = .next v) ∧ ∃ v, exec (.writeBlocks next len') t = .next v

/-! ### Refusals -/

/-- R24, R65: with a response poll due, or with an operation in flight, every bus operation is refused; AWAIT_RESPONSE is
refused without a command pending. -/
def Obligations.OnlyAwaitResponseFollowsAFrame : Prop :=
  (∀ (s : State) i, busOperation i = true → i.wellFormed s.cfg = true →
    (s.phase = .idle → s.pending = true → exec i s = .refused .responsePollDue) ∧
    (s.phase ≠ .idle → exec i s = .refused .operationInFlight)) ∧
  ∀ (s : State) e r k,
    (s.phase = .idle → s.pending = false → exec (.awaitResponse e r k) s = .refused .noCommandPending) ∧
    (s.phase ≠ .idle → exec (.awaitResponse e r k) s = .refused .operationInFlight)

/-- D9, D10, D31, D38, D40, D43, R28, R62, R86, R87: what else is refused, each by its reason, in the bulk operations and
the facade queries as in the transfer cases and the data-block rows issued alone. R28, D43: a read of an unset session
register is refused, and in no state of the invariant does a step or an operation end so. -/
def Obligations.OperandsOutsideTheirDomainAreRefused : Prop :=
  (∀ (s : State) index argument crc, ¬ (index < 64 ∧ argument < 2 ^ 32 ∧ crc < 128) →
    exec (.sendCommand index argument crc) s = .refused .operandOutOfDomain ∧
    exec (.build index argument crc) s = .refused .operandOutOfDomain) ∧
  (∀ (s : State) index argument e r k, ¬ (index < 64 ∧ argument < 2 ^ 32) →
    exec (.cmd index argument e r k) s = .refused .operandOutOfDomain ∧
    exec (.acmd index argument e r k) s = .refused .operandOutOfDomain) ∧
  (∀ (s : State) off n, n ≠ 512 → n ≠ 16 → exec (.recvBlock off n) s = .refused .operandOutOfDomain) ∧
  (∀ (s : State) skipped payload sum0 sum1,
    (payload.length ≠ 512 ∧ payload.length ≠ 16) ∨ s.cfg.tokenDataStart ∈ skipped →
    exec (.dblkR skipped payload sum0 sum1) s = .refused .operandOutOfDomain) ∧
  (∀ (s : State) token payload, payload.length ≠ 512 → exec (.dblkW token payload) s = .refused .operandOutOfDomain) ∧
  (∀ (s : State) code, exec (.control (.other code)) s = .refused .unknownControlOp) ∧
  (∀ (s : State) start len, s.accepting → s.ready = false →
    exec (.readBlocks start len) s = .refused .notReady ∧ exec (.writeBlocks start len) s = .refused .notReady ∧
    exec .blockCount s = .refused .notReady ∧ exec (.control .getSectorCount) s = .refused .notReady ∧
    exec (.readSingle start) s = .refused .notReady ∧ exec (.readMulti start) s = .refused .notReady ∧
    exec (.writeSingle start) s = .refused .notReady ∧ exec (.writeMulti start) s = .refused .notReady) ∧
  (∀ (s : State) start len m, s.accepting → s.ready = true → s.cdv = some m → 0 < len → len % 512 = 0 →
    2 ^ 32 ≤ start * m.toNat →
    exec (.readBlocks start len) s = .refused .argumentTooWide ∧
    exec (.writeBlocks start len) s = .refused .argumentTooWide) ∧
  (∀ s : State, s.accepting → s.ready = true → s.sectors = none →
    exec .blockCount s = .refused .registerUnset ∧ exec (.control .getSectorCount) s = .refused .registerUnset) ∧
  (∀ (s : State) start len, s.accepting → s.ready = true → s.cdv = none → 0 < len → len % 512 = 0 →
    exec (.readBlocks start len) s = .refused .registerUnset ∧
    exec (.writeBlocks start len) s = .refused .registerUnset) ∧
  (∀ (s : State) start i, s.accepting → s.ready = true →
    (s.blkN = 1 ∧ 512 ≤ s.bufLen ∧ (i = .readSingle start ∨ i = .writeSingle start)) ∨
      (2 ≤ s.blkN ∧ 512 * s.blkN ≤ s.bufLen ∧ (i = .readMulti start ∨ i = .writeMulti start)) →
    (s.cdv = none → exec i s = .refused .registerUnset) ∧
    ∀ m, s.cdv = some m → 2 ^ 32 ≤ start * m.toNat → exec i s = .refused .argumentTooWide) ∧
  ∀ s : State, s.Inv → step s ≠ .refused .registerUnset ∧ ∀ i, exec i s ≠ .refused .registerUnset

/-- A micro-operation whose precondition does not hold is refused (R171, R172, R190, R192 name the precondition; that the
acknowledged command is read from CS, RESP and FRAME is log 14). The model's choices: SEND_STOP is refused at CS = 0, and a
transfer case issued alone with another BLK_N is refused (log 14; R196, R173, R174, R193, R194 state no refusal); an
operation that would move a byte beyond the end of the host buffer is refused when it is issued (log 8; R50 says only which
offsets exist). So in no state of the invariant is a step or an operation a fault: it returns, errors or is refused (R11).
In other states a payload byte without an offset is the fault hostBufferOutOfRange (log 8). -/
def Obligations.UnmetPreconditionsAndMissingBufferBytesStop : Prop :=
  (∀ s : State, s.accepting → readAcknowledged s = false →
    exec .waitToken s = .refused .preconditionUnmet ∧
    ∀ off n, n = 512 ∨ n = 16 → exec (.recvBlock off n) s = .refused .preconditionUnmet) ∧
  (∀ s : State, s.accepting → writeAcknowledged s = false →
    (∀ token off, exec (.sendBlock token off) s = .refused .preconditionUnmet) ∧
    ∀ token payload, payload.length = 512 → exec (.dblkW token payload) s = .refused .preconditionUnmet) ∧
  (∀ s : State, s.accepting → s.cs = false →
    exec .busyWait s = .refused .preconditionUnmet ∧ exec .sendStop s = .refused .preconditionUnmet) ∧
  (∀ (s : State) start, s.accepting → s.ready = true →
    (s.blkN ≠ 1 →
      exec (.readSingle start) s = .refused .blockCountMismatch ∧
      exec (.writeSingle start) s = .refused .blockCountMismatch) ∧
    (s.blkN < 2 →
      exec (.readMulti start) s = .refused .blockCountMismatch ∧
      exec (.writeMulti start) s = .refused .blockCountMismatch)) ∧
  (∀ (s : State) off n, s.accepting → readAcknowledged s = true → n = 512 ∨ n = 16 → s.bufLen < off + n →
    exec (.recvBlock off n) s = .refused .bufferTooShort) ∧
  (∀ (s : State) token off, s.accepting → writeAcknowledged s = true → s.bufLen < off + 512 →
    exec (.sendBlock token off) s = .refused .bufferTooShort) ∧
  (∀ (s : State) start, s.accepting → s.ready = true →
    (s.blkN = 1 → s.bufLen < 512 →
      exec (.readSingle start) s = .refused .bufferTooShort ∧
      exec (.writeSingle start) s = .refused .bufferTooShort) ∧
    (2 ≤ s.blkN → s.bufLen < 512 * s.blkN →
      exec (.readMulti start) s = .refused .bufferTooShort ∧
      exec (.writeMulti start) s = .refused .bufferTooShort)) ∧
  (∀ (s : State) f, s.Inv → step s ≠ .fault f ∧ ∀ i, exec i s ≠ .fault f) ∧
  ∀ (s : State) off,
    ((s.bufLen ≤ off + s.byteIdx ∧ ((∃ n, s.phase = .recv .host off n) ∨ s.phase = .send off)) ∨
      (16 ≤ off + s.byteIdx ∧ ∃ n, s.phase = .recv .csd off n)) →
    tick s = .fault (.hostBufferOutOfRange (off + s.byteIdx))

/-! ### The Command Framer -/

/-- R123, R94: SEND_COMMAND, and a frame of any other index: chip-select asserted, the frame built, its six bytes sent,
PENDING = 1, the frame returned; nothing else changes. -/
def Obligations.SendCommandSendsTheFrame : Prop :=
  (∀ (s : State) (index argument crc : Nat), s.accepting → index < 64 → argument < 2 ^ 32 → crc < 128 →
    let f := build (BitVec.ofNat 6 index) (BitVec.ofNat 32 argument) (BitVec.ofNat 7 crc)
    ∃ u, exec (.sendCommand index argument crc) s = .next u ∧
      Reaches u
        { s with
          cs := true, frame := f, pending := true, stack := [], err := none, result := .frame f
          bus := Bus.send (frameBytes f) (s.bus.note .assert) }) ∧
  ∀ (s : State) (i : Index) (a : Arg) (c : Crc7), s.accepting →
    ∃ u, exec (.cfAny i a c) s = .next u ∧
      Reaches u
        { s with
          cs := true, frame := build i a c, pending := true, stack := [], err := none, result := .frame (build i a c)
          bus := Bus.send (frameBytes (build i a c)) (s.bus.note .assert) }

/-- R22: FRAME is written where chip-select is asserted for it, no other step changes it but a new construction, no other
bus event comes between its six bytes, and it is what SEND_COMMAND returns. -/
def Obligations.FrameIsImmutableWhileItIsSent : Prop :=
  (∀ s t i a c, s.phase = .assert i a c → tick s = .next t → t.frame = build i a c ∧ t.phase = .frame 0) ∧
  (∀ s t k, s.phase = .frame k → k < 5 → tick s = .next t →
    t.frame = s.frame ∧ t.phase = .frame (k + 1) ∧
    t.bus.hist = .xchg (frameByte s.frame k) s.bus.answer :: s.bus.hist) ∧
  (∀ s t, step s = .next t → (s.phase ≠ .idle ∨ ∀ debug rest, s.host ≠ .boot (.start debug) :: rest) →
    t.frame = s.frame ∨ t.bus.hist = .assert :: s.bus.hist ∧ t.phase = .frame 0) ∧
  ∀ s : State, (finish .frame s).result = .frame s.frame

/-- R124: AWAIT_RESPONSE with a status byte within the budget, for every value of its operands. -/
def Obligations.AwaitResponseReturnsTheStatusByte : Prop :=
  ∀ (s : State) (e : Nat) (r k : Bool) (lead junk : List Byte) (f : BitVec 7),
    s.phase = .idle → s.pending = true → s.op = .none → StatusAnswered k lead junk f s.bus →
    ∃ u, exec (.awaitResponse e r k) s = .next u ∧
      Reaches u
        { s with
          pending := false, pollCnt := junk.length + 1, resp := .status f, cs := s.cs && !r, stack := [], err := none
          result := .response (.status f)
          bus := Bus.releaseIf r (Bus.send (fills (lead.length + (junk.length + 1) + e)) s.bus) }

/-- R25: POLL_CNT starts at 0, each poll adds 1. R124: on a bus that never answers a status byte AWAIT_RESPONSE returns the
sentinel after exactly the retry budget of 1000 polls; the skipped byte costs no attempt (D12), no extra byte is drained
and release is made exactly if asked for (D13): log 18. -/
def Obligations.AwaitResponseTimesOutAfterExactlyTheBudget : Prop :=
  (∀ (s u : State) e r k, s.phase = .idle → s.pending = true → exec (.awaitResponse e r k) s = .next u →
    u.pollCnt = if k then 0 else 1) ∧
  (∀ s t e r, s.phase = .poll e r → isStatusByte s.bus.answer = false → s.pollCnt + 1 ≠ 1000 → tick s = .next t →
    t.pollCnt = s.pollCnt + 1 ∧ t.phase = .poll e r) ∧
  ∀ (s : State) (e : Nat) (r k : Bool), s.phase = .idle → s.pending = true → s.op = .none → NoStatus k s.bus →
    ∃ u, exec (.awaitResponse e r k) s = .next u ∧
      Reaches u
        { s with
          pending := false, pollCnt := 1000, resp := .timeout, cs := s.cs && !r, stack := [], err := none
          result := .response .timeout
          bus := Bus.releaseIf r (Bus.send (fills (k.toNat + 1000)) s.bus) }

/-- R124, R285: whatever the card answers, AWAIT_RESPONSE ends, with a status or the sentinel, after at most the skipped
byte, 1000 polls, the extra bytes and the release (its D event and its one exchange). -/
def Obligations.AwaitResponseAlwaysEnds : Prop :=
  ∀ (s : State) (e : Nat) (r k : Bool), s.phase = .idle → s.pending = true → s.op = .none →
    ∃ u t, exec (.awaitResponse e r k) s = .next u ∧ Reaches u t ∧ t.phase = .idle ∧ t.pending = false ∧
      t.result = .response t.resp ∧ t.pollCnt ≤ 1000 ∧
      t.bus.hist.length ≤ s.bus.hist.length + (k.toNat + 1000 + e + 2 * r.toNat)

/-- R120: RELEASE, whatever the level of chip-select: one D event and one FILL exchange; refused while a poll is due. -/
def Obligations.ReleaseDeassertsAndClocksOneFiller : Prop :=
  (∀ s : State, s.accepting →
    ∃ u, exec .release s = .next u ∧
      Reaches u
        { s with
          cs := false, stack := [], err := none, result := .done
          bus := (s.bus.note .deassert).xchg 0xFF }) ∧
  ∀ s : State, s.phase = .idle → s.pending = true → exec .release s = .refused .responsePollDue

/-- R121: CLOCK_IDLE(n): one D event and n FILL exchanges, for every n. -/
def Obligations.ClockIdleDeassertsAndClocksFillers : Prop :=
  ∀ (s : State) (n : Nat), s.accepting →
    ∃ u, exec (.clockIdle n) s = .next u ∧
      Reaches u
        { s with
          cs := false, stack := [], err := none, result := .done
          bus := Bus.send (List.replicate n 0xFF) (s.bus.note .deassert) }

/-- R125: CMD is the frame with the CRC of CRC_POLICY and its poll, with a status byte or without one. -/
def Obligations.CmdPairsTheFrameWithItsPoll : Prop :=
  ∀ (s : State) (index argument e : Nat) (r k : Bool), s.accepting → index < 64 → argument < 2 ^ 32 →
    let i : Index := BitVec.ofNat 6 index
    let a : Arg := BitVec.ofNat 32 argument
    let c := crcFor s.cfg i a
    (∀ (lead junk : List Byte) (f : BitVec 7), StatusAnswered k lead junk f (s.bus.command i a c) →
      ∃ u, exec (.cmd index argument e r k) s = .next u ∧
        Reaches u
          { s with
            cs := !r, frame := build i a c, pollCnt := junk.length + 1, resp := .status f, stack := [], err := none
            result := .response (.status f)
            bus := Bus.releaseIf r (Bus.send (fills (lead.length + (junk.length + 1) + e)) (s.bus.command i a c)) }) ∧
    (NoStatus k (s.bus.command i a c) →
      ∃ u, exec (.cmd index argument e r k) s = .next u ∧
        Reaches u
          { s with
            cs := !r, frame := build i a c, pollCnt := Config.respBudget, resp := .timeout, stack := [], err := none
            result := .response .timeout
            bus := Bus.releaseIf r (Bus.send (fills (k.toNat + Config.respBudget)) (s.bus.command i a c)) })

/-- R96, R159: ACMD is CMD(55, 0), whose status, or absence of one, is not tested, and then CMD(index, argument, ...), with
a status byte or without one. `second` is the bus after the prefix, its poll and its release. -/
def Obligations.AcmdSendsThePrefixAndThenTheCommand : Prop :=
  ∀ (s : State) (index argument e : Nat) (r k : Bool) (second : Bus), s.accepting → index < 64 → argument < 2 ^ 32 →
    let i : Index := BitVec.ofNat 6 index
    let a : Arg := BitVec.ofNat 32 argument
    let c := crcFor s.cfg i a
    let first := s.bus.command 55 0 (crcFor s.cfg 55 0)
    (∃ junk f, StatusAnswered false [] junk f first ∧ second = (Bus.send (fills (junk.length + 1)) first).release) ∨
      NoStatus false first ∧ second = (Bus.send (fills Config.respBudget) first).release →
    (∀ (lead junk : List Byte) (f : BitVec 7), StatusAnswered k lead junk f (second.command i a c) →
      ∃ u, exec (.acmd index argument e r k) s = .next u ∧
        Reaches u
          { s with
            cs := !r, frame := build i a c, pollCnt := junk.length + 1, resp := .status f, stack := [], err := none
            result := .response (.status f)
            bus := Bus.releaseIf r (Bus.send (fills (lead.length + (junk.length + 1) + e)) (second.command i a c)) }) ∧
    (NoStatus k (second.command i a c) →
      ∃ u, exec (.acmd index argument e r k) s = .next u ∧
        Reaches u
          { s with
            cs := !r, frame := build i a c, pollCnt := Config.respBudget, resp := .timeout, stack := [], err := none
            result := .response .timeout
            bus := Bus.releaseIf r (Bus.send (fills (k.toNat + Config.respBudget)) (second.command i a c)) })

/-- R150 to R161: each of the twelve command frames is sent as given and polled with the AWAIT_RESPONSE operands of its
rule (`polledFrame`), with a status byte or without one. -/
def Obligations.NamedFramesArePolledAsTheirRulesSay : Prop :=
  ∀ (s : State) (ins : Instr) (i : Index) (a : Arg) (c : Crc7) (e : Nat) (r k : Bool),
    polledFrame ins = some (i, a, c, e, r, k) → s.accepting →
    (∀ (lead junk : List Byte) (f : BitVec 7), StatusAnswered k lead junk f (s.bus.command i a c) →
      ∃ u, exec ins s = .next u ∧
        Reaches u
          { s with
            cs := !r, frame := build i a c, pollCnt := junk.length + 1, resp := .status f, stack := [], err := none
            result := .response (.status f)
            bus := Bus.releaseIf r (Bus.send (fills (lead.length + (junk.length + 1) + e)) (s.bus.command i a c)) }) ∧
    (NoStatus k (s.bus.command i a c) →
      ∃ u, exec ins s = .next u ∧
        Reaches u
          { s with
            cs := !r, frame := build i a c, pollCnt := Config.respBudget, resp := .timeout, stack := [], err := none
            result := .response .timeout
            bus := Bus.releaseIf r (Bus.send (fills (k.toNat + Config.respBudget)) (s.bus.command i a c)) })

/-! ### Single bytes and blocks on the bus -/

/-- R85, R90: a token or filler byte sent between operations is one exchange; nothing else changes. The data-start token
is sent where no acknowledged read command makes it a token to receive (log 6). -/
def Obligations.SentBytesAreOneExchange : Prop :=
  ∀ s : State, s.accepting →
    let sent := fun b => { s with stack := [], err := none, result := .done, bus := s.bus.xchg b }
    exec .tokenMultiWrite s = .next (sent s.cfg.tokenMultiWrite) ∧
    exec .tokenStopTran s = .next (sent s.cfg.tokenStopTran) ∧
    exec .fill s = .next (sent 0xFF) ∧
    (readAcknowledged s = false → exec .tokenDataStart s = .next (sent s.cfg.tokenDataStart))

/-- R82, R83, R124: a status byte received by the poll that is due: RESP and POLL_CNT, the four bytes behind it drained,
RELEASE; and a byte with bit 7 set costs one attempt. -/
def Obligations.ReceivedStatusBytesEndThePollThatIsDue : Prop :=
  ∀ s : State, s.phase = .idle → s.pending = true → s.op = .none →
    (∀ f, ∃ u, exec (.r1 f) s = .next u ∧
      Reaches u
        { s with
          pending := false, pollCnt := 1, resp := .status f, cs := false, stack := [], err := none
          result := .response (.status f)
          bus := Bus.release { s.bus with hist := .xchg 0xFF (statusByte f) :: s.bus.hist } }) ∧
    (∀ f x, ∃ u, exec (.r1Tail f x) s = .next u ∧
      Reaches u
        { s with
          pending := false, pollCnt := 1, resp := .status f, cs := false, stack := [], err := none
          result := .response (.status f)
          bus := Bus.release { s.bus with
            hist :=
              .xchg 0xFF (x.extractLsb' 0 8) :: .xchg 0xFF (x.extractLsb' 8 8) :: .xchg 0xFF (x.extractLsb' 16 8) ::
                .xchg 0xFF (x.extractLsb' 24 8) :: .xchg 0xFF (statusByte f) :: s.bus.hist } }) ∧
    ∀ x, exec (.notStatus x) s =
      .next
        { s with
          pending := false, pollCnt := 1, phase := .poll 0 true, stack := [.finish .response], err := none
          result := .none
          bus := { s.bus with hist := .xchg 0xFF (notStatusByte x) :: s.bus.hist } }

/-- R32, R52, R94: bytes the card sends while an operation is in flight, whatever it is, are its answers to the exchanges
that come next, and the tick is that exchange's own. Log 6: given while no exchange is due they are lined up as the card's
next answers and nothing else changes. -/
def Obligations.UnexpectedCardBytesAreLinedUp : Prop :=
  ∀ (s : State) (i : Instr) (bs : List Byte), fromCard s.cfg i = some bs → i.wellFormed s.cfg = true →
    (s.phase ≠ .idle →
      exec i s = tick { s with bus := { s.bus with cardIn := bs ++ s.bus.cardIn } } ∧
        Bus.answers (fills bs.length) { s.bus with cardIn := bs ++ s.bus.cardIn } = bs) ∧
    (s.phase = .idle → s.pending = false →
      ((∃ f, i = .r1 f) ∨ (∃ f x, i = .r1Tail f x) ∨ (∃ x, i = .notStatus x) ∨ i = .busy ∧ s.cs = false ∨
        (∃ skipped payload c0 c1, i = .dblkR skipped payload c0 c1) ∧ readAcknowledged s = false) →
      exec i s = .next { s with bus := { s.bus with cardIn := s.bus.cardIn ++ bs } }) ∧
    (s.phase = .idle → s.pending = true →
      (i = .tokenDataStart ∨ (∃ x, i = .drespAccepted x) ∨ i = .busy ∨
        ∃ skipped payload c0 c1, i = .dblkR skipped payload c0 c1) →
      exec i s = .next { s with bus := { s.bus with cardIn := s.bus.cardIn ++ bs } })

/-- R88, R89, R191, R192: an accepted data response, and a busy byte, received between operations: the check passes; the
busy-wait has used one attempt and goes on; with chip-select deasserted the busy byte is lined up. -/
def Obligations.ReceivedDataResponseAndBusyByte : Prop :=
  (∀ (s : State) x, s.accepting →
    exec (.drespAccepted x) s =
      .next
        { s with
          stack := [], err := none, result := .done, dresp := drespByte x s.cfg.drespAccept
          bus := { s.bus with hist := .xchg 0xFF (drespByte x s.cfg.drespAccept) :: s.bus.hist } }) ∧
  (∀ s : State, s.accepting → s.cs = true → busyWithin s.cfg 1 →
    exec .busy s =
      .next
        { s with
          phase := .busy, stack := [.finish .done], err := none, result := .none, busyCnt := 1
          bus := { s.bus with hist := .xchg 0xFF 0 :: s.bus.hist } }) ∧
  ∀ s : State, s.phase = .idle → s.cs = false →
    exec .busy s = .next { s with bus := { s.bus with cardIn := s.bus.cardIn ++ [0] } }

/-- R85, R86, R171, R172: after an acknowledged read command the data-start token ends a token wait at its first poll, and
a data block of 512 bytes is received into the host buffer and one of 16 into READ_CSD's destination; without one
the block is lined up as the card's next answers. -/
def Obligations.ReceivedTokenAndDataBlock : Prop :=
  (∀ s : State, s.accepting → readAcknowledged s = true → 0 < s.cfg.tokenBudget →
    exec .tokenDataStart s =
      .next
        { s with
          stack := [], err := none, result := .done, tok := s.cfg.tokenDataStart, tokenCnt := 1
          bus := { s.bus with hist := .xchg 0xFF s.cfg.tokenDataStart :: s.bus.hist } }) ∧
  (∀ (s : State) (skipped payload : List Byte) (c0 c1 : Byte), s.accepting → readAcknowledged s = true →
    s.cfg.tokenDataStart ∉ skipped → skipped.length < s.cfg.tokenBudget →
    let done := { s with
      stack := [], err := none, result := .done, tok := s.cfg.tokenDataStart, tokenCnt := skipped.length + 1
      byteIdx := payload.length
      bus := Bus.send (fills (recvLen skipped payload))
        { s.bus with cardIn := blockInBytes s.cfg skipped payload c0 c1 ++ s.bus.cardIn } }
    (payload.length = 512 →
      ∃ u, exec (.dblkR skipped payload c0 c1) s = .next u ∧
        Reaches u { done with bufLen := 512, buf := Memory.writeList s.buf 0 payload }) ∧
    (payload.length = 16 →
      ∃ u, exec (.dblkR skipped payload c0 c1) s = .next u ∧
        Reaches u { done with csd := Memory.writeList s.csd 0 payload })) ∧
  ∀ (s : State) (skipped payload : List Byte) (c0 c1 : Byte), s.phase = .idle → readAcknowledged s = false →
    payload.length = 512 ∨ payload.length = 16 → s.cfg.tokenDataStart ∉ skipped →
    exec (.dblkR skipped payload c0 c1) s =
      .next { s with bus := { s.bus with cardIn := s.bus.cardIn ++ blockInBytes s.cfg skipped payload c0 c1 } }

/-- R87, R190: a data block to the card after an acknowledged write command: its payload is the buffer (log 8), and token,
payload and FILL FILL are sent, the data response accepted, the busy-wait ended. -/
def Obligations.DataBlockToTheCardIsSent : Prop :=
  ∀ (s : State) (token : DataToken) (payload : List Byte) (x : Taken), s.accepting → writeAcknowledged s = true →
    Memory.wf s.buf → payload.length = 512 →
    BlockAccepted s.cfg x.dresp x.busy x.last (Bus.send (blockOut (tokenByte s.cfg token) payload) s.bus) →
    ∃ u, exec (.dblkW token payload) s = .next u ∧
      Reaches u
        { s with
          stack := [], err := none, result := .done, byteIdx := 512, dresp := x.dresp, busyCnt := x.busy + 1, bufLen := 512
          buf := Memory.writeList s.buf 0 payload
          bus := s.bus.sendBlock (tokenByte s.cfg token) payload x }

/-! ### The read path -/

/-- R57, R170, R237: a length that is no positive multiple of 512 ends CHECK_BUFFER, READ_BLOCKS and WRITE_BLOCKS with
InvalidArgument before any bus event; any other length gives BLK_N = L div 512. -/
def Obligations.BufferLengthMustBeAPositiveMultiple : Prop :=
  (∀ (s : State) (len : Nat), s.accepting → len = 0 ∨ len % 512 ≠ 0 →
    let failed := { s with stack := [], err := some (.invalidArgument len), result := .error (.invalidArgument len) }
    exec (.checkBuffer len) s = .next failed ∧
    (s.ready = true → ∀ start,
      exec (.readBlocks start len) s = .next { failed with bufLen := 0 } ∧
      exec (.writeBlocks start len) s = .next { failed with bufLen := 0 })) ∧
  (∀ (s : State) (len : Nat), s.accepting → 0 < len → len % 512 = 0 →
    exec (.checkBuffer len) s =
      .next { s with err := none, result := .count (len / 512), blkN := len / 512, bufLen := len }) ∧
  ∀ (s : State) (start len : Nat) m, s.accepting → s.ready = true → s.cdv = some m → start * m.toNat < 2 ^ 32 → 0 < len →
    len % 512 = 0 →
    (∃ u, exec (.readBlocks start len) s = .next u ∧ u.blkN = len / 512) ∧
    ∃ u, exec (.writeBlocks start len) s = .next u ∧ u.blkN = len / 512

/-- R171: WAIT_TOKEN returns at the data-start token; without it, any operation that waits makes exactly TOKEN_BUDGET polls
and ends with RELEASE and IOTimeout(waiting_for_data), nothing else sent (D23: no stop command). -/
def Obligations.WaitTokenFindsTheTokenOrTimesOut : Prop :=
  (∀ (s : State) (junk : List Byte), s.accepting → readAcknowledged s = true → (∀ y ∈ junk, y ≠ s.cfg.tokenDataStart) →
    junk.length < s.cfg.tokenBudget → Bus.answers (fills (junk.length + 1)) s.bus = junk ++ [s.cfg.tokenDataStart] →
    ∃ u, exec .waitToken s = .next u ∧
      Reaches u
        { s with
          stack := [], err := none, result := .done, tok := s.cfg.tokenDataStart, tokenCnt := junk.length + 1
          bus := Bus.send (fills (junk.length + 1)) s.bus }) ∧
  (∀ (s : State), s.accepting → readAcknowledged s = true → 0 < s.cfg.tokenBudget →
    (∀ y ∈ Bus.answers (fills s.cfg.tokenBudget) s.bus, y ≠ s.cfg.tokenDataStart) →
    ∃ u, exec .waitToken s = .next u ∧
      Reaches u
        { s with
          stack := [], err := some (.ioTimeout .waitingForData), result := .error (.ioTimeout .waitingForData), cs := false
          tok := (Bus.answers (fills s.cfg.tokenBudget) s.bus).getLastD 0, tokenCnt := s.cfg.tokenBudget
          bus := (Bus.send (fills s.cfg.tokenBudget) s.bus).release }) ∧
  ∀ (s : State) (n : Nat), s.phase = .token → s.tokenCnt + (n + 1) = s.cfg.tokenBudget →
    (∀ y ∈ Bus.answers (fills (n + 1)) s.bus, y ≠ s.cfg.tokenDataStart) →
    Reaches s
      { s with
        phase := .idle, stack := [], op := .none, bufLen := if s.op = .none then s.bufLen else 0, cs := false
        err := some (.ioTimeout .waitingForData), result := .error (.ioTimeout .waitingForData)
        tok := (Bus.answers (fills (n + 1)) s.bus).getLastD 0, tokenCnt := s.cfg.tokenBudget
        bus := (Bus.send (fills (n + 1)) s.bus).release }

/-- R172: RECV_BLOCK stores the payload at off.., takes the two checksum bytes, and leaves chip-select as it is. -/
def Obligations.RecvBlockStoresThePayload : Prop :=
  ∀ (s : State) (off : Nat) (junk payload : List Byte), s.accepting → readAcknowledged s = true →
    payload.length = 512 ∨ payload.length = 16 → off + payload.length ≤ s.bufLen → BlockAnswered s.cfg junk payload s.bus →
    ∃ u, exec (.recvBlock off payload.length) s = .next u ∧
      Reaches u
        { s with
          stack := [], err := none, result := .done, tok := s.cfg.tokenDataStart, tokenCnt := junk.length + 1
          byteIdx := payload.length, buf := Memory.writeList s.buf off payload
          bus := Bus.send (fills (recvLen junk payload)) s.bus }

/-- R173, R175: READ_SINGLE, and READ_BLOCKS of one block. -/
def Obligations.ReadOfOneBlockSucceeds : Prop :=
  ∀ (s : State) (start : Nat) (m : Cdv) (junk tjunk payload : List Byte),
    s.accepting → s.ready = true → s.cdv = some m → start * m.toNat < 2 ^ 32 →
    let a : Arg := BitVec.ofNat 32 (start * m.toNat)
    let c := crcFor s.cfg 17 a
    let sent := s.bus.command 17 a c
    let acked := Bus.send (fills (junk.length + 1)) sent
    payload.length = 512 → StatusAnswered false [] junk 0 sent → BlockAnswered s.cfg tjunk payload acked →
    let done := { s with
      cs := false, frame := build 17 a c, pollCnt := junk.length + 1, resp := .status 0, stack := [], err := none
      result := .success, tok := s.cfg.tokenDataStart, tokenCnt := tjunk.length + 1, byteIdx := 512, blkN := 1
      buf := Memory.writeList s.buf 0 payload
      bus := (Bus.send (fills (recvLen tjunk payload)) acked).release }
    (s.blkN = 1 → 512 ≤ s.bufLen → ∃ u, exec (.readSingle start) s = .next u ∧ Reaches u done) ∧
    ∃ u, exec (.readBlocks start 512) s = .next u ∧ Reaches u { done with bufLen := 0 }

/-- R156, R174, R175: READ_MULTI, and READ_BLOCKS of N ≥ 2 blocks: exactly one CMD18 frame, the N blocks stored in order,
exactly one CMD12 frame, released by its poll. -/
def Obligations.ReadOfManyBlocksSucceeds : Prop :=
  ∀ (s : State) (start : Nat) (m : Cdv) (junk : List Byte) (blocks : List (List Byte × List Byte)) (lead sjunk : List Byte),
    s.accepting → s.ready = true → s.cdv = some m → start * m.toNat < 2 ^ 32 → 2 ≤ blocks.length →
    let a : Arg := BitVec.ofNat 32 (start * m.toNat)
    let sent := s.bus.command 18 a (crcFor s.cfg 18 a)
    let acked := Bus.send (fills (junk.length + 1)) sent
    let received := acked.recvBlocks blocks
    let stopped := received.command 12 0 (crcFor s.cfg 12 0)
    StatusAnswered false [] junk 0 sent → BlocksAnswered s.cfg blocks acked → StatusAnswered true lead sjunk 0 stopped →
    let done := { s with
      cs := false, frame := build 12 0 (crcFor s.cfg 12 0), pollCnt := sjunk.length + 1, resp := .status 0, stack := []
      err := none, result := .success, tok := s.cfg.tokenDataStart
      tokenCnt := blocks.foldl (fun _ x => x.1.length + 1) s.tokenCnt, byteIdx := 512, blkN := blocks.length
      blkIdx := blocks.length, buf := Memory.writeList s.buf 0 (blocks.flatMap (·.2))
      bus := (Bus.send (fills (lead.length + (sjunk.length + 1))) stopped).release }
    (s.blkN = blocks.length → 512 * blocks.length ≤ s.bufLen →
      ∃ u, exec (.readMulti start) s = .next u ∧ Reaches u done) ∧
    ∃ u, exec (.readBlocks start (512 * blocks.length)) s = .next u ∧ Reaches u { done with bufLen := 0 }

/-- R176: READ_CSD: CMD9, sixteen bytes into its own destination, RELEASE; a status other than 0, or none, ends it with
RELEASE and UnsupportedCard (the error is D44's). READY is not a condition (log 23). -/
def Obligations.ReadCsdDeliversSixteenBytes : Prop :=
  ∀ (s : State), s.accepting →
    let c := crcFor s.cfg 9 0
    let sent := s.bus.command 9 0 c
    let failed := fun (r : Response) (polls : Nat) => { s with
      cs := false, frame := build 9 0 c, pollCnt := polls, resp := r, stack := []
      err := some (.unsupportedCard (.csdStatus r)), result := .error (.unsupportedCard (.csdStatus r))
      bus := (Bus.send (fills polls) sent).release }
    (∀ (junk tjunk payload : List Byte), payload.length = 16 → StatusAnswered false [] junk 0 sent →
      let acked := Bus.send (fills (junk.length + 1)) sent
      BlockAnswered s.cfg tjunk payload acked →
      ∃ u, exec .readCsd s = .next u ∧
        Reaches u
          { s with
            cs := false, frame := build 9 0 c, pollCnt := junk.length + 1, resp := .status 0, stack := [], err := none
            result := .success, tok := s.cfg.tokenDataStart, tokenCnt := tjunk.length + 1, byteIdx := 16
            csd := Memory.writeList s.csd 0 payload
            bus := (Bus.send (fills (recvLen tjunk payload)) acked).release }) ∧
    (∀ (junk : List Byte) (f : BitVec 7), f ≠ 0 → StatusAnswered false [] junk f sent →
      ∃ u, exec .readCsd s = .next u ∧ Reaches u (failed (.status f) (junk.length + 1))) ∧
    (NoStatus false sent → ∃ u, exec .readCsd s = .next u ∧ Reaches u (failed .timeout 1000))

/-- R173, R174, R193, R194 step 2, R236: any status but 0 on the command of a bulk operation, or none, ends it with RELEASE
and IOError(command_status): no block is moved, no token and no stop command are sent. -/
def Obligations.CommandStatusErrorEndsTheTransfer : Prop :=
  ∀ (s : State) (start len : Nat) (m : Cdv) (ins : Instr) (i : Index),
    s.accepting → s.ready = true → s.cdv = some m → start * m.toNat < 2 ^ 32 → 0 < len → len % 512 = 0 →
    (ins = .readBlocks start len ∧ i = (if len = 512 then 17 else 18) ∨
      ins = .writeBlocks start len ∧ i = if len = 512 then 24 else 25) →
    let a : Arg := BitVec.ofNat 32 (start * m.toNat)
    let c := crcFor s.cfg i a
    let sent := s.bus.command i a c
    let failed := fun (r : Response) (polls : Nat) => { s with
      cs := false, frame := build i a c, pollCnt := polls, resp := r, stack := [], blkN := len / 512, bufLen := 0
      err := some (.ioError (.commandStatus r)), result := .error (.ioError (.commandStatus r))
      bus := (Bus.send (fills polls) sent).release }
    (∀ (junk : List Byte) (f : BitVec 7), f ≠ 0 → StatusAnswered false [] junk f sent →
      ∃ u, exec ins s = .next u ∧ Reaches u (failed (.status f) (junk.length + 1))) ∧
    (NoStatus false sent → ∃ u, exec ins s = .next u ∧ Reaches u (failed .timeout 1000))

/-- R174 steps 5, 6, R153, R236: a multi-block read whose stop-transmission command is answered with a status other than 0,
or not at all, ends with IOError(stop_status), the blocks stored and the bus released by the poll alone. -/
def Obligations.StopStatusErrorEndsAMultiBlockRead : Prop :=
  ∀ (s : State) (start : Nat) (m : Cdv) (junk : List Byte) (blocks : List (List Byte × List Byte)),
    s.accepting → s.ready = true → s.cdv = some m → start * m.toNat < 2 ^ 32 → 2 ≤ blocks.length →
    let a : Arg := BitVec.ofNat 32 (start * m.toNat)
    let sent := s.bus.command 18 a (crcFor s.cfg 18 a)
    let acked := Bus.send (fills (junk.length + 1)) sent
    let stopped := (acked.recvBlocks blocks).command 12 0 (crcFor s.cfg 12 0)
    StatusAnswered false [] junk 0 sent → BlocksAnswered s.cfg blocks acked →
    let failed := fun (r : Response) (polls exchanges : Nat) => { s with
      cs := false, frame := build 12 0 (crcFor s.cfg 12 0), pollCnt := polls, resp := r, stack := []
      err := some (.ioError (.stopStatus r)), result := .error (.ioError (.stopStatus r))
      tok := s.cfg.tokenDataStart, tokenCnt := blocks.foldl (fun _ x => x.1.length + 1) s.tokenCnt, byteIdx := 512
      blkN := blocks.length, blkIdx := blocks.length, bufLen := 0
      buf := Memory.writeList s.buf 0 (blocks.flatMap (·.2))
      bus := (Bus.send (fills exchanges) stopped).release }
    (∀ (lead sjunk : List Byte) (f : BitVec 7), f ≠ 0 → StatusAnswered true lead sjunk f stopped →
      ∃ u, exec (.readBlocks start (512 * blocks.length)) s = .next u ∧
        Reaches u (failed (.status f) (sjunk.length + 1) (lead.length + (sjunk.length + 1)))) ∧
    (NoStatus true stopped →
      ∃ u, exec (.readBlocks start (512 * blocks.length)) s = .next u ∧ Reaches u (failed .timeout 1000 1001))

/-! ### The write path -/

/-- R191, R236: CHECK_DRESP reads one byte and compares its low five bits; on a mismatch, in any operation, RELEASE and
IOError(data_rejected) and nothing else sent. -/
def Obligations.CheckDrespAcceptsOrAbandons : Prop :=
  (∀ s : State, s.accepting → drespAccepts s.cfg s.bus.answer = true →
    exec .checkDresp s =
      .next { s with
        stack := [], err := none, result := .done, dresp := s.bus.answer, bus := s.bus.xchg 0xFF }) ∧
  (∀ s : State, s.accepting → drespAccepts s.cfg s.bus.answer = false →
    ∃ u, exec .checkDresp s = .next u ∧
      Reaches u
        { s with
          stack := [], err := some (.ioError (.dataRejected s.bus.answer))
          result := .error (.ioError (.dataRejected s.bus.answer)), dresp := s.bus.answer, cs := false
          bus := (s.bus.xchg 0xFF).release }) ∧
  (∀ s : State, s.phase = .dresp → drespAccepts s.cfg s.bus.answer = false →
    Reaches s
      { s with
        phase := .idle, stack := [], op := .none, bufLen := if s.op = .none then s.bufLen else 0
        err := some (.ioError (.dataRejected s.bus.answer))
        result := .error (.ioError (.dataRejected s.bus.answer)), dresp := s.bus.answer, cs := false
        bus := (s.bus.xchg 0xFF).release }) ∧
  ∀ (p : Params) (b : Byte), drespAccepts p b = true ↔ b.extractLsb' 0 5 = p.drespAccept

/-- R89: a busy byte 0x00 means still busy, any non-zero byte ends the wait whatever its value, and the polls send FILL. -/
def Obligations.BusyWaitEndsAtAnyNonZeroByte : Prop :=
  (∀ s : State, s.phase = .busy → s.bus.answer ≠ 0 →
    tick s = .next (ret s.stack { s with busyCnt := s.busyCnt + 1, bus := s.bus.xchg 0xFF })) ∧
  (∀ s : State, s.phase = .busy → s.bus.answer = 0 → busyWithin s.cfg (s.busyCnt + 1) →
    tick s = .next { s with busyCnt := s.busyCnt + 1, bus := s.bus.xchg 0xFF }) ∧
  ∀ (s : State) (n : Nat) (last : Byte), s.accepting → s.cs = true → BusyAnswered s.cfg n last s.bus →
    ∃ u, exec .busyWait s = .next u ∧
      Reaches u
        { s with stack := [], err := none, result := .done, busyCnt := n + 1, bus := Bus.send (fills (n + 1)) s.bus }

/-- R192, R242, R277, U1: with a finite BUSY_BUDGET a card that stays busy costs exactly that many polls, then RELEASE and
IOTimeout(write_completion), which ends any operation whose wait it is, nothing else sent; with none there is
no bound: for every k, after k polls answered busy the wait is in flight. -/
def Obligations.BusyWaitIsBoundedOnlyByItsBudget : Prop :=
  (∀ (s : State) (n : Nat), s.accepting → s.cs = true → 0 < n → s.cfg.busyBudget = some n →
    Bus.answers (fills n) s.bus = List.replicate n 0 →
    ∃ u, exec .busyWait s = .next u ∧
      Reaches u
        { s with
          stack := [], err := some (.ioTimeout .writeCompletion), result := .error (.ioTimeout .writeCompletion), cs := false
          busyCnt := n, bus := (Bus.send (fills n) s.bus).release }) ∧
  (∀ (s : State) (n : Nat), s.phase = .busy → s.cfg.busyBudget = some (s.busyCnt + (n + 1)) →
    Bus.answers (fills (n + 1)) s.bus = List.replicate (n + 1) 0 →
    Reaches s
      { s with
        phase := .idle, stack := [], op := .none, bufLen := if s.op = .none then s.bufLen else 0, cs := false
        err := some (.ioTimeout .writeCompletion), result := .error (.ioTimeout .writeCompletion)
        busyCnt := s.busyCnt + (n + 1), bus := (Bus.send (fills (n + 1)) s.bus).release }) ∧
  ∀ (s : State) (k : Nat), s.phase = .busy → s.cfg.busyBudget = none →
    Bus.answers (fills k) s.bus = List.replicate k 0 →
    ticks k s = .next { s with busyCnt := s.busyCnt + k, bus := Bus.send (fills k) s.bus }

/-- R190: SEND_BLOCK sends the token, the 512 bytes of the buffer from off on and FILL FILL, checks the data response and
waits out the busy bytes; the buffer is only read. -/
def Obligations.SendBlockSendsTheBuffer : Prop :=
  ∀ (s : State) (token : DataToken) (off : Nat) (x : Taken), s.accepting → writeAcknowledged s = true →
    off + 512 ≤ s.bufLen →
    let payload := Memory.readList s.buf off 512
    BlockAccepted s.cfg x.dresp x.busy x.last (Bus.send (blockOut (tokenByte s.cfg token) payload) s.bus) →
    ∃ u, exec (.sendBlock token off) s = .next u ∧
      Reaches u
        { s with
          stack := [], err := none, result := .done, byteIdx := 512, dresp := x.dresp, busyCnt := x.busy + 1
          bus := s.bus.sendBlock (tokenByte s.cfg token) payload x }

/-- R196: SEND_STOP sends the stop-transmission token in one exchange, and the busy-wait starts with the very next one;
there is no response poll and PENDING stays 0. -/
def Obligations.SendStopSendsTheTokenAndWaits : Prop :=
  ∀ (s : State), s.accepting → s.cs = true →
    (0 < s.cfg.busyBudget.getD 1 →
      exec .sendStop s =
        .next { s with
          phase := .busy, stack := [.finish .done], err := none, result := .none, busyCnt := 0
          bus := s.bus.xchg s.cfg.tokenStopTran }) ∧
    ∀ (n : Nat) (last : Byte), BusyAnswered s.cfg n last (s.bus.xchg s.cfg.tokenStopTran) →
      ∃ u, exec .sendStop s = .next u ∧
        Reaches u
          { s with
            stack := [], err := none, result := .done, busyCnt := n + 1
            bus := Bus.send (s.cfg.tokenStopTran :: fills (n + 1)) s.bus }

/-- R193, R195: WRITE_SINGLE, and WRITE_BLOCKS of one block. -/
def Obligations.WriteOfOneBlockSucceeds : Prop :=
  ∀ (s : State) (start : Nat) (m : Cdv) (junk : List Byte) (x : Taken),
    s.accepting → s.ready = true → s.cdv = some m → start * m.toNat < 2 ^ 32 →
    let a : Arg := BitVec.ofNat 32 (start * m.toNat)
    let c := crcFor s.cfg 24 a
    let sent := s.bus.command 24 a c
    let acked := Bus.send (fills (junk.length + 1)) sent
    let payload := Memory.readList s.buf 0 512
    StatusAnswered false [] junk 0 sent →
    BlockAccepted s.cfg x.dresp x.busy x.last (Bus.send (blockOut s.cfg.tokenDataStart payload) acked) →
    let done := { s with
      cs := false, frame := build 24 a c, pollCnt := junk.length + 1, resp := .status 0, stack := [], err := none
      result := .success, byteIdx := 512, dresp := x.dresp, busyCnt := x.busy + 1, blkN := 1
      bus := (acked.sendBlock s.cfg.tokenDataStart payload x).release }
    (s.blkN = 1 → 512 ≤ s.bufLen → ∃ u, exec (.writeSingle start) s = .next u ∧ Reaches u done) ∧
    ∃ u, exec (.writeBlocks start 512) s = .next u ∧ Reaches u { done with bufLen := 0 }

/-- R194, R195: WRITE_MULTI, and WRITE_BLOCKS of N ≥ 2 blocks: one CMD25 frame, the N blocks of the buffer in order with the
multi-write-start token, the stop-transmission token, the final busy-wait, RELEASE. -/
def Obligations.WriteOfManyBlocksSucceeds : Prop :=
  ∀ (s : State) (start : Nat) (m : Cdv) (junk : List Byte) (xs : List Taken) (n : Nat) (last : Byte),
    s.accepting → s.ready = true → s.cdv = some m → start * m.toNat < 2 ^ 32 → 2 ≤ xs.length →
    let a : Arg := BitVec.ofNat 32 (start * m.toNat)
    let c := crcFor s.cfg 25 a
    let sent := s.bus.command 25 a c
    let acked := Bus.send (fills (junk.length + 1)) sent
    let stopped := (acked.sendBlocks s.cfg s.buf 0 xs).xchg s.cfg.tokenStopTran
    StatusAnswered false [] junk 0 sent → BlocksAccepted s.cfg s.buf 0 xs acked → BusyAnswered s.cfg n last stopped →
    let done := { s with
      cs := false, frame := build 25 a c, pollCnt := junk.length + 1, resp := .status 0, stack := [], err := none
      result := .success, byteIdx := 512, dresp := xs.foldl (fun _ x => x.dresp) s.dresp, busyCnt := n + 1
      blkN := xs.length, blkIdx := xs.length
      bus := (Bus.send (fills (n + 1)) stopped).release }
    (s.blkN = xs.length → 512 * xs.length ≤ s.bufLen →
      ∃ u, exec (.writeMulti start) s = .next u ∧ Reaches u done) ∧
    ∃ u, exec (.writeBlocks start (512 * xs.length)) s = .next u ∧ Reaches u { done with bufLen := 0 }

/-! ### The facade and the pure functions -/

/-- R215, R217: BLOCK_COUNT and CONTROL("get-sector-count") return SECTORS and change nothing else; in a state of the
invariant the count is at least 1. -/
def Obligations.FacadeQueriesReturnTheSectorCount : Prop :=
  ∀ (s : State) (n : Nat), s.phase = .idle → s.pending = false → s.ready = true → s.sectors = some n →
    exec .blockCount s = .next { s with result := .count n } ∧
    exec (.control .getSectorCount) s = .next { s with result := .count n } ∧
    (s.Inv → 1 ≤ n)

/-- R216: BLOCK_SIZE is 512 in every state, with no event and no register read or written. -/
def Obligations.BlockSizeIsAlwaysFiveTwelve : Prop :=
  ∀ s : State, exec .blockSize s = .next { s with result := .count 512 }

/-- R126: `classify`, by comparing the whole byte, in the rule's order; the classes under the default flags; the function
as an instruction. -/
def Obligations.ClassifyComparesWholeBytes : Prop :=
  (∀ (p : Params) (f : BitVec 7),
    classifyResponse p .timeout = .noResponse ∧
    (f = 0 → classifyResponse p (.status f) = .readyOk) ∧
    (f ≠ 0 → f = p.flagIdle → classifyResponse p (.status f) = .idleOnly) ∧
    (f ≠ 0 → f ≠ p.flagIdle → f = p.flagIdle ||| p.flagIllegal → classifyResponse p (.status f) = .idleAndIllegal) ∧
    (f ≠ 0 → f ≠ p.flagIdle → f ≠ p.flagIdle ||| p.flagIllegal → classifyResponse p (.status f) = .other f)) ∧
  (∀ (p : Params) (f : BitVec 7), p.flagIdle = 0x01 → p.flagIllegal = 0x04 →
    (classifyResponse p (.status f) = .readyOk ↔ f = 0x00) ∧
    (classifyResponse p (.status f) = .idleOnly ↔ f = 0x01) ∧
    (classifyResponse p (.status f) = .idleAndIllegal ↔ f = 0x05)) ∧
  ∀ (s : State) (r : Response), exec (.classify r) s = .next { s with result := .cls (classifyResponse s.cfg r) }

/-- R122: `crc7_gen` is 0 on zeros and linear over GF(2) on inputs of equal length; the operation on five bytes; the rule's
two examples (the polynomial is G2's). -/
def Obligations.Crc7GeneratorIsLinear : Prop :=
  (∀ xs ys : List Byte, xs.length = ys.length → crc7 (List.zipWith (· ^^^ ·) xs ys) = crc7 xs ^^^ crc7 ys) ∧
  (∀ n, crc7 (List.replicate n 0) = 0) ∧
  (∀ (s : State) (b0 b1 b2 b3 b4 : Byte),
    exec (.crc7Gen b0 b1 b2 b3 b4) s = .next { s with result := .crc (crc7 [b0, b1, b2, b3, b4]) }) ∧
  crc7Of 0 0 = 0x4A ∧ crc7Of 8 0x000001AA = 0x43

/-! ### The boot sequence -/

/-- R260, R262: construction starts from the reset values, the event history empty (parameters, card and host buffer apart), at
INIT_RATE, with CLOCK_IDLE(n): chip-select raised, then n = SETTLE_BYTES fillers. -/
def Obligations.BootClocksTheBusFirst : Prop :=
  ∀ (s : State) (debug : Bool) (rest : List HostCall), s.phase = .idle → s.host = .boot (.start debug) :: rest →
    ∃ u, step s = .next u ∧
      Reaches u
        { State.reset with
          cfg := s.cfg, debug := debug, buf := s.buf, busRate := s.cfg.initRate, host := .boot .clocked :: rest
          result := .done
          bus := Bus.send (fills s.cfg.settle) (Bus.note .deassert { s.bus with hist := [] }) }

/-- R231, R263: after the bus clocking the first attempt is CMD(0, 0); go-idle succeeds when the response is exactly the
idle-state flag; any other response, the sentinel included, is a failed attempt; the fifth failed attempt is NoCard and
nothing further is sent. -/
def Obligations.GoIdleIsTriedAtMostFiveTimes : Prop :=
  ∀ (s : State) (attempt : Nat),
    bootStep .clocked s = exec (.cmd 0 0 0 true false) { s with host := .boot (.idleTried 1) :: s.host } ∧
    (s.cfg.flagIdle ≠ 0 → s.resp = .status s.cfg.flagIdle →
      bootStep (.idleTried attempt) s =
        exec (.cmd 8 s.cfg.ifcondArg.toNat 4 true false) { s with host := .boot .probed :: s.host }) ∧
    (s.resp ≠ .status s.cfg.flagIdle → attempt < 5 →
      bootStep (.idleTried attempt) s =
        exec (.cmd 0 0 0 true false) { s with host := .boot (.idleTried (attempt + 1)) :: s.host }) ∧
    (s.resp ≠ .status s.cfg.flagIdle → 5 ≤ attempt →
      bootStep (.idleTried attempt) s =
        .next { s with
          err := some .noCard, result := .error .noCard, ver := none, cdv := none, sectors := none, ready := false, csd := [] })

/-- R264: the interface-condition probe: exactly the idle flag is generation 2, idle and illegal generation 1, anything
else UnsupportedCard. -/
def Obligations.ProbeSelectsTheGeneration : Prop :=
  ∀ (s : State), s.cfg.wf = true →
    (s.resp = .status s.cfg.flagIdle →
      bootStep .probed s =
        exec (.cmd 58 0 4 true false) { s with ver := some .gen2, host := .boot (.gen2OcrRead 1) :: s.host }) ∧
    (s.resp = .status (s.cfg.flagIdle ||| s.cfg.flagIllegal) →
      bootStep .probed s =
        exec (.cmd 55 0 0 true false) { s with ver := some .gen1, host := .boot (.gen1Announced 1) :: s.host }) ∧
    (s.resp ≠ .status s.cfg.flagIdle → s.resp ≠ .status (s.cfg.flagIdle ||| s.cfg.flagIllegal) →
      bootStep .probed s =
        .next { s with
          err := some (.unsupportedCard (.ifcondStatus s.resp))
          result := .error (.unsupportedCard (.ifcondStatus s.resp))
          ver := none, cdv := none, sectors := none, ready := false, csd := [] })

/-- R265, R266: the negotiation loops: status 0 sets CDV (512 or, after one more CMD58, 1) and goes on to the capacity
register; any other status iterates, at most INIT_BUDGET times (1000, D44), then InitTimeout of the branch. -/
def Obligations.NegotiationLoopsAreBounded : Prop :=
  ∀ (s : State) (n : Nat),
    (s.resp = .status 0 →
      bootStep (.gen1Polled n) s =
        exec .readCsd { s with cdv := some .byteAddressed, host := .boot .csdRead :: s.host } ∧
      bootStep (.gen2Polled n) s = exec (.cmd 58 0 4 true false) { s with host := .boot .gen2Reread :: s.host }) ∧
    bootStep .gen2Reread s =
      exec .readCsd { s with cdv := some .sectorAddressed, host := .boot .csdRead :: s.host } ∧
    bootStep (.gen1Announced n) s =
      exec (.cmd 41 s.cfg.opcondArgG1.toNat 0 true false) { s with host := .boot (.gen1Polled n) :: s.host } ∧
    bootStep (.gen2OcrRead n) s = exec (.cmd 55 0 0 true false) { s with host := .boot (.gen2Announced n) :: s.host } ∧
    bootStep (.gen2Announced n) s =
      exec (.cmd 41 s.cfg.opcondArgG2.toNat 0 true false) { s with host := .boot (.gen2Polled n) :: s.host } ∧
    (s.resp ≠ .status 0 → n < 1000 →
      bootStep (.gen1Polled n) s =
        exec (.cmd 55 0 0 true false) { s with host := .boot (.gen1Announced (n + 1)) :: s.host } ∧
      bootStep (.gen2Polled n) s =
        exec (.cmd 58 0 4 true false) { s with host := .boot (.gen2OcrRead (n + 1)) :: s.host }) ∧
    (s.resp ≠ .status 0 → 1000 ≤ n →
      let failed := fun (e : BlockError) => { s with
        err := some e, result := .error e, ver := none, cdv := none, sectors := none, ready := false, csd := [] }
      bootStep (.gen1Polled n) s = .next (failed (.initTimeout .gen1)) ∧
      bootStep (.gen2Polled n) s = .next (failed (.initTimeout .gen2)))

/-- R271: every CMD of the boot sequence is polled with release and READ_CSD releases on each of its paths: from a
released bus, or after the bus clocking, whatever the card has answered, a boot step ends with the bus released. -/
def Obligations.BootStepsLeaveTheBusReleased : Prop :=
  ∀ (s u t : State) (b : Boot) (k : Nat), (∀ debug, b ≠ .start debug) → s.busIdle ∨ b = .clocked ∧ s.accepting →
    bootStep b s = .next u → ticks k u = .next t → t.phase = .idle → t.busIdle

/-- R268: the capacity arithmetic by the version bits (the version-1 bit positions are G11's), and its ranges: the count is
never zero. -/
def Obligations.CapacityArithmetic : Prop :=
  ∀ csd : List Byte, csd.length = 16 →
    (csdVersion csd = 0b01 →
      csdSectors csd = some (((csd.getD 8 0).toNat * 256 + (csd.getD 9 0).toNat + 1) * 1024)) ∧
    (csdVersion csd = 0b00 →
      csdSectors csd = some (((csd.getD 6 0).toNat % 4 * 1024 + (csd.getD 7 0).toNat * 4 + (csd.getD 8 0).toNat / 64 + 1) *
        2 ^ ((csd.getD 9 0).toNat % 4 * 2 + (csd.getD 10 0).toNat / 128 + 2))) ∧
    (csdVersion csd = 0b10 ∨ csdVersion csd = 0b11 → csdSectors csd = none) ∧
    ∀ n, csdSectors csd = some n →
      4 ≤ n ∧ n ≤ 67108864 ∧ (csdVersion csd = 0b01 → 1024 ≤ n) ∧ (csdVersion csd = 0b00 → n ≤ 2097152)

/-- R267 to R271, R232: after READ_CSD the parse sets SECTORS and CMD16(512) is issued; its status 0 raises the rate to
RUN_RATE and READY to 1. READ_CSD's own error, a capacity register of another layout (UnsupportedCard) and any other answer
to CMD16 (BlockLengthError) end the construction, nothing further sent and no session register left. -/
def Obligations.ReadyOnlyAfterTheBlockLengthIsAccepted : Prop :=
  (∀ (s : State) n, s.err = none → csdSectors (Memory.readList s.csd 0 16) = some n →
    bootStep .csdRead s =
      exec (.cmd 16 512 0 true false) { s with sectors := some n, csd := [], host := .boot .blockLenSent :: s.host }) ∧
  (∀ s : State, s.resp = .status 0 →
    bootStep .blockLenSent s = .next { s with busRate := s.cfg.runRate, ready := true, result := .done }) ∧
  (∀ s : State,
    let failed := fun (e : BlockError) => { s with
      err := some e, result := .error e, ver := none, cdv := none, sectors := none, ready := false, csd := [] }
    (∀ e, s.err = some e → bootStep .csdRead s = .next (failed e)) ∧
    (s.err = none → csdSectors (Memory.readList s.csd 0 16) = none →
      bootStep .csdRead s = .next (failed (.unsupportedCard (.csdVersion (csdVersion (Memory.readList s.csd 0 16)))))) ∧
    (s.resp ≠ .status 0 → bootStep .blockLenSent s = .next (failed (.blockLengthError s.resp)))) ∧
  ∀ s t : State, step s = .next t → s.ready = false → t.ready = true →
    ∃ rest, s.host = .boot .blockLenSent :: rest ∧ s.phase = .idle ∧ s.resp = .status 0
end

