-- ==== Sys2Proof/Laws/Decode.lean ====
section
/-! SUPPORT. The decoder on what the encoder writes: the fields of a frame read back, frames reassemble from their bytes, and
each single-byte and block format decodes to the instruction it was written from. -/

namespace Sys2Proof

/-! ### Frames -/

theorem frameIndex_build (i : Index) (a : Arg) (c : Crc7) : frameIndex (build i a c) = i := by
  ext k hk
  simp only [frameIndex, build, BitVec.getElem_extractLsb', BitVec.getLsbD_append]
  interval_cases k <;> simp

theorem frameArgument_build (i : Index) (a : Arg) (c : Crc7) : frameArgument (build i a c) = a := by
  ext k hk
  simp only [frameArgument, build, BitVec.getElem_extractLsb', BitVec.getLsbD_append]
  interval_cases k <;> simp

theorem frameCrc_build (i : Index) (a : Arg) (c : Crc7) : frameCrc (build i a c) = c := by
  ext k hk
  simp only [frameCrc, build, BitVec.getElem_extractLsb', BitVec.getLsbD_append]
  interval_cases k <;> simp

theorem frameFixedOk_build (i : Index) (a : Arg) (c : Crc7) : frameFixedOk (build i a c) = true := by
  have h1 : (build i a c).extractLsb' 46 2 = 0b01#2 := by
    ext k hk
    simp only [build, BitVec.getElem_extractLsb', BitVec.getLsbD_append]
    interval_cases k <;> simp
  have h2 : (build i a c).extractLsb' 0 1 = 1#1 := by
    ext k hk
    simp only [build, BitVec.getElem_extractLsb', BitVec.getLsbD_append]
    interval_cases k; simp
  simp [frameFixedOk, h1, h2]

/-- A frame with the right fixed bits is the one built from its fields. -/
theorem eq_build {f : Frame} (h : frameFixedOk f = true) : f = build (frameIndex f) (frameArgument f) (frameCrc f) := by
  obtain ⟨h1, h2⟩ : f.extractLsb' 46 2 = 0b01#2 ∧ f.extractLsb' 0 1 = 1#1 := by simpa [frameFixedOk] using h
  have b46 := congrArg (fun v => v.getLsbD 0) h1
  have b47 := congrArg (fun v => v.getLsbD 1) h1
  have b0 := congrArg (fun v => v.getLsbD 0) h2
  ext k hk
  rw [← BitVec.getLsbD_eq_getElem, ← BitVec.getLsbD_eq_getElem]
  simp only [frameIndex, frameArgument, frameCrc, build, BitVec.getLsbD_append, BitVec.getLsbD_extractLsb'] at b46 b47 b0 ⊢
  interval_cases k <;> simp_all

/-- The six bytes of a frame put together again. -/
theorem frameBytes_join (f : Frame) :
    frameByte f 0 ++ frameByte f 1 ++ frameByte f 2 ++ frameByte f 3 ++ frameByte f 4 ++ frameByte f 5 = f := by
  ext k hk
  simp only [frameByte, BitVec.getElem_append, BitVec.getElem_extractLsb']
  interval_cases k <;> simp [← BitVec.getLsbD_eq_getElem]

theorem decodeFrameBytes_frameBytes (f : Frame) : decodeFrameBytes (frameBytes f) = decodeFrame f := by
  simp only [decodeFrameBytes, frameBytes, frameBytes_join]

/-- What the decoder makes of any frame `build` yields. -/
theorem decodeFrame_build (i : Index) (a : Arg) (c : Crc7) :
    decodeFrame (build i a c) =
      if i = 0 then .ok (.cmd0 a c)
      else if i = 8 then .ok (.cmd8 a c)
      else if i = 9 then .ok (.cmd9 a c)
      else if i = 12 then .ok (.cmd12 a c)
      else if i = 16 then .ok (.cmd16 a c)
      else if i = 17 then .ok (.cmd17 a c)
      else if i = 18 then .ok (.cmd18 a c)
      else if i = 24 then .ok (.cmd24 a c)
      else if i = 25 then .ok (.cmd25 a c)
      else if i = 41 then .ok (.acmd41 a c)
      else if i = 55 then .ok (.cmd55 a c)
      else if i = 58 then .ok (.cmd58 a c)
      else .ok (.cfAny i a c) := by
  simp [decodeFrame, frameFixedOk_build, frameIndex_build, frameArgument_build, frameCrc_build]

/-! ### Table words -/

theorem decodeFirst_one (p : Params) (bs : List Byte) (sl : Slot) :
    decodeFirst p bs [sl] = (decodeAt p sl bs).toOption := by
  unfold decodeFirst
  cases decodeAt p sl bs <;> rfl

theorem tableBytes_frame (f : Frame) : tableBytes 6 f.toNat = frameBytes f := by
  simp only [tableBytes, frameBytes, frameByte, List.cons.injEq, and_true]
  refine ⟨?_, ?_, ?_, ?_, ?_, ?_⟩ <;>
  · apply BitVec.eq_of_toNat_eq
    simp [BitVec.extractLsb'_toNat, Nat.shiftRight_eq_div_pow]

/-- A 48-bit word is a frame, whatever the parameters. -/
theorem decodeWord_frame (p : Params) (f : Frame) : decodeWord p 48 f.toNat = (decodeFrame f).toOption := by
  have h : f.toNat < 2 ^ 48 := f.isLt
  unfold decodeWord
  rw [if_pos rfl, if_pos h, tableBytes_frame, decodeFirst_one, decodeAt, decodeFrameBytes_frameBytes]

/-! ### Single bytes and responses -/

theorem decodePolled_statusByte (f : BitVec 7) : decodePolled (statusByte f) = .r1 f := by revert f; decide
theorem decodePolled_notStatusByte (x : BitVec 7) : decodePolled (notStatusByte x) = .notStatus x := by revert x; decide
theorem drespByte_fields (x : BitVec 3) (a : BitVec 5) :
    (drespByte x a).extractLsb' 0 5 = a ∧ (drespByte x a).extractLsb' 5 3 = x := by revert x a; decide

theorem decodeDresp_drespByte (p : Params) (x : BitVec 3) :
    decodeDresp p (drespByte x p.drespAccept) = .ok (.drespAccepted x) := by
  simp [decodeDresp, drespByte_fields]

/-- R85: the tokens of legal parameters are pairwise distinct. -/
theorem tokens_distinct {p : Params} (h : p.wf = true) :
    p.tokenMultiWrite ≠ p.tokenDataStart ∧ p.tokenStopTran ≠ p.tokenDataStart ∧ p.tokenStopTran ≠ p.tokenMultiWrite := by
  simp only [Params.wf, Bool.and_eq_true, bne_iff_ne, ne_eq] at h
  tauto

theorem tailBytes_join (x : BitVec 32) :
    x.extractLsb' 24 8 ++ x.extractLsb' 16 8 ++ x.extractLsb' 8 8 ++ x.extractLsb' 0 8 = x := by
  ext k hk
  simp only [BitVec.getElem_append, BitVec.getElem_extractLsb']
  interval_cases k <;> simp [← BitVec.getLsbD_eq_getElem]

theorem statusByte_fields (f : BitVec 7) :
    (statusByte f).extractLsb' 7 1 = 0#1 ∧ (statusByte f).extractLsb' 0 7 = f := by revert f; decide

theorem decodeStatusTail_bytes (f : BitVec 7) (x : BitVec 32) :
    decodeStatusTail (statusByte f :: tailBytes x) = .ok (.r1Tail f x) := by
  simp only [tailBytes, decodeStatusTail, (statusByte_fields f).1, (statusByte_fields f).2, tailBytes_join, if_true]

/-! ### Blocks -/

theorem decodeBlockBody_bytes (seen payload : List Byte) (c0 c1 : Byte) :
    decodeBlockBody payload.length seen (payload ++ [c0, c1]) = .ok (.dblkR seen payload c0 c1) := by
  simp [decodeBlockBody]

theorem decodeBlockIn_bytes (p : Params) (skipped payload : List Byte) (c0 c1 : Byte) :
    ∀ seen : List Byte, p.tokenDataStart ∉ skipped →
      decodeBlockIn p payload.length (blockInBytes p skipped payload c0 c1) seen
        = .ok (.dblkR (seen.reverse ++ skipped) payload c0 c1) := by
  induction skipped with
  | nil =>
    intro seen _
    rw [blockInBytes, List.nil_append, decodeBlockIn, if_pos rfl, decodeBlockBody_bytes, List.append_nil]
  | cons y rest ih =>
    intro seen h
    obtain ⟨hy, hrest⟩ : p.tokenDataStart ≠ y ∧ p.tokenDataStart ∉ rest := by simpa using h
    rw [blockInBytes, List.cons_append, decodeBlockIn, if_neg (Ne.symm hy), ← blockInBytes, ih (y :: seen) hrest]
    simp

theorem decodeBlockOutBody_bytes (t : DataToken) (payload : List Byte) (h : payload.length = Config.blockSize) :
    decodeBlockOutBody t (payload ++ [Config.fill, Config.fill]) = .ok (.dblkW t payload) := by
  unfold decodeBlockOutBody
  rw [← h, List.drop_left, List.take_left]
  simp

end Sys2Proof
end

