-- ==== Sys2Proof/Laws/State.lean ====
section
/-! SUPPORT. The small lemmas of the state's updates: what each named operation does to each field it is about, by rfl. -/

namespace Sys2Proof.Machine

@[simp] theorem answer_eq (s : State) : answer s = s.bus.answer := rfl
@[simp] theorem xchg_eq (o : Byte) (s : State) : xchg o s = { s with bus := s.bus.xchg o } := rfl
@[simp] theorem csAssert_eq (s : State) : csAssert s = { s with cs := true, bus := s.bus.note .assert } := rfl
@[simp] theorem csDeassert_eq (s : State) : csDeassert s = { s with cs := false, bus := s.bus.note .deassert } := rfl
@[simp] theorem started_eq (s : State) : started s = { s with err := none, result := .none } := rfl
@[simp] theorem setClockRate_eq (hz : Nat) (s : State) : setClockRate hz s = { s with busRate := hz } := rfl
@[simp] theorem sleep_eq (ms : Nat) (s : State) : sleep ms s = s := rfl
@[simp] theorem present_eq (bs : List Byte) (s : State) :
    present bs s = { s with bus := { s.bus with cardIn := bs ++ s.bus.cardIn } } := rfl
@[simp] theorem lineUp_eq (bs : List Byte) (s : State) :
    lineUp bs s = { s with bus := { s.bus with cardIn := s.bus.cardIn ++ bs } } := rfl

@[simp] theorem enterRelease_eq (ks : List Cont) (s : State) :
    enterRelease ks s = { s with phase := .deassert .release 1, stack := ks } := rfl
@[simp] theorem fail_eq (e : BlockError) (s : State) :
    fail e s = { s with phase := .deassert .release 1, stack := [.raise e] } := rfl
@[simp] theorem enterSend_eq (i : Index) (a : Arg) (c : Crc7) (ks : List Cont) (s : State) :
    enterSend i a c ks s = { s with phase := .assert i a c, stack := ks } := rfl
@[simp] theorem enterAwait_eq (e : Nat) (r k : Bool) (ks : List Cont) (s : State) :
    enterAwait e r k ks s =
      { s with pending := false, pollCnt := 0, phase := if k then .skipLead e r else .poll e r, stack := ks } := rfl
@[simp] theorem enterCmd_eq (i : Index) (a : Arg) (e : Nat) (r k : Bool) (ks : List Cont) (s : State) :
    enterCmd i a e r k ks s =
      { s with phase := .assert i a (crcFor s.cfg i a), stack := .await e r k :: ks } := rfl
@[simp] theorem enterSendBlock_eq (t : DataToken) (off : Nat) (ks : List Cont) (s : State) :
    enterSendBlock t off ks s =
      { s with phase := .tx (tokenByte s.cfg t), stack := .sendPayload off :: .checkDresp :: .busyWait :: ks } := rfl

@[simp] theorem endOperation_phase (s : State) : (endOperation s).phase = .idle := rfl
@[simp] theorem endOperation_op (s : State) : (endOperation s).op = .none := rfl
@[simp] theorem endOperation_stack (s : State) : (endOperation s).stack = [] := rfl
@[simp] theorem endOperation_bus (s : State) : (endOperation s).bus = s.bus := rfl
@[simp] theorem endOperation_cs (s : State) : (endOperation s).cs = s.cs := rfl
@[simp] theorem endOperation_pending (s : State) : (endOperation s).pending = s.pending := rfl
@[simp] theorem raise_err (e : BlockError) (s : State) : (raise e s).err = some e := rfl
@[simp] theorem raise_result (e : BlockError) (s : State) : (raise e s).result = .error e := rfl
@[simp] theorem raise_phase (e : BlockError) (s : State) : (raise e s).phase = .idle := rfl
@[simp] theorem raise_op (e : BlockError) (s : State) : (raise e s).op = .none := rfl
@[simp] theorem finish_phase (v : Ret) (s : State) : (finish v s).phase = .idle := rfl
@[simp] theorem finish_op (v : Ret) (s : State) : (finish v s).op = .none := rfl
@[simp] theorem finish_result (v : Ret) (s : State) : (finish v s).result = v.result s := rfl

/-- With no bulk operation in flight the end of an operation only makes the sequencer idle. -/
theorem endOperation_of_no_bulk {s : State} (h : s.op = .none) :
    endOperation s = { s with phase := .idle, stack := [] } := by
  cases s; simp_all [endOperation]

theorem finish_of_no_bulk {s : State} (h : s.op = .none) (v : Ret) :
    finish v s = { s with phase := .idle, stack := [], result := v.result s } := by
  simp [finish, endOperation_of_no_bulk h]

/-! ### The destinations of a received payload -/

@[simp] theorem Dest.len_host (n : Nat) : Dest.len n .host = n := rfl
@[simp] theorem Dest.len_csd (n : Nat) : Dest.len n .csd = Config.csdLen := rfl
@[simp] theorem Dest.bytes_host (s : State) : Dest.bytes s .host = s.buf := rfl
@[simp] theorem Dest.bytes_csd (s : State) : Dest.bytes s .csd = s.csd := rfl
@[simp] theorem Dest.put_into_host (m : List Host.Cell) (s : State) : Dest.put m s .host = { s with buf := m } := rfl
@[simp] theorem Dest.put_into_csd (m : List Host.Cell) (s : State) : Dest.put m s .csd = { s with csd := m } := rfl

section
variable (m : List Host.Cell) (s : State) (d : Dest)

@[simp] theorem Dest.put_cfg : (d.put m s).cfg = s.cfg := rfl
@[simp] theorem Dest.put_cs : (d.put m s).cs = s.cs := rfl
@[simp] theorem Dest.put_frame : (d.put m s).frame = s.frame := rfl
@[simp] theorem Dest.put_resp : (d.put m s).resp = s.resp := rfl
@[simp] theorem Dest.put_pending : (d.put m s).pending = s.pending := rfl
@[simp] theorem Dest.put_pollCnt : (d.put m s).pollCnt = s.pollCnt := rfl
@[simp] theorem Dest.put_op : (d.put m s).op = s.op := rfl
@[simp] theorem Dest.put_blkN : (d.put m s).blkN = s.blkN := rfl
@[simp] theorem Dest.put_blkIdx : (d.put m s).blkIdx = s.blkIdx := rfl
@[simp] theorem Dest.put_byteIdx : (d.put m s).byteIdx = s.byteIdx := rfl
@[simp] theorem Dest.put_tok : (d.put m s).tok = s.tok := rfl
@[simp] theorem Dest.put_dresp : (d.put m s).dresp = s.dresp := rfl
@[simp] theorem Dest.put_tokenCnt : (d.put m s).tokenCnt = s.tokenCnt := rfl
@[simp] theorem Dest.put_busyCnt : (d.put m s).busyCnt = s.busyCnt := rfl
@[simp] theorem Dest.put_err : (d.put m s).err = s.err := rfl
@[simp] theorem Dest.put_ver : (d.put m s).ver = s.ver := rfl
@[simp] theorem Dest.put_cdv : (d.put m s).cdv = s.cdv := rfl
@[simp] theorem Dest.put_sectors : (d.put m s).sectors = s.sectors := rfl
@[simp] theorem Dest.put_busRate : (d.put m s).busRate = s.busRate := rfl
@[simp] theorem Dest.put_debug : (d.put m s).debug = s.debug := rfl
@[simp] theorem Dest.put_ready : (d.put m s).ready = s.ready := rfl
@[simp] theorem Dest.put_phase : (d.put m s).phase = s.phase := rfl
@[simp] theorem Dest.put_stack : (d.put m s).stack = s.stack := rfl
@[simp] theorem Dest.put_bufLen : (d.put m s).bufLen = s.bufLen := rfl
@[simp] theorem Dest.put_bus : (d.put m s).bus = s.bus := rfl
@[simp] theorem Dest.put_host : (d.put m s).host = s.host := rfl
@[simp] theorem Dest.put_result : (d.put m s).result = s.result := rfl

end

/-! ### The bus -/

@[simp] theorem Bus.note_hist (e : BusEvent) (b : Bus) : (b.note e).hist = e :: b.hist := rfl
@[simp] theorem Bus.note_cardIn (e : BusEvent) (b : Bus) : (b.note e).cardIn = b.cardIn := rfl
@[simp] theorem Bus.xchg_hist (o : Byte) (b : Bus) : (b.xchg o).hist = .xchg o b.answer :: b.hist := by
  unfold Bus.xchg; split <;> rfl
@[simp] theorem Bus.xchg_cardIn (o : Byte) (b : Bus) : (b.xchg o).cardIn = b.cardIn.tail := by
  unfold Bus.xchg; split <;> simp_all
theorem Bus.answer_of_cons {b : Bus} {x : Byte} {l : List Byte} (h : b.cardIn = x :: l) : b.answer = x := by
  simp [Bus.answer, h]
@[simp] theorem Bus.send_nil (b : Bus) : Bus.send [] b = b := rfl
@[simp] theorem Bus.send_cons (o : Byte) (os : List Byte) (b : Bus) : Bus.send (o :: os) b = Bus.send os (b.xchg o) := rfl
theorem Bus.send_append (xs ys : List Byte) (b : Bus) : Bus.send (xs ++ ys) b = Bus.send ys (Bus.send xs b) := by
  induction xs generalizing b with
  | nil => rfl
  | cons x xs ih => exact ih _
@[simp] theorem Bus.answers_length (os : List Byte) (b : Bus) : (Bus.answers os b).length = os.length := by
  induction os generalizing b with
  | nil => rfl
  | cons o os ih => simp [Bus.answers, ih]
@[simp] theorem Bus.send_cardIn (os : List Byte) (b : Bus) : (Bus.send os b).cardIn = b.cardIn.drop os.length := by
  induction os generalizing b with
  | nil => rfl
  | cons o os ih => simp [ih]

/-- The events of sending `os`, oldest first. -/
theorem Bus.send_hist (os : List Byte) (b : Bus) :
    (Bus.send os b).hist = (List.zipWith BusEvent.xchg os (Bus.answers os b)).reverse ++ b.hist := by
  induction os generalizing b with
  | nil => rfl
  | cons o os ih => simp [Bus.answers, ih]

/-! ### What follows an exchange: one equation for each way it can go -/

theorem afterFrameByte_more {k : Nat} {s : State} (h : k + 1 < Config.frameLen) :
    afterFrameByte k s = { s with phase := .frame (k + 1) } := by simp [afterFrameByte, h]

theorem afterFrameByte_last {k : Nat} {s : State} (h : ¬ k + 1 < Config.frameLen) :
    afterFrameByte k s = ret s.stack { s with pending := true } := by simp [afterFrameByte, h]

theorem afterPoll_status {e : Nat} {r : Bool} {b : Byte} {s : State} (h : isStatusByte b = true) :
    afterPoll e r b s =
      ret (.fill .drain e :: .releaseIf r :: s.stack)
        { s with pollCnt := s.pollCnt + 1, resp := .status (statusBits b) } := by simp [afterPoll, h]

theorem afterPoll_last {e : Nat} {r : Bool} {b : Byte} {s : State} (h : isStatusByte b = false)
    (hn : s.pollCnt + 1 = Config.respBudget) :
    afterPoll e r b s =
      ret (.releaseIf r :: s.stack) { s with pollCnt := Config.respBudget, resp := .timeout } := by
  simp [afterPoll, h, hn]

theorem afterPoll_more {e : Nat} {r : Bool} {b : Byte} {s : State} (h : isStatusByte b = false)
    (hn : s.pollCnt + 1 ≠ Config.respBudget) :
    afterPoll e r b s = { s with pollCnt := s.pollCnt + 1 } := by simp [afterPoll, h, hn]

theorem afterToken_found {s : State} :
    afterToken s.cfg.tokenDataStart s =
      ret s.stack { s with tok := s.cfg.tokenDataStart, tokenCnt := s.tokenCnt + 1 } := by simp [afterToken]

theorem afterToken_last {b : Byte} {s : State} (h : b ≠ s.cfg.tokenDataStart) (hn : s.tokenCnt + 1 = s.cfg.tokenBudget) :
    afterToken b s = fail (.ioTimeout .waitingForData) { s with tok := b, tokenCnt := s.cfg.tokenBudget } := by
  simp [afterToken, h, hn]

theorem afterToken_more {b : Byte} {s : State} (h : b ≠ s.cfg.tokenDataStart) (hn : s.tokenCnt + 1 ≠ s.cfg.tokenBudget) :
    afterToken b s = { s with tok := b, tokenCnt := s.tokenCnt + 1 } := by simp [afterToken, h, hn]

theorem afterRecv_more {n : Nat} {s : State} (h : s.byteIdx + 1 < n) :
    afterRecv n s = { s with byteIdx := s.byteIdx + 1 } := by simp [afterRecv, h]

theorem afterRecv_last {n : Nat} {s : State} (h : s.byteIdx + 1 = n) :
    afterRecv n s = ret (.fill .checksumIn 2 :: s.stack) { s with byteIdx := n } := by simp [afterRecv, h]

theorem afterSend_more {s : State} (h : s.byteIdx + 1 < Config.blockSize) :
    afterSend s = { s with byteIdx := s.byteIdx + 1 } := by simp [afterSend, h]

theorem afterSend_last {s : State} (h : s.byteIdx + 1 = Config.blockSize) :
    afterSend s = ret (.fill .checksumOut 2 :: s.stack) { s with byteIdx := Config.blockSize } := by
  simp [afterSend, h]

theorem afterDresp_accepted {b : Byte} {s : State} (h : drespAccepts s.cfg b = true) :
    afterDresp b s = ret s.stack { s with dresp := b } := by simp [afterDresp, h]

theorem afterDresp_rejected {b : Byte} {s : State} (h : drespAccepts s.cfg b = false) :
    afterDresp b s = fail (.ioError (.dataRejected b)) { s with dresp := b } := by simp [afterDresp, h]

theorem afterBusy_done {b : Byte} {s : State} (h : b ≠ 0) :
    afterBusy b s = ret s.stack { s with busyCnt := s.busyCnt + 1 } := by unfold afterBusy; dsimp only; rw [if_pos h]

theorem afterBusy_last {s : State} (h : busyBudgetSpent s.cfg (s.busyCnt + 1) = true) :
    afterBusy 0 s = fail (.ioTimeout .writeCompletion) { s with busyCnt := s.busyCnt + 1 } := by simp [afterBusy, h]

theorem afterBusy_more {s : State} (h : busyBudgetSpent s.cfg (s.busyCnt + 1) = false) :
    afterBusy 0 s = { s with busyCnt := s.busyCnt + 1 } := by simp [afterBusy, h]

/-! ### One tick at each phase -/

theorem tick_assert {s : State} {i : Index} {a : Arg} {c : Crc7} (h : s.phase = .assert i a c) :
    tick s = .next { s with cs := true, bus := s.bus.note .assert, frame := build i a c, phase := .frame 0 } := by
  simp [tick, h]

theorem tick_frame {s : State} {k : Nat} (h : s.phase = .frame k) :
    tick s = .next (afterFrameByte k { s with bus := s.bus.xchg (frameByte s.frame k) }) := by simp [tick, h]

theorem tick_skipLead {s : State} {e : Nat} {r : Bool} (h : s.phase = .skipLead e r) :
    tick s = .next { s with bus := s.bus.xchg Config.fill, phase := .poll e r } := by simp [tick, h]

theorem tick_poll {s : State} {e : Nat} {r : Bool} (h : s.phase = .poll e r) :
    tick s = .next (afterPoll e r s.bus.answer { s with bus := s.bus.xchg Config.fill }) := by simp [tick, h]

theorem tick_deassert {s : State} {w : FillWhy} {n : Nat} (h : s.phase = .deassert w n) :
    tick s = .next (ret (.fill w n :: s.stack) { s with cs := false, bus := s.bus.note .deassert }) := by
  simp [tick, h]

theorem tick_fill {s : State} {w : FillWhy} {n : Nat} (h : s.phase = .fill w n) :
    tick s = .next (ret (.fill w (n - 1) :: s.stack) { s with bus := s.bus.xchg Config.fill }) := by simp [tick, h]

theorem tick_tx {s : State} {b : Byte} (h : s.phase = .tx b) :
    tick s = .next (ret s.stack { s with bus := s.bus.xchg b }) := by simp [tick, h]

theorem tick_token {s : State} (h : s.phase = .token) :
    tick s = .next (afterToken s.bus.answer { s with bus := s.bus.xchg Config.fill }) := by simp [tick, h]

theorem tick_recv {s : State} {d : Dest} {off n : Nat} (h : s.phase = .recv d off n) (hb : off + s.byteIdx < d.len s.bufLen) :
    tick s = .next (afterRecv n
      (d.put (Memory.write (d.bytes s) (off + s.byteIdx) s.bus.answer) { s with bus := s.bus.xchg Config.fill })) := by
  simp [tick, h, hb]

theorem tick_send {s : State} {off : Nat} (h : s.phase = .send off) (hb : off + s.byteIdx < s.bufLen) :
    tick s = .next (afterSend { s with bus := s.bus.xchg (Memory.read s.buf (off + s.byteIdx)) }) := by
  simp [tick, h, hb]

theorem tick_dresp {s : State} (h : s.phase = .dresp) :
    tick s = .next (afterDresp s.bus.answer { s with bus := s.bus.xchg Config.fill }) := by simp [tick, h]

theorem tick_busy {s : State} (h : s.phase = .busy) :
    tick s = .next (afterBusy s.bus.answer { s with bus := s.bus.xchg Config.fill }) := by simp [tick, h]

/-! ### The buffer test of the operations issued alone -/

theorem withBuffer_fits {top : Nat} {s : State} (h : top ≤ s.bufLen) (o : Out) : withBuffer top s o = o := if_pos h

theorem withBuffer_short {top : Nat} {s : State} (h : s.bufLen < top) (o : Out) :
    withBuffer top s o = .refused .bufferTooShort := if_neg (by omega)

/-- A next state comes only with a buffer that has the bytes. -/
theorem withBuffer_next {top : Nat} {s t : State} {o : Out} (h : withBuffer top s o = .next t) :
    top ≤ s.bufLen ∧ o = .next t := by
  unfold withBuffer at h
  split at h
  · exact ⟨by assumption, h⟩
  · cases h

end Sys2Proof.Machine
end

