-- ==== Sys2Proof/Laws/Ops.lean ====
section
/-! SUPPORT. What the shared operations can do, said once: the fields a return leaves alone, how it leaves the sequencer,
what one tick can do, and the bulk flow. -/

namespace Sys2Proof.Machine

/-- The fields that no return point touches. -/
structure SameBeyondControl (s t : State) : Prop where
  cfg : t.cfg = s.cfg
  cs : t.cs = s.cs
  frame : t.frame = s.frame
  resp : t.resp = s.resp
  blkN : t.blkN = s.blkN
  tok : t.tok = s.tok
  dresp : t.dresp = s.dresp
  ver : t.ver = s.ver
  cdv : t.cdv = s.cdv
  sectors : t.sectors = s.sectors
  busRate : t.busRate = s.busRate
  debug : t.debug = s.debug
  ready : t.ready = s.ready
  buf : t.buf = s.buf
  csd : t.csd = s.csd
  bus : t.bus = s.bus
  host : t.host = s.host

theorem SameBeyondControl.refl (s : State) : SameBeyondControl s s := by constructor <;> rfl

theorem SameBeyondControl.trans {s t u : State} (h : SameBeyondControl s t) (h' : SameBeyondControl t u) :
    SameBeyondControl s u := by
  obtain ⟨⟩ := h; obtain ⟨⟩ := h'; constructor <;> simp_all

theorem endOperation_same (s : State) : SameBeyondControl s (endOperation s) := by constructor <;> rfl
theorem raise_same (e : BlockError) (s : State) : SameBeyondControl s (raise e s) := by constructor <;> rfl
theorem finish_same (v : Ret) (s : State) : SameBeyondControl s (finish v s) := by constructor <;> rfl
theorem statusFailure_same (c : StatusCheck) (s : State) : SameBeyondControl s (statusFailure c s) := by
  cases c <;> constructor <;> rfl
theorem enterWaitToken_same (ks : List Cont) (s : State) : SameBeyondControl s (enterWaitToken ks s) := by
  unfold enterWaitToken; split <;> constructor <;> rfl
theorem enterBusyWait_same (ks : List Cont) (s : State) : SameBeyondControl s (enterBusyWait ks s) := by
  unfold enterBusyWait; split <;> constructor <;> rfl

/-- A return changes control registers only. -/
theorem ret_same (ks : List Cont) (s : State) : SameBeyondControl s (ret ks s) := by
  induction ks generalizing s with
  | nil => exact endOperation_same s
  | cons k ks ih =>
    cases k with
    | releaseIf r =>
      simp only [ret]; split
      · constructor <;> rfl
      · exact ih s
    | status c =>
      simp only [ret]; split
      · exact ih s
      · exact statusFailure_same c s
    | readFrom k =>
      simp only [ret]; split
      · exact SameBeyondControl.trans (by constructor <;> rfl) (enterWaitToken_same _ { s with blkIdx := k })
      · exact SameBeyondControl.trans (by constructor <;> rfl) (ih { s with blkIdx := k })
    | writeFrom k =>
      simp only [ret]; split
      · constructor <;> rfl
      · exact SameBeyondControl.trans (by constructor <;> rfl) (ih { s with blkIdx := k })
    | fill w n =>
      simp only [ret]; split
      · exact ih s
      · constructor <;> rfl
    | recvBlock d off n => exact enterWaitToken_same _ s
    | busyWait => exact enterBusyWait_same _ s
    | _ => constructor <;> rfl

/-! ### How a return leaves the sequencer -/

/-- R174 step 4: block k of a read lies within the buffer that holds all BLK_N. -/
theorem conts_readFrom {L N k : Nat} {ks : List Cont} (h : (Cont.readFrom k :: ks).all (Cont.ok L N) = true) (hk : k < N) :
    (Cont.payload .host (Config.blockSize * k) Config.blockSize :: .readFrom (k + 1) :: ks).all (Cont.ok L N) = true := by
  rw [List.all_cons, Bool.and_eq_true] at h
  obtain ⟨hN, hks⟩ := h
  simp only [Cont.ok, decide_eq_true_eq] at hN
  simp only [List.all_cons, hks, Cont.ok, Dest.len, Bool.and_true, Bool.and_eq_true, decide_eq_true_eq]
  refine ⟨⟨rfl, decide_eq_true ?_⟩, hN⟩
  unfold Config.blockSize at hN ⊢
  omega

/-- R194 step 4: block k of a write lies within the buffer that holds all BLK_N. -/
theorem conts_writeFrom {L N k : Nat} {ks : List Cont} (h : (Cont.writeFrom k :: ks).all (Cont.ok L N) = true) (hk : k < N) :
    (Cont.sendPayload (Config.blockSize * k) :: .checkDresp :: .busyWait :: .writeFrom (k + 1) :: ks).all (Cont.ok L N)
      = true := by
  rw [List.all_cons, Bool.and_eq_true] at h
  obtain ⟨hN, hks⟩ := h
  simp only [Cont.ok, decide_eq_true_eq] at hN
  simp only [List.all_cons, hks, Cont.ok, Bool.true_and, Bool.and_true, Bool.and_eq_true, decide_eq_true_eq]
  unfold Config.blockSize at hN ⊢
  omega

/-- The part of the invariant that a return must establish. -/
structure ControlOk (s : State) : Prop where
  pending : s.pending = true → s.phase = .idle
  pollCnt : s.pollCnt ≤ Config.respBudget
  byteIdx : s.byteIdx ≤ Config.blockSize
  phase : s.phaseOk = true
  stack : s.stack.all (Cont.ok s.bufLen s.blkN) = true

theorem enterWaitToken_control {ks : List Cont} {s : State} (hks : ks.all (Cont.ok s.bufLen s.blkN) = true)
    (hp : s.pending = false) (h1 : s.pollCnt ≤ Config.respBudget) (h2 : s.byteIdx ≤ Config.blockSize) :
    ControlOk (enterWaitToken ks s) := by
  unfold enterWaitToken
  split
  · constructor <;> simp_all [State.phaseOk, Cont.ok]
  · constructor <;> simp_all [State.phaseOk]
    omega

theorem enterBusyWait_control {ks : List Cont} {s : State} (hks : ks.all (Cont.ok s.bufLen s.blkN) = true)
    (hp : s.pending = false) (h1 : s.pollCnt ≤ Config.respBudget) (h2 : s.byteIdx ≤ Config.blockSize) :
    ControlOk (enterBusyWait ks s) := by
  unfold enterBusyWait
  split
  · constructor <;> simp_all [State.phaseOk, Cont.ok]
  · rename_i hb
    constructor <;> simp_all [State.phaseOk]
    cases hbb : s.cfg.busyBudget with
    | none => rfl
    | some n =>
      simp [busyBudgetSpent, hbb] at hb
      simp; omega

/-- D40: a payload is not empty, and no longer than a block. -/
theorem payloadLen_range {n : Nat} (h : payloadLenOk n = true) : 0 < n ∧ n ≤ Config.blockSize := by
  rcases (by simpa [payloadLenOk] using h : n = Config.blockSize ∨ n = Config.csdLen) with rfl | rfl <;> decide

/-- An operation's end leaves the sequencer where it may stand. -/
theorem idle_control {s : State} (hph : s.phase = .idle) (hop : s.op = .none) (hst : s.stack = [])
    (h1 : s.pollCnt ≤ Config.respBudget) (h2 : s.byteIdx ≤ Config.blockSize) : ControlOk s :=
  ⟨fun _ => hph, h1, h2, by simp [State.phaseOk, hph, hop, hst], by simp [hst]⟩

/-- A return leaves the sequencer where it may stand; after a frame (PENDING = 1) only into its response poll or the
host's hands. -/
theorem ret_control (ks : List Cont) (s : State) (hks : ks.all (Cont.ok s.bufLen s.blkN) = true)
    (hp : s.pending = true → frameStackOk ks = true) (h1 : s.pollCnt ≤ Config.respBudget)
    (h2 : s.byteIdx ≤ Config.blockSize) : ControlOk (ret ks s) := by
  induction ks generalizing s with
  | nil => exact idle_control rfl rfl rfl h1 h2
  | cons k ks ih =>
    have hks' : ks.all (Cont.ok s.bufLen s.blkN) = true := by
      rw [List.all_cons, Bool.and_eq_true] at hks; exact hks.2
    have hk : k.ok s.bufLen s.blkN = true := by
      rw [List.all_cons, Bool.and_eq_true] at hks; exact hks.1
    by_cases hpend : s.pending = true
    · have hf := hp hpend
      cases k <;> simp [frameStackOk] at hf
      · rename_i e r k
        exact ⟨nofun, Nat.zero_le _, h2, by cases k <;> simp [ret, State.phaseOk, Config.respBudget], hks'⟩
      · exact idle_control rfl rfl rfl h1 h2
    · have hpend : s.pending = false := by simpa using hpend
      have next : ∀ u : State, u.pending = s.pending → u.bufLen = s.bufLen → u.blkN = s.blkN →
          u.pollCnt = s.pollCnt → u.byteIdx = s.byteIdx → ControlOk (ret ks u) := by
        intro u hp' hb hn h1' h2'
        exact ih u (by rw [hb, hn]; exact hks') (by simp [hp', hpend]) (by rw [h1']; exact h1) (by rw [h2']; exact h2)
      cases k with
      | await e r k => exact ⟨nofun, Nat.zero_le _, h2, by cases k <;> simp [ret, State.phaseOk, Config.respBudget], hks'⟩
      | releaseIf r =>
        cases r
        · exact next s rfl rfl rfl rfl rfl
        · exact ⟨by simp [ret, hpend], h1, h2, rfl, hks'⟩
      | status c =>
        simp only [ret]; split
        · exact next s rfl rfl rfl rfl rfl
        · cases c
          · exact ⟨by simp [statusFailure, hpend], h1, h2, rfl, rfl⟩
          · exact idle_control rfl rfl rfl h1 h2
          · exact ⟨by simp [statusFailure, hpend], h1, h2, rfl, rfl⟩
      | readFrom k =>
        simp only [ret]; split
        · exact enterWaitToken_control (conts_readFrom hks (by assumption)) hpend h1 h2
        · exact next _ rfl rfl rfl rfl rfl
      | writeFrom k =>
        simp only [ret]; split
        · exact ⟨by simp [hpend], h1, h2, rfl, conts_writeFrom hks (by assumption)⟩
        · exact next _ rfl rfl rfl rfl rfl
      | fill w n =>
        simp only [ret]; split
        · exact next s rfl rfl rfl rfl rfl
        · exact ⟨by simp [hpend], h1, h2, rfl, hks'⟩
      | recvBlock d off n => exact enterWaitToken_control (ks := .payload d off n :: ks) hks hpend h1 h2
      | busyWait => exact enterBusyWait_control hks' hpend h1 h2
      | cmd i a e r k => exact ⟨by simp [ret, hpend], h1, h2, rfl, hks'⟩
      | payload d off n =>
        obtain ⟨hn, hle⟩ : payloadLenOk n = true ∧ off + n ≤ d.len s.bufLen := by simpa [Cont.ok] using hk
        exact ⟨by simp [ret, hpend], h1, Nat.zero_le _, by
          simp only [ret, State.phaseOk, Bool.and_eq_true]
          exact ⟨⟨decide_eq_true (payloadLen_range hn).1, hn⟩, decide_eq_true hle⟩, hks'⟩
      | finish v => exact idle_control rfl rfl rfl h1 h2
      | raise e => exact idle_control rfl rfl rfl h1 h2
      | sendPayload off =>
        have hle : off + Config.blockSize ≤ s.bufLen := by simpa [Cont.ok] using hk
        exact ⟨by simp [ret, hpend], h1, Nat.zero_le _, by
          simp only [ret, State.phaseOk, Bool.and_eq_true]
          exact ⟨decide_eq_true (by decide : 0 < Config.blockSize), decide_eq_true hle⟩, hks'⟩
      | release => exact ⟨by simp [ret, hpend], h1, h2, rfl, hks'⟩
      | checkDresp => exact ⟨by simp [ret, hpend], h1, h2, rfl, hks'⟩
      | sendStop => exact ⟨by simp [ret, hpend], h1, h2, rfl, hks'⟩
      | sendBlock t off => exact ⟨by simp [ret, hpend], h1, h2, rfl, hks⟩

/-! ### One tick -/

/-- The fields that the sequencer never writes: the parameters, the session registers, the host's calls. -/
structure SessionKept (s t : State) : Prop where
  cfg : t.cfg = s.cfg
  ver : t.ver = s.ver
  cdv : t.cdv = s.cdv
  sectors : t.sectors = s.sectors
  busRate : t.busRate = s.busRate
  debug : t.debug = s.debug
  ready : t.ready = s.ready
  host : t.host = s.host

theorem SessionKept.refl (s : State) : SessionKept s s := by constructor <;> rfl

theorem SessionKept.trans {s t u : State} (h : SessionKept s t) (h' : SessionKept t u) : SessionKept s u := by
  obtain ⟨⟩ := h; obtain ⟨⟩ := h'; constructor <;> simp_all

theorem SameBeyondControl.session {s t : State} (h : SameBeyondControl s t) : SessionKept s t := by
  obtain ⟨⟩ := h; constructor <;> assumption

theorem ret_session {s u : State} (ks : List Cont) (h : SessionKept s u) : SessionKept s (ret ks u) :=
  h.trans (ret_same ks u).session

/-- A tick never writes a session register, a parameter or the host's calls (R28, R8). -/
theorem tick_session {s t : State} (h : tick s = .next t) : SessionKept s t := by
  have keep : ∀ u, SessionKept s u → .next u = (.next t : Out) → SessionKept s t := by
    rintro u hu ⟨⟩; exact hu
  unfold tick at h
  split at h
  · exact keep _ (.refl s) h
  · exact keep _ (by constructor <;> rfl) h
  · refine keep _ ?_ h
    unfold afterFrameByte; split
    · constructor <;> rfl
    · exact ret_session _ (by constructor <;> rfl)
  · exact keep _ (by constructor <;> rfl) h
  · refine keep _ ?_ h
    unfold afterPoll; dsimp only; split_ifs
    · exact ret_session _ (by constructor <;> rfl)
    · exact ret_session _ (by constructor <;> rfl)
    · constructor <;> rfl
  · exact keep _ (ret_session _ (by constructor <;> rfl)) h
  · exact keep _ (ret_session _ (by constructor <;> rfl)) h
  · exact keep _ (ret_session _ (by constructor <;> rfl)) h
  · refine keep _ ?_ h
    unfold afterToken; dsimp only; split_ifs
    · exact ret_session _ (by constructor <;> rfl)
    · constructor <;> rfl
    · constructor <;> rfl
  · split at h
    · refine keep _ ?_ h
      unfold afterRecv; dsimp only; split_ifs
      · constructor <;> rfl
      · exact ret_session _ (by constructor <;> rfl)
    · cases h
  · split at h
    · refine keep _ ?_ h
      unfold afterSend; dsimp only; split_ifs
      · constructor <;> rfl
      · exact ret_session _ (by constructor <;> rfl)
    · cases h
  · refine keep _ ?_ h
    unfold afterDresp; dsimp only; split_ifs
    · exact ret_session _ (by constructor <;> rfl)
    · constructor <;> rfl
  · refine keep _ ?_ h
    unfold afterBusy; dsimp only; split_ifs
    · exact ret_session _ (by constructor <;> rfl)
    · constructor <;> rfl
    · constructor <;> rfl

/-- A return never raises PENDING. -/
theorem ret_pending (ks : List Cont) (s : State) (h : (ret ks s).pending = true) : s.pending = true := by
  induction ks generalizing s with
  | nil => exact h
  | cons k ks ih =>
    cases k with
    | releaseIf r =>
      simp only [ret] at h; split at h
      · exact h
      · exact ih s h
    | status c =>
      simp only [ret] at h; split at h
      · exact ih s h
      · cases c <;> exact h
    | readFrom k =>
      simp only [ret, enterRecvBlock, enterWaitToken] at h; split_ifs at h
      · exact h
      · exact h
      · exact ih { s with blkIdx := k } h
    | writeFrom k =>
      simp only [ret] at h; split at h
      · exact h
      · exact ih { s with blkIdx := k } h
    | fill w n =>
      simp only [ret] at h; split at h
      · exact ih s h
      · exact h
    | recvBlock d off n => simp only [ret, enterRecvBlock, enterWaitToken] at h; split at h <;> exact h
    | busyWait => simp only [ret, enterBusyWait] at h; split at h <;> exact h
    | await e r k => simp [ret] at h
    | _ => exact h

theorem SessionKept.hostOk {s t : State} (h : SessionKept s t) : t.hostOk = s.hostOk := by
  obtain ⟨⟩ := h
  simp only [State.hostOk, Boot.sessionOk, State.sessionSet]
  simp_all

theorem SessionKept.sessionSet {s t : State} (h : SessionKept s t) : t.sessionSet = s.sessionSet := by
  obtain ⟨⟩ := h
  simp_all [State.sessionSet]

/-- The invariant after a step that keeps the session registers: what is left to show is the memory and the control part. -/
theorem inv_of_session {s t : State} (hi : s.Inv) (hs : SessionKept s t) (hm : Memory.wf t.buf ∧ Memory.wf t.csd)
    (hc : ControlOk t) (hp : t.pending = true → t.cs = true) : t.Inv where
  memory := hm.1
  csd := hm.2
  pending h := ⟨hp h, hc.pending h⟩
  ready h := by rw [hs.sessionSet]; exact hi.ready (by rw [← hs.ready]; exact h)
  consistent g m hg hm := hi.consistent g m (by rw [← hs.ver]; exact hg) (by rw [← hs.cdv]; exact hm)
  pollCnt := hc.pollCnt
  byteIdx := hc.byteIdx
  phase := hc.phase
  stack := hc.stack
  host := by rw [hs.hostOk]; exact hi.host

/-- A return from a state with no response poll due keeps the invariant. -/
theorem inv_ret {s u : State} {ks : List Cont} (hi : s.Inv) (hs : SessionKept s u) (hm : Memory.wf u.buf ∧ Memory.wf u.csd)
    (hks : ks.all (Cont.ok u.bufLen u.blkN) = true) (hp : u.pending = false) (h1 : u.pollCnt ≤ Config.respBudget)
    (h2 : u.byteIdx ≤ Config.blockSize) : (ret ks u).Inv := by
  refine inv_of_session hi (ret_session ks hs) ?_ (ret_control ks u hks (by simp [hp]) h1 h2) ?_
  · rw [(ret_same ks u).buf, (ret_same ks u).csd]; exact hm
  · intro h
    have := ret_pending ks u h
    simp [hp] at this

/-- Every tick keeps the invariant. -/
theorem tick_inv {s t : State} (hi : s.Inv) (h : tick s = .next t) : t.Inv := by
  have hs := tick_session h
  by_cases hidle : s.phase = .idle
  · simp [tick, hidle] at h; subst h; exact hi
  have hpend : s.pending = false := by
    cases hp : s.pending with
    | false => rfl
    | true => exact absurd (hi.pending hp).2 hidle
  have hph := hi.phase
  have hst := hi.stack
  have hpc := hi.pollCnt
  have hbi := hi.byteIdx
  have mem : Memory.wf s.buf ∧ Memory.wf s.csd := ⟨hi.memory, hi.csd⟩
  -- an error exit: RELEASE, then the error
  have err : ∀ (e : BlockError) (u : State), SessionKept s u → u.buf = s.buf → u.csd = s.csd → u.pending = false →
      u.pollCnt ≤ Config.respBudget → u.byteIdx ≤ Config.blockSize → (fail e u).Inv := by
    intro e u hu hb hc hup h1 h2
    exact inv_of_session hi ⟨hu.1, hu.2, hu.3, hu.4, hu.5, hu.6, hu.7, hu.8⟩ (by
      show Memory.wf u.buf ∧ Memory.wf u.csd
      rw [hb, hc]; exact mem)
      ⟨by simp [hup], h1, h2, by simp [State.phaseOk], by simp [Cont.ok]⟩ (by simp [hup])
  unfold tick at h
  split at h
  · contradiction
  · rename_i i a c hq
    cases h
    refine inv_of_session hi hs mem ⟨by simp [hpend], hpc, hbi, ?_, hst⟩ (by simp)
    simp_all [State.phaseOk, Config.frameLen]
  · rename_i k hq
    obtain ⟨⟨hcs, hk⟩, hf⟩ : (s.cs = true ∧ k < Config.frameLen) ∧ frameStackOk s.stack = true := by
      simpa [State.phaseOk, hq] using hph
    cases h
    unfold afterFrameByte
    split
    · refine inv_of_session hi ?_ mem ⟨by simp [hpend], hpc, hbi, ?_, hst⟩ (by simp [hpend])
      · constructor <;> rfl
      · simp_all [State.phaseOk]
    · refine inv_of_session hi (ret_session _ (by constructor <;> rfl)) ?_
        (ret_control _ _ hst (fun _ => hf) hpc hbi) (fun _ => ?_)
      · rw [(ret_same _ _).buf, (ret_same _ _).csd]; exact mem
      · rw [(ret_same _ _).cs]; exact hcs
  · rename_i e r hq
    cases h
    refine inv_of_session hi hs mem ⟨by simp [hpend], hpc, hbi, ?_, hst⟩ (by simp [hpend])
    simp_all [State.phaseOk, Config.respBudget]
  · rename_i e r hq
    have hlt : s.pollCnt < Config.respBudget := by simpa [State.phaseOk, hq] using hph
    cases h
    unfold afterPoll
    dsimp only
    split_ifs with hb hc
    · exact inv_ret hi (by constructor <;> rfl) mem (by simpa [Cont.ok] using hst) hpend (by simp; omega) hbi
    · exact inv_ret hi (by constructor <;> rfl) mem (by simpa [Cont.ok] using hst) hpend (by simp; omega) hbi
    · refine inv_of_session hi (by constructor <;> rfl) mem
        ⟨by simp [hpend], by simp; omega, hbi, ?_, hst⟩ (by simp [hpend])
      simp_all [State.phaseOk]; omega
  · cases h
    exact inv_ret hi (by constructor <;> rfl) mem (by simpa [Cont.ok] using hst) hpend hpc hbi
  · cases h
    exact inv_ret hi (by constructor <;> rfl) mem (by simpa [Cont.ok] using hst) hpend hpc hbi
  · cases h
    exact inv_ret hi (by constructor <;> rfl) mem hst hpend hpc hbi
  · rename_i hq
    have hlt : s.tokenCnt < s.cfg.tokenBudget := by simpa [State.phaseOk, hq] using hph
    cases h
    unfold afterToken
    dsimp only
    split_ifs with hb hc
    · exact inv_ret hi (by constructor <;> rfl) mem hst hpend hpc hbi
    · exact err _ _ (by constructor <;> rfl) rfl rfl hpend hpc hbi
    · refine inv_of_session hi (by constructor <;> rfl) mem
        ⟨by simp [hpend], hpc, hbi, ?_, hst⟩ (by simp [hpend])
      simp_all [State.phaseOk]; omega
  · rename_i d off n hq
    obtain ⟨⟨hlt, hn⟩, _⟩ : (s.byteIdx < n ∧ payloadLenOk n = true) ∧ off + n ≤ d.len s.bufLen := by
      simpa [State.phaseOk, hq] using hph
    have hn' : n ≤ Config.blockSize := (payloadLen_range hn).2
    split at h
    · cases h
      have hput : Memory.wf (d.put (Memory.write (d.bytes s) (off + s.byteIdx) (answer s)) s).buf ∧
          Memory.wf (d.put (Memory.write (d.bytes s) (off + s.byteIdx) (answer s)) s).csd := by
        cases d
        · exact ⟨Memory.wf_write hi.memory _ _, hi.csd⟩
        · exact ⟨hi.memory, Memory.wf_write hi.csd _ _⟩
      unfold afterRecv
      dsimp only
      split_ifs with hb
      · refine inv_of_session hi (by constructor <;> rfl) hput ⟨by simp [hpend, Dest.put], hpc, by simp [Dest.put]; omega, ?_, hst⟩
          (by simp [hpend, Dest.put])
        simp_all [State.phaseOk, Dest.put]
      · exact inv_ret hi (by constructor <;> rfl) hput (by simpa [Cont.ok, Dest.put] using hst) hpend hpc
          (by simp [Dest.put]; omega)
    · cases h
  · rename_i off hq
    obtain ⟨hlt, _⟩ : s.byteIdx < Config.blockSize ∧ off + Config.blockSize ≤ s.bufLen := by
      simpa [State.phaseOk, hq] using hph
    split at h
    · cases h
      unfold afterSend
      dsimp only
      split_ifs with hb
      · refine inv_of_session hi (by constructor <;> rfl) mem
          ⟨by simp [hpend], hpc, by simp; omega, ?_, hst⟩ (by simp [hpend])
        simp_all [State.phaseOk]
      · exact inv_ret hi (by constructor <;> rfl) mem (by simpa [Cont.ok] using hst) hpend hpc (by simp; omega)
    · cases h
  · cases h
    unfold afterDresp
    dsimp only
    split_ifs with hb
    · exact inv_ret hi (by constructor <;> rfl) mem hst hpend hpc hbi
    · exact err _ _ (by constructor <;> rfl) rfl rfl hpend hpc hbi
  · rename_i hq
    cases h
    unfold afterBusy
    dsimp only
    split_ifs with hb hc
    · exact inv_ret hi (by constructor <;> rfl) mem hst hpend hpc hbi
    · exact err _ _ (by constructor <;> rfl) rfl rfl hpend hpc hbi
    · refine inv_of_session hi (by constructor <;> rfl) mem
        ⟨by simp [hpend], hpc, hbi, ?_, hst⟩ (by simp [hpend])
      cases hbb : s.cfg.busyBudget with
      | none => simp_all [State.phaseOk]
      | some m =>
        have hlt : s.busyCnt < m := by simpa [State.phaseOk, hq, hbb] using hph
        simp [busyBudgetSpent, hbb] at hc
        simp [State.phaseOk, hq, hbb]; omega

/-- R11: in a state of the invariant a tick never meets an offset that does not exist. -/
theorem tick_never_faults {s : State} (hi : s.Inv) (f : Fault) : tick s ≠ .fault f := by
  have hph := hi.phase
  unfold tick
  split
  case h_10 d off n hq =>
    obtain ⟨⟨hlt, _⟩, hle⟩ : (s.byteIdx < n ∧ payloadLenOk n = true) ∧ off + n ≤ d.len s.bufLen := by
      simpa [State.phaseOk, hq] using hph
    rw [if_pos (by omega)]
    nofun
  case h_11 off hq =>
    obtain ⟨hlt, hle⟩ : s.byteIdx < Config.blockSize ∧ off + Config.blockSize ≤ s.bufLen := by
      simpa [State.phaseOk, hq] using hph
    rw [if_pos (by omega)]
    nofun
  all_goals nofun

/-- A tick is never a refusal. -/
theorem tick_never_refuses (s : State) (r : Refusal) : tick s ≠ .refused r := by
  unfold tick
  split <;> first | (split <;> nofun) | nofun

end Sys2Proof.Machine
end

