-- ==== Sys2Proof/Laws/Run.lean ====
section
/-! SUPPORT. The sequencer's loops run to their ends, said once for each: sending a frame, polling for a status, the filler
runs, the release, the token wait, the two payload loops, the data response and the busy-wait. A hypothesis gives the
bytes the card answers while the loop sends its own. -/

namespace Sys2Proof.Machine

theorem Reaches.refl (s : State) : Reaches s s := ⟨0, rfl⟩

theorem Reaches.head {s t u : State} (h : step s = .next t) (h' : Reaches t u) : Reaches s u := by
  obtain ⟨k, hk⟩ := h'
  refine ⟨k + 1, ?_⟩
  have hs : Sys2Proof.core.step s = .next t := h
  simp only [Host.Core.run, hs]
  exact hk

theorem Reaches.trans {s t u : State} (h : Reaches s t) (h' : Reaches t u) : Reaches s u := by
  obtain ⟨k, hk⟩ := h
  induction k generalizing s with
  | zero => cases hk; exact h'
  | succ k ih =>
    simp only [Host.Core.run] at hk
    split at hk
    · rename_i v hv
      exact Reaches.head hv (ih hk)
    · cases hk
    · cases hk

/-- While an operation is in flight a step is a tick. -/
theorem step_in_flight {s : State} (h : s.phase ≠ .idle) : step s = tick s := by simp [step, h]

theorem Reaches.tick {s t u : State} (hp : s.phase ≠ .idle) (h : tick s = .next t) (h' : Reaches t u) : Reaches s u :=
  Reaches.head (by rw [step_in_flight hp]; exact h) h'

/-- A return overwrites where the sequencer stood. -/
theorem ret_at (ks : List Cont) (s : State) (p : Phase) (st : List Cont) :
    ret ks { s with phase := p, stack := st } = ret ks s := by
  induction ks generalizing s with
  | nil => rfl
  | cons k ks ih =>
    cases k with
    | releaseIf r => simp only [ret]; split; · rfl
                     · exact ih s
    | status c => simp only [ret]; split; · exact ih s
                  · cases c <;> rfl
    | readFrom k => simp only [ret]; split
                    · simp only [enterRecvBlock, enterWaitToken]; split <;> rfl
                    · exact ih { s with blkIdx := k }
    | writeFrom k => simp only [ret]; split; · rfl
                     · exact ih { s with blkIdx := k }
    | fill w n => simp only [ret]; split; · exact ih s
                  · rfl
    | recvBlock d off n => simp only [ret, enterRecvBlock, enterWaitToken]; split <;> rfl
    | busyWait => simp only [ret, enterBusyWait]; split <;> rfl
    | _ => rfl

@[simp] theorem fills_succ (n : Nat) : fills (n + 1) = Config.fill :: fills n := rfl
@[simp] theorem fills_zero : fills 0 = [] := rfl
@[simp] theorem fills_length (n : Nat) : (fills n).length = n := by simp [fills]

/-- A return out of the phase a tick has just left. -/
theorem Reaches.ret_at {u : State} (ks : List Cont) (s : State) (p : Phase) (st : List Cont)
    (h : u = ret ks { s with phase := p, stack := st }) : Reaches u (ret ks s) := by
  rw [h, Sys2Proof.Machine.ret_at]; exact Reaches.refl _

/-- R123 step 3: the bytes of the frame from byte k on, then PENDING and the return. -/
theorem run_frame (n : Nat) : ∀ {s : State} (k : Nat), k + n = 5 → s.phase = .frame k →
    Reaches s (ret s.stack { s with pending := true, bus := Bus.send ((frameBytes s.frame).drop k) s.bus }) := by
  induction n with
  | zero =>
    intro s k hk hp
    obtain rfl : k = 5 := by omega
    refine Reaches.tick (by simp [hp]) (tick_frame hp) ?_
    rw [afterFrameByte_last (by decide)]
    exact Reaches.refl _
  | succ n ih =>
    intro s k hk hp
    refine Reaches.tick (by simp [hp]) (tick_frame hp) ?_
    rw [afterFrameByte_more (by simp [Config.frameLen]; omega)]
    refine Reaches.trans (ih (k + 1) (by omega) rfl) ?_
    have hd : (frameBytes s.frame).drop k = frameByte s.frame k :: (frameBytes s.frame).drop (k + 1) := by
      have : k < 5 := by omega
      interval_cases k <;> rfl
    refine Reaches.ret_at _ _ (.frame (k + 1)) s.stack ?_
    rw [hd]
    rfl

/-- R123: the whole of SEND_COMMAND from the step that asserts chip-select. -/
theorem run_send {s : State} {i : Index} {a : Arg} {c : Crc7} (hp : s.phase = .assert i a c) :
    Reaches s (ret s.stack
      { s with
        cs := true
        frame := build i a c
        pending := true
        bus := Bus.send (frameBytes (build i a c)) (s.bus.note .assert) }) := by
  refine Reaches.tick (by simp [hp]) (tick_assert hp) ?_
  refine Reaches.trans (run_frame 5 0 rfl rfl) ?_
  exact Reaches.ret_at _ _ (.frame 0) s.stack rfl

/-- R124 steps 3 to 5: the first byte with bit 7 clear ends the poll. -/
theorem run_poll_status {s : State} {e : Nat} {r : Bool} (hp : s.phase = .poll e r) (junk : List Byte) (x : Byte)
    (hj : ∀ y ∈ junk, isStatusByte y = false) (hx : isStatusByte x = true)
    (hlen : s.pollCnt + junk.length < Config.respBudget)
    (hans : Bus.answers (fills (junk.length + 1)) s.bus = junk ++ [x]) :
    Reaches s (ret (.fill .drain e :: .releaseIf r :: s.stack)
      { s with
        pollCnt := s.pollCnt + junk.length + 1
        resp := .status (statusBits x)
        bus := Bus.send (fills (junk.length + 1)) s.bus }) := by
  induction junk generalizing s with
  | nil =>
    have h0 : s.bus.answer = x := by simpa [Bus.answers] using hans
    refine Reaches.tick (by simp [hp]) (tick_poll hp) ?_
    rw [h0, afterPoll_status hx]
    exact Reaches.refl _
  | cons y junk ih =>
    obtain ⟨h0, h1⟩ : s.bus.answer = y ∧ Bus.answers (fills (junk.length + 1)) (s.bus.xchg Config.fill) = junk ++ [x] := by
      simpa [Bus.answers] using hans
    simp only [List.length_cons] at hlen
    refine Reaches.tick (by simp [hp]) (tick_poll hp) ?_
    rw [h0, afterPoll_more (hj y (by simp)) (by show s.pollCnt + 1 ≠ _; omega)]
    have := ih (s := { s with pollCnt := s.pollCnt + 1, bus := s.bus.xchg Config.fill }) hp
      (fun z hz => hj z (by simp [hz])) (by show s.pollCnt + 1 + _ < _; omega) h1
    have hc : s.pollCnt + 1 + junk.length + 1 = s.pollCnt + (y :: junk).length + 1 := by simp; omega
    simp only [hc] at this
    exact this

/-- R124 step 3: no status byte within the budget: the sentinel, after exactly the budget's polls. -/
theorem run_poll_timeout {s : State} {e : Nat} {r : Bool} (hp : s.phase = .poll e r) (n : Nat)
    (hn : s.pollCnt + (n + 1) = Config.respBudget)
    (hans : ∀ y ∈ Bus.answers (fills (n + 1)) s.bus, isStatusByte y = false) :
    Reaches s (ret (.releaseIf r :: s.stack)
      { s with
        pollCnt := Config.respBudget
        resp := .timeout
        bus := Bus.send (fills (n + 1)) s.bus }) := by
  induction n generalizing s with
  | zero =>
    have h0 : isStatusByte s.bus.answer = false := hans _ (by simp [Bus.answers])
    refine Reaches.tick (by simp [hp]) (tick_poll hp) ?_
    rw [afterPoll_last h0 (by exact hn)]
    exact Reaches.refl _
  | succ n ih =>
    have h0 : isStatusByte s.bus.answer = false := hans _ (by simp [Bus.answers])
    refine Reaches.tick (by simp [hp]) (tick_poll hp) ?_
    rw [afterPoll_more h0 (by show s.pollCnt + 1 ≠ _; omega)]
    exact ih (s := { s with pollCnt := s.pollCnt + 1, bus := s.bus.xchg Config.fill }) hp
      (by show s.pollCnt + 1 + _ = _; omega)
      (fun y hy => hans y (by rw [fills_succ (n + 1), Bus.answers]; exact List.mem_cons_of_mem _ hy))

/-- A run of n ≥ 1 filler exchanges. -/
theorem run_fill {s : State} {w : FillWhy} (n : Nat) (hp : s.phase = .fill w (n + 1)) :
    Reaches s (ret s.stack { s with bus := Bus.send (fills (n + 1)) s.bus }) := by
  induction n generalizing s with
  | zero =>
    refine Reaches.tick (by simp [hp]) (tick_fill hp) ?_
    rw [ret, if_pos rfl]
    exact Reaches.refl _
  | succ n ih =>
    refine Reaches.tick (by simp [hp]) (tick_fill hp) ?_
    rw [ret, if_neg (by omega)]
    refine Reaches.trans (ih rfl) ?_
    exact Reaches.ret_at _ _ (.fill w (n + 1)) s.stack rfl

/-- A return into filler exchanges, none or some. -/
theorem run_ret_fill (w : FillWhy) (n : Nat) (ks : List Cont) (s : State) :
    Reaches (ret (.fill w n :: ks) s) (ret ks { s with bus := Bus.send (fills n) s.bus }) := by
  cases n with
  | zero => rw [ret, if_pos rfl]; exact Reaches.refl _
  | succ n =>
    rw [ret, if_neg (Nat.succ_ne_zero n)]
    refine Reaches.trans (run_fill n rfl) ?_
    exact Reaches.ret_at _ _ (.fill w (n + 1)) ks rfl

/-- R120, R121: deassert, then n fillers. -/
theorem run_deassert {s : State} {w : FillWhy} {n : Nat} (hp : s.phase = .deassert w n) :
    Reaches s (ret s.stack { s with cs := false, bus := Bus.send (fills n) (s.bus.note .deassert) }) :=
  Reaches.tick (by simp [hp]) (tick_deassert hp) (run_ret_fill w n s.stack _)

theorem run_release (ks : List Cont) (s : State) :
    Reaches (enterRelease ks s) (ret ks { s with cs := false, bus := s.bus.release }) := by
  refine Reaches.trans (run_deassert rfl) ?_
  exact Reaches.ret_at _ _ (.deassert .release 1) ks rfl

/-- R124 step 6. -/
theorem run_releaseIf (r : Bool) (ks : List Cont) (s : State) :
    Reaches (ret (.releaseIf r :: ks) s)
      (ret ks { s with cs := s.cs && !r, bus := if r then s.bus.release else s.bus }) := by
  cases r with
  | false => simpa [ret] using Reaches.refl _
  | true => simpa [ret] using run_release ks s

/-- An error exit after a bus event: RELEASE, then the error. -/
theorem run_fail (e : BlockError) (s : State) :
    Reaches (fail e s) (raise e { s with cs := false, bus := s.bus.release }) := run_release [.raise e] s

/-- One token byte is sent. -/
theorem run_tx {s : State} {b : Byte} (hp : s.phase = .tx b) :
    Reaches s (ret s.stack { s with bus := s.bus.xchg b }) :=
  Reaches.tick (by simp [hp]) (tick_tx hp) (Reaches.refl _)

/-- R171: the data-start token within the budget. -/
theorem run_token {s : State} (hp : s.phase = .token) (junk : List Byte)
    (hj : ∀ y ∈ junk, y ≠ s.cfg.tokenDataStart) (hlen : s.tokenCnt + junk.length < s.cfg.tokenBudget)
    (hans : Bus.answers (fills (junk.length + 1)) s.bus = junk ++ [s.cfg.tokenDataStart]) :
    Reaches s (ret s.stack
      { s with
        tok := s.cfg.tokenDataStart
        tokenCnt := s.tokenCnt + junk.length + 1
        bus := Bus.send (fills (junk.length + 1)) s.bus }) := by
  induction junk generalizing s with
  | nil =>
    have h0 : s.bus.answer = s.cfg.tokenDataStart := by simpa [Bus.answers] using hans
    refine Reaches.tick (by simp [hp]) (tick_token hp) ?_
    rw [h0]
    have := afterToken_found (s := { s with bus := s.bus.xchg Config.fill })
    dsimp only at this
    rw [this]
    exact Reaches.refl _
  | cons y junk ih =>
    obtain ⟨h0, h1⟩ : s.bus.answer = y ∧
        Bus.answers (fills (junk.length + 1)) (s.bus.xchg Config.fill) = junk ++ [s.cfg.tokenDataStart] := by
      simpa [Bus.answers] using hans
    simp only [List.length_cons] at hlen
    refine Reaches.tick (by simp [hp]) (tick_token hp) ?_
    rw [h0, afterToken_more (by exact hj y (by simp)) (by show s.tokenCnt + 1 ≠ s.cfg.tokenBudget; omega)]
    have := ih (s := { s with tok := y, tokenCnt := s.tokenCnt + 1, bus := s.bus.xchg Config.fill }) hp
      (fun z hz => hj z (by simp [hz])) (by show s.tokenCnt + 1 + _ < s.cfg.tokenBudget; omega) h1
    have hc : s.tokenCnt + 1 + junk.length + 1 = s.tokenCnt + (y :: junk).length + 1 := by simp; omega
    simp only [hc] at this
    exact this

/-- R171: no token within the budget: exactly the budget's polls, then RELEASE and IOTimeout. -/
theorem run_token_timeout {s : State} (hp : s.phase = .token) (n : Nat) (hn : s.tokenCnt + (n + 1) = s.cfg.tokenBudget)
    (hans : ∀ y ∈ Bus.answers (fills (n + 1)) s.bus, y ≠ s.cfg.tokenDataStart) :
    Reaches s (raise (.ioTimeout .waitingForData)
      { s with
        cs := false
        tok := (Bus.answers (fills (n + 1)) s.bus).getLastD 0
        tokenCnt := s.cfg.tokenBudget
        bus := (Bus.send (fills (n + 1)) s.bus).release }) := by
  induction n generalizing s with
  | zero =>
    have h0 : s.bus.answer ≠ s.cfg.tokenDataStart := hans _ (by simp [Bus.answers])
    refine Reaches.tick (by simp [hp]) (tick_token hp) ?_
    rw [afterToken_last (by exact h0) (by show s.tokenCnt + 1 = s.cfg.tokenBudget; omega)]
    exact run_fail _ _
  | succ n ih =>
    have h0 : s.bus.answer ≠ s.cfg.tokenDataStart := hans _ (by simp [Bus.answers])
    refine Reaches.tick (by simp [hp]) (tick_token hp) ?_
    rw [afterToken_more (by exact h0) (by show s.tokenCnt + 1 ≠ s.cfg.tokenBudget; omega)]
    have := ih
      (s := { s with tok := s.bus.answer, tokenCnt := s.tokenCnt + 1, bus := s.bus.xchg Config.fill }) hp
      (by show s.tokenCnt + 1 + _ = s.cfg.tokenBudget; omega)
      (fun y hy => hans y (by rw [fills_succ (n + 1), Bus.answers]; exact List.mem_cons_of_mem _ hy))
    have hl : (Bus.answers (fills (n + 1 + 1)) s.bus).getLastD 0
        = (Bus.answers (fills (n + 1)) (s.bus.xchg Config.fill)).getLastD 0 := by
      simp [Bus.answers]
    simp only [hl]
    exact this

/-- R172 step 3: the payload bytes are stored at ascending offsets. -/
theorem run_recv {s : State} {d : Dest} {off n : Nat} (hp : s.phase = .recv d off n) (x : Byte) (payload : List Byte)
    (hlen : s.byteIdx + (payload.length + 1) = n) (hbuf : off + n ≤ d.len s.bufLen)
    (hans : Bus.answers (fills (payload.length + 1)) s.bus = x :: payload) :
    Reaches s (ret (.fill .checksumIn 2 :: s.stack)
      (d.put (Memory.writeList (d.bytes s) (off + s.byteIdx) (x :: payload))
        { s with byteIdx := n, bus := Bus.send (fills (payload.length + 1)) s.bus })) := by
  induction payload generalizing s x with
  | nil =>
    have h0 : s.bus.answer = x := by simpa [Bus.answers] using hans
    simp only [List.length_nil] at hlen
    refine Reaches.tick (by simp [hp]) (tick_recv hp (by omega)) ?_
    rw [h0, afterRecv_last (by show s.byteIdx + 1 = n; omega)]
    exact Reaches.refl _
  | cons y payload ih =>
    obtain ⟨h0, h1⟩ : s.bus.answer = x ∧
        Bus.answers (fills (payload.length + 1)) (s.bus.xchg Config.fill) = y :: payload := by
      simpa [Bus.answers] using hans
    simp only [List.length_cons] at hlen
    refine Reaches.tick (by simp [hp]) (tick_recv hp (by omega)) ?_
    rw [h0, afterRecv_more (by show s.byteIdx + 1 < n; omega)]
    refine Reaches.trans (ih (s := { d.put (Memory.write (d.bytes s) (off + s.byteIdx) x)
        { s with bus := s.bus.xchg Config.fill } with byteIdx := s.byteIdx + 1 }) hp y
      (by show s.byteIdx + 1 + _ = n; omega) (by cases d <;> exact hbuf) h1) ?_
    cases d <;> exact Reaches.refl _

/-- R190 step 3: the payload bytes are sent in ascending order. -/
theorem run_send_payload {s : State} {off : Nat} (hp : s.phase = .send off) (n : Nat)
    (hlen : s.byteIdx + (n + 1) = Config.blockSize) (hbuf : off + Config.blockSize ≤ s.bufLen) :
    Reaches s (ret (.fill .checksumOut 2 :: s.stack)
      { s with
        byteIdx := Config.blockSize
        bus := Bus.send (Memory.readList s.buf (off + s.byteIdx) (n + 1)) s.bus }) := by
  induction n generalizing s with
  | zero =>
    refine Reaches.tick (by simp [hp]) (tick_send hp (by omega)) ?_
    rw [afterSend_last (by show s.byteIdx + 1 = Config.blockSize; omega)]
    exact Reaches.refl _
  | succ n ih =>
    refine Reaches.tick (by simp [hp]) (tick_send hp (by omega)) ?_
    rw [afterSend_more (by show s.byteIdx + 1 < Config.blockSize; omega)]
    exact ih (s := { s with byteIdx := s.byteIdx + 1, bus := s.bus.xchg (Memory.read s.buf (off + s.byteIdx)) }) hp
      (by show s.byteIdx + 1 + _ = Config.blockSize; omega) hbuf

/-- R190 step 3 from the first byte on; the payload is named so that no proof runs the loop. -/
theorem run_payload {s : State} {off : Nat} (hp : s.phase = .send off) (h0 : s.byteIdx = 0)
    (hbuf : off + Config.blockSize ≤ s.bufLen) (payload : List Byte)
    (hpay : payload = Memory.readList s.buf off Config.blockSize) :
    Reaches s (ret (.fill .checksumOut 2 :: s.stack)
      { s with byteIdx := Config.blockSize, bus := Bus.send payload s.bus }) := by
  have gen : ∀ n, n + 1 = Config.blockSize → payload = Memory.readList s.buf off (n + 1) →
      Reaches s (ret (.fill .checksumOut 2 :: s.stack)
        { s with byteIdx := Config.blockSize, bus := Bus.send payload s.bus }) := by
    intro n hn hpay
    have := run_send_payload hp n (by omega) hbuf
    rw [h0, Nat.add_zero, ← hpay] at this
    exact this
  obtain ⟨n, hn⟩ : ∃ n, n + 1 = Config.blockSize := ⟨511, rfl⟩
  exact gen n hn (by rw [hpay, hn])

/-- R191: the accepted data response. -/
theorem run_dresp_accepted {s : State} (hp : s.phase = .dresp) (h : drespAccepts s.cfg s.bus.answer = true) :
    Reaches s (ret s.stack { s with dresp := s.bus.answer, bus := s.bus.xchg Config.fill }) := by
  refine Reaches.tick (by simp [hp]) (tick_dresp hp) ?_
  rw [afterDresp_accepted (by exact h)]
  exact Reaches.refl _

/-- R191: a rejected data response: RELEASE, IOError(data_rejected), nothing else. -/
theorem run_dresp_rejected {s : State} (hp : s.phase = .dresp) (h : drespAccepts s.cfg s.bus.answer = false) :
    Reaches s (raise (.ioError (.dataRejected s.bus.answer))
      { s with cs := false, dresp := s.bus.answer, bus := (s.bus.xchg Config.fill).release }) := by
  refine Reaches.tick (by simp [hp]) (tick_dresp hp) ?_
  rw [afterDresp_rejected (by exact h)]
  exact run_fail _ _

/-- R192: the first non-zero byte, within the budget, ends the wait. -/
theorem run_busy {s : State} (hp : s.phase = .busy) (n : Nat) (x : Byte) (hx : x ≠ 0)
    (hlen : busyWithin s.cfg (s.busyCnt + n))
    (hans : Bus.answers (fills (n + 1)) s.bus = List.replicate n 0 ++ [x]) :
    Reaches s (ret s.stack
      { s with busyCnt := s.busyCnt + n + 1, bus := Bus.send (fills (n + 1)) s.bus }) := by
  induction n generalizing s with
  | zero =>
    have h0 : s.bus.answer = x := by simpa [Bus.answers] using hans
    refine Reaches.tick (by simp [hp]) (tick_busy hp) ?_
    rw [h0, afterBusy_done hx]
    exact Reaches.refl _
  | succ n ih =>
    obtain ⟨h0, h1⟩ : s.bus.answer = 0 ∧
        Bus.answers (fills (n + 1)) (s.bus.xchg Config.fill) = List.replicate n 0 ++ [x] := by
      simpa [Bus.answers, List.replicate_succ] using hans
    have hne : busyBudgetSpent s.cfg (s.busyCnt + 1) = false := by
      cases hb : s.cfg.busyBudget with
      | none => simp [busyBudgetSpent, hb]
      | some m =>
        have := hlen m hb
        simp [busyBudgetSpent, hb]; omega
    refine Reaches.tick (by simp [hp]) (tick_busy hp) ?_
    rw [h0, afterBusy_more (by exact hne)]
    have := ih (s := { s with busyCnt := s.busyCnt + 1, bus := s.bus.xchg Config.fill }) hp
      (fun m hm => by have := hlen m hm; show s.busyCnt + 1 + n < m; omega) h1
    have hc : s.busyCnt + 1 + n + 1 = s.busyCnt + (n + 1) + 1 := by omega
    simp only [hc] at this
    exact this

/-- R192: a finite budget is spent: exactly the budget's polls, then RELEASE and IOTimeout. -/
theorem run_busy_timeout {s : State} (hp : s.phase = .busy) (n : Nat)
    (hn : s.cfg.busyBudget = some (s.busyCnt + (n + 1)))
    (hans : Bus.answers (fills (n + 1)) s.bus = List.replicate (n + 1) 0) :
    Reaches s (raise (.ioTimeout .writeCompletion)
      { s with cs := false, busyCnt := s.busyCnt + (n + 1), bus := (Bus.send (fills (n + 1)) s.bus).release }) := by
  induction n generalizing s with
  | zero =>
    have h0 : s.bus.answer = 0 := by simpa [Bus.answers] using hans
    have hsp : busyBudgetSpent s.cfg (s.busyCnt + 1) = true := by simpa [busyBudgetSpent] using hn
    refine Reaches.tick (by simp [hp]) (tick_busy hp) ?_
    rw [h0, afterBusy_last (by exact hsp)]
    exact run_fail _ _
  | succ n ih =>
    obtain ⟨h0, h1⟩ : s.bus.answer = 0 ∧
        Bus.answers (fills (n + 1)) (s.bus.xchg Config.fill) = List.replicate (n + 1) 0 := by
      simpa [Bus.answers, List.replicate_succ] using hans
    have hne : busyBudgetSpent s.cfg (s.busyCnt + 1) = false := by simp [busyBudgetSpent, hn]
    refine Reaches.tick (by simp [hp]) (tick_busy hp) ?_
    rw [h0, afterBusy_more (by exact hne)]
    have := ih (s := { s with busyCnt := s.busyCnt + 1, bus := s.bus.xchg Config.fill }) hp
      (by show s.cfg.busyBudget = some (s.busyCnt + 1 + _); rw [hn]; congr 1; omega) h1
    have hc : s.busyCnt + 1 + (n + 1) = s.busyCnt + (n + 1 + 1) := by omega
    simp only [hc] at this
    exact this

end Sys2Proof.Machine
end

