-- ==== Sys2Proof/Laws/Paths.lean ====
section
/-! SUPPORT. The micro-operations run whole, each in terms of the card's answers (Safety): AWAIT_RESPONSE, CMD, RECV_BLOCK,
SEND_BLOCK, BUSY_WAIT and the two per-block loops; and how an operation is accepted. -/

namespace Sys2Proof.Machine

theorem fills_add (m n : Nat) : fills (m + n) = fills m ++ fills n := by
  simp only [fills, List.replicate_add]

theorem Bus.answers_append (xs ys : List Byte) (b : Bus) :
    Bus.answers (xs ++ ys) b = Bus.answers xs b ++ Bus.answers ys (Bus.send xs b) := by
  induction xs generalizing b with
  | nil => rfl
  | cons x xs ih => simp [Bus.answers, ih]

/-- The answers to m fillers, then to n more, taken apart. -/
theorem Bus.answers_split {m n : Nat} {b : Bus} {l l' : List Byte} (hl : l.length = m)
    (h : Bus.answers (fills (m + n)) b = l ++ l') :
    Bus.answers (fills m) b = l ∧ Bus.answers (fills n) (Bus.send (fills m) b) = l' := by
  rw [fills_add, Bus.answers_append] at h
  exact List.append_inj h (by simp [hl])

theorem Bus.send_fills (m n : Nat) (b : Bus) : Bus.send (fills n) (Bus.send (fills m) b) = Bus.send (fills (m + n)) b := by
  rw [fills_add, Bus.send_append]

theorem isStatusByte_statusByte (f : BitVec 7) : isStatusByte (statusByte f) = true := by
  revert f; decide

theorem statusBits_statusByte (f : BitVec 7) : statusBits (statusByte f) = f := by
  revert f; decide

/-! ### Accepting an operation -/

theorem begin_accepting {s : State} (h : s.accepting) (k : State → Out) :
    begin s k = k { s with err := none, result := .none } := by
  simp [begin, h.1, h.2.1]

theorem begin_pending {s : State} (h1 : s.phase = .idle) (h2 : s.pending = true) (k : State → Out) :
    begin s k = .refused .responsePollDue := by simp [begin, h1, h2]

theorem begin_in_flight {s : State} (h : s.phase ≠ .idle) (k : State → Out) :
    begin s k = .refused .operationInFlight := by simp [begin, h]

/-- The first tick of an operation in flight, and then the rest: it reaches what the whole run reaches. -/
theorem issue {s u : State} (hp : s.phase ≠ .idle) (hu : u.phase = .idle) (h : Reaches s u) (hn : s ≠ u) :
    ∃ t, tick s = .next t ∧ Reaches t u := by
  obtain ⟨k, hk⟩ := h
  cases k with
  | zero => cases hk; exact absurd rfl hn
  | succ k =>
    simp only [Host.Core.run] at hk
    split at hk
    · rename_i t ht
      exact ⟨t, by rw [← step_in_flight hp]; exact ht, ⟨k, hk⟩⟩
    · cases hk
    · cases hk

/-- The same for a run that ends between operations. -/
theorem issue_idle {s u : State} (hp : s.phase ≠ .idle) (hu : u.phase = .idle) (h : Reaches s u) :
    ∃ t, tick s = .next t ∧ Reaches t u :=
  issue hp hu h (by rintro rfl; exact hp hu)

/-! ### AWAIT_RESPONSE and CMD -/

/-- The poll, from the exchange that skips a lead byte, if any. -/
theorem run_lead {s : State} {e : Nat} {r k : Bool} (hp : s.phase = if k then .skipLead e r else .poll e r) :
    Reaches s { s with phase := .poll e r, bus := Bus.send (fills k.toNat) s.bus } := by
  cases k with
  | false =>
    have hp : s.phase = .poll e r := hp
    have : ({ s with phase := .poll e r, bus := Bus.send (fills (false).toNat) s.bus } : State) = s := by
      rw [← hp]; rfl
    rw [this]
    exact Reaches.refl _
  | true =>
    have hp : s.phase = .skipLead e r := hp
    exact Reaches.tick (by simp [hp]) (tick_skipLead hp) (Reaches.refl _)

/-- R124, a status byte within the budget. -/
theorem run_await_status (e : Nat) (r k : Bool) (ks : List Cont) (s : State) {lead junk : List Byte} {f : BitVec 7}
    (h : StatusAnswered k lead junk f s.bus) :
    Reaches (enterAwait e r k ks s)
      (ret ks
        { s with
          pending := false
          pollCnt := junk.length + 1
          resp := .status f
          cs := s.cs && !r
          bus := Bus.releaseIf r (Bus.send (fills e) (Bus.send (fills (lead.length + (junk.length + 1))) s.bus)) }) := by
  obtain ⟨hl, hj, hb, hbytes⟩ := h
  obtain ⟨-, h2⟩ := Bus.answers_split rfl hbytes
  refine Reaches.trans (run_lead (k := k) (by rw [enterAwait_eq])) ?_
  refine Reaches.trans (run_poll_status (e := e) (r := r) rfl junk (statusByte f) hj (isStatusByte_statusByte f)
    (by show 0 + junk.length < _; omega) (by rw [← hl]; exact h2)) ?_
  refine Reaches.trans (run_ret_fill _ _ _ _) ?_
  refine Reaches.trans (run_releaseIf _ _ _) ?_
  refine Reaches.ret_at ks _ (.poll e r) ks ?_
  simp only [enterAwait_eq, statusBits_statusByte, Bus.send_fills, Bus.releaseIf, Nat.zero_add, hl]

/-- R124, no status byte within the budget. -/
theorem run_await_timeout (e : Nat) (r k : Bool) (ks : List Cont) (s : State) (h : NoStatus k s.bus) :
    Reaches (enterAwait e r k ks s)
      (ret ks
        { s with
          pending := false
          pollCnt := Config.respBudget
          resp := .timeout
          cs := s.cs && !r
          bus := Bus.releaseIf r (Bus.send (fills (k.toNat + Config.respBudget)) s.bus) }) := by
  have h2 : ∀ y ∈ Bus.answers (fills Config.respBudget) (Bus.send (fills k.toNat) s.bus), isStatusByte y = false := by
    intro y hy
    refine h y ?_
    rw [fills_add, Bus.answers_append, List.drop_append_of_le_length (by simp), List.drop_of_length_le (by simp)]
    simpa using hy
  refine Reaches.trans (run_lead (k := k) (by rw [enterAwait_eq])) ?_
  refine Reaches.trans (run_poll_timeout (e := e) (r := r) rfl (Config.respBudget - 1)
    (by show 0 + (Config.respBudget - 1 + 1) = Config.respBudget; decide) h2) ?_
  refine Reaches.trans (run_releaseIf _ _ _) ?_
  refine Reaches.ret_at ks _ (.poll e r) ks ?_
  simp only [enterAwait_eq, Bus.send_fills, Bus.releaseIf]
  rfl

/-- R125: the frame and its poll, a status byte within the budget. -/
theorem run_cmd_status (i : Index) (a : Arg) (c : Crc7) (e : Nat) (r k : Bool) (ks : List Cont) (s : State)
    {lead junk : List Byte} {f : BitVec 7} (h : StatusAnswered k lead junk f (s.bus.command i a c)) :
    Reaches (enterSend i a c (.await e r k :: ks) s)
      (ret ks
        { s with
          cs := !r
          frame := build i a c
          pending := false
          pollCnt := junk.length + 1
          resp := .status f
          bus := Bus.releaseIf r
            (Bus.send (fills e) (Bus.send (fills (lead.length + (junk.length + 1))) (s.bus.command i a c))) }) := by
  refine Reaches.trans (run_send rfl) ?_
  refine Reaches.trans (run_await_status e r k ks _ (f := f) (lead := lead) (junk := junk) h) ?_
  refine Reaches.ret_at ks _ (.assert i a c) (.await e r k :: ks) ?_
  simp [enterSend_eq, Bus.command]

/-- R125: the frame and its poll, no status byte. -/
theorem run_cmd_timeout (i : Index) (a : Arg) (c : Crc7) (e : Nat) (r k : Bool) (ks : List Cont) (s : State)
    (h : NoStatus k (s.bus.command i a c)) :
    Reaches (enterSend i a c (.await e r k :: ks) s)
      (ret ks
        { s with
          cs := !r
          frame := build i a c
          pending := false
          pollCnt := Config.respBudget
          resp := .timeout
          bus := Bus.releaseIf r (Bus.send (fills (k.toNat + Config.respBudget)) (s.bus.command i a c)) }) := by
  refine Reaches.trans (run_send rfl) ?_
  refine Reaches.trans (run_await_timeout e r k ks _ h) ?_
  refine Reaches.ret_at ks _ (.assert i a c) (.await e r k :: ks) ?_
  simp [enterSend_eq, Bus.command]

/-! ### Receiving blocks -/

/-- R171, entered and run to the token. -/
theorem run_waitToken (ks : List Cont) (s : State) (junk : List Byte)
    (hj : ∀ y ∈ junk, y ≠ s.cfg.tokenDataStart) (hlen : junk.length < s.cfg.tokenBudget)
    (hans : Bus.answers (fills (junk.length + 1)) s.bus = junk ++ [s.cfg.tokenDataStart]) :
    Reaches (enterWaitToken ks s)
      (ret ks
        { s with
          tok := s.cfg.tokenDataStart
          tokenCnt := junk.length + 1
          bus := Bus.send (fills (junk.length + 1)) s.bus }) := by
  have hne : s.cfg.tokenBudget ≠ 0 := by omega
  unfold enterWaitToken
  rw [if_neg hne]
  refine Reaches.trans (run_token rfl junk hj (by show 0 + _ < s.cfg.tokenBudget; omega) hans) ?_
  refine Reaches.ret_at ks _ .token ks ?_
  simp

/-- R171, entered and run to the end of its budget. -/
theorem run_waitToken_timeout (ks : List Cont) (s : State)
    (hans : ∀ y ∈ Bus.answers (fills s.cfg.tokenBudget) s.bus, y ≠ s.cfg.tokenDataStart) :
    ∃ t, Reaches (enterWaitToken ks s) (raise (.ioTimeout .waitingForData)
      { s with
        cs := false
        tok := t
        tokenCnt := s.cfg.tokenBudget
        bus := (Bus.send (fills s.cfg.tokenBudget) s.bus).release }) ∧
      t = (s.tok :: Bus.answers (fills s.cfg.tokenBudget) s.bus).getLast (by simp) := by
  refine ⟨_, ?_, rfl⟩
  unfold enterWaitToken
  cases hb : s.cfg.tokenBudget with
  | zero =>
    rw [if_pos rfl]
    refine Reaches.trans (run_fail _ _) ?_
    simp [Bus.answers]
    exact Reaches.refl _
  | succ n =>
    rw [if_neg (Nat.succ_ne_zero n)]
    refine Reaches.trans (run_token_timeout rfl n (by show 0 + _ = s.cfg.tokenBudget; omega)
      (by rw [hb] at hans; exact hans)) ?_
    simp only [hb, raise, endOperation, Bus.answers, fills_succ, Bus.send_cons]
    simp only [List.getLastD_cons, List.getLast_cons_cons]
    have : ∀ (l : List Byte) (x : Byte), l.getLastD x = (x :: l).getLast (by simp) := by
      intro l x
      cases l <;> simp [List.getLastD, List.getLast]
    simp only [this]
    exact Reaches.refl _

/-- R172 whole. -/
theorem run_recvBlock (d : Dest) (off : Nat) (ks : List Cont) (s : State) {junk payload : List Byte}
    (hpos : payload ≠ []) (hbuf : off + payload.length ≤ d.len s.bufLen) (h : BlockAnswered s.cfg junk payload s.bus) :
    Reaches (enterRecvBlock d off payload.length ks s)
      (ret ks
        (d.put (Memory.writeList (d.bytes s) off payload)
          { s with
            tok := s.cfg.tokenDataStart
            tokenCnt := junk.length + 1
            byteIdx := payload.length
            bus := Bus.send (fills (recvLen junk payload)) s.bus })) := by
  obtain ⟨hj, hb, hbytes⟩ := h
  rw [← List.singleton_append, ← List.append_assoc] at hbytes
  obtain ⟨h1, h2⟩ := Bus.answers_split (by simp) hbytes
  obtain ⟨x, rest, rfl⟩ := List.exists_cons_of_ne_nil hpos
  refine Reaches.trans (run_waitToken _ s junk hj hb h1) ?_
  rw [ret]
  refine Reaches.trans (run_recv rfl x rest (by show 0 + _ = _; simp) (by cases d <;> exact hbuf) h2) ?_
  refine Reaches.trans (run_ret_fill _ _ _ _) ?_
  refine Reaches.ret_at ks _ (.recv d off (x :: rest).length) ks ?_
  cases d <;> simp only [Dest.put, Dest.bytes, Nat.add_zero, Bus.send_fills, recvLen, List.length_cons]

theorem Memory.writeList_append (m : List Host.Cell) (a : Nat) (xs ys : List Byte) :
    Memory.writeList m a (xs ++ ys) = Memory.writeList (Memory.writeList m a xs) (a + xs.length) ys := by
  induction xs generalizing m a with
  | nil => rfl
  | cons x xs ih =>
    simp only [List.cons_append, Memory.writeList, ih, List.length_cons]
    congr 1; omega

/-- R174 step 4, from block k on, to its end. -/
theorem run_readFrom (ks : List Cont) (blocks : List (List Byte × List Byte)) : ∀ (k : Nat) (s : State),
    k + blocks.length = s.blkN → Config.blockSize * s.blkN ≤ s.bufLen → BlocksAnswered s.cfg blocks s.bus →
    Reaches (ret (.readFrom k :: ks) s)
      (ret ks
        { s with
          blkIdx := s.blkN
          tok := blocks.foldl (fun _ _ => s.cfg.tokenDataStart) s.tok
          tokenCnt := blocks.foldl (fun _ x => x.1.length + 1) s.tokenCnt
          byteIdx := blocks.foldl (fun _ _ => Config.blockSize) s.byteIdx
          buf := Memory.writeList s.buf (Config.blockSize * k) (blocks.flatMap (·.2))
          bus := s.bus.recvBlocks blocks }) := by
  induction blocks with
  | nil =>
    intro k s hk hbuf _
    have hk' : ¬ k < s.blkN := by simp at hk; omega
    have hk'' : k = s.blkN := by simpa using hk
    rw [ret, if_neg hk']
    subst hk''
    exact Reaches.refl _
  | cons x rest ih =>
    obtain ⟨junk, payload⟩ := x
    intro k s hk hbuf hb
    obtain ⟨hlen, hb, hrest⟩ := hb
    have hk' : k < s.blkN := by simp at hk; omega
    rw [ret, if_pos hk', ← hlen]
    refine Reaches.trans (run_recvBlock .host (payload.length * k) _ _ (junk := junk) (payload := payload)
      (by rintro rfl; simp [Config.blockSize] at hlen) ?_ hb) ?_
    · rw [hlen]
      have : Config.blockSize * (k + 1) ≤ Config.blockSize * s.blkN := Nat.mul_le_mul_left _ hk'
      rw [Nat.mul_succ] at this
      show Config.blockSize * k + Config.blockSize ≤ s.bufLen
      omega
    · refine Reaches.trans (ih (k + 1) _ (by simp at hk ⊢; omega) hbuf hrest) ?_
      simp only [List.foldl_cons, List.flatMap_cons, Memory.writeList_append, hlen, Bus.recvBlocks, Nat.mul_succ]
      exact Reaches.refl _

/-! ### Sending blocks -/

/-- R192, entered and run to a non-zero byte. -/
theorem run_busyWait (ks : List Cont) (s : State) {n : Nat} {last : Byte} (h : BusyAnswered s.cfg n last s.bus) :
    Reaches (enterBusyWait ks s)
      (ret ks { s with busyCnt := n + 1, bus := Bus.send (fills (n + 1)) s.bus }) := by
  obtain ⟨hl, hw, hb⟩ := h
  have h0 : busyBudgetSpent s.cfg 0 = false := by
    cases hbb : s.cfg.busyBudget with
    | none => simp [busyBudgetSpent, hbb]
    | some m =>
      have := hw m hbb
      simp [busyBudgetSpent, hbb]; omega
  unfold enterBusyWait
  rw [if_neg (by simp [h0])]
  refine Reaches.trans (run_busy rfl n last hl (by show busyWithin s.cfg (0 + n); simpa using hw) hb) ?_
  refine Reaches.ret_at ks _ .busy ks ?_
  simp

/-- R192, entered and run to the end of a finite budget. -/
theorem run_busyWait_timeout (ks : List Cont) (s : State) {n : Nat} (hn : s.cfg.busyBudget = some n)
    (h : Bus.answers (fills n) s.bus = List.replicate n 0) :
    Reaches (enterBusyWait ks s) (raise (.ioTimeout .writeCompletion)
      { s with cs := false, busyCnt := n, bus := (Bus.send (fills n) s.bus).release }) := by
  unfold enterBusyWait
  cases n with
  | zero =>
    rw [if_pos (by simp [busyBudgetSpent, hn])]
    exact run_fail _ _
  | succ n =>
    rw [if_neg (by simp [busyBudgetSpent, hn])]
    refine Reaches.trans (run_busy_timeout rfl n (by show s.cfg.busyBudget = some (0 + _); simpa using hn) h) ?_
    simp only [Nat.zero_add, raise, endOperation]
    exact Reaches.refl _

/-- R190 whole. -/
theorem run_sendBlock (t : DataToken) (off : Nat) (ks : List Cont) (s : State) {x : Taken}
    (hbuf : off + Config.blockSize ≤ s.bufLen)
    (h : BlockAccepted s.cfg x.dresp x.busy x.last
      (Bus.send (blockOut (tokenByte s.cfg t) (Memory.readList s.buf off Config.blockSize)) s.bus)) :
    Reaches (enterSendBlock t off ks s)
      (ret ks
        { s with
          byteIdx := Config.blockSize
          dresp := x.dresp
          busyCnt := x.busy + 1
          bus := s.bus.sendBlock (tokenByte s.cfg t) (Memory.readList s.buf off Config.blockSize) x }) := by
  obtain ⟨ha, hacc, hbusy⟩ := h
  have hout : ∀ l : List Byte, Bus.send (blockOut (tokenByte s.cfg t) l) s.bus
      = Bus.send (fills 2) (Bus.send l (s.bus.xchg (tokenByte s.cfg t))) := by
    intro l; rw [blockOut, Bus.send_cons, Bus.send_append]
  rw [hout] at ha hbusy
  refine Reaches.trans (run_tx rfl) ?_
  rw [enterSendBlock_eq, ret]
  have hpay : ∃ l, l = Memory.readList s.buf off Config.blockSize := ⟨_, rfl⟩
  obtain ⟨payload, hpay⟩ := hpay
  rw [← hpay] at ha hbusy ⊢
  refine Reaches.trans (run_payload (off := off) rfl rfl (by exact hbuf) payload (by exact hpay)) ?_
  dsimp only
  refine Reaches.trans (run_ret_fill _ _ _ _) ?_
  rw [ret]
  refine Reaches.trans (run_dresp_accepted rfl (by dsimp only; rw [ha]; exact hacc)) ?_
  dsimp only
  rw [ret, ha]
  refine Reaches.trans (run_busyWait ks _ (n := x.busy) (last := x.last) (by exact hbusy)) ?_
  refine Reaches.ret_at ks _ .dresp (.busyWait :: ks) ?_
  simp only [Bus.sendBlock, hout]
  rfl

/-- R194 step 4, from block k on, to its end. -/
theorem run_writeFrom (ks : List Cont) (xs : List Taken) : ∀ (k : Nat) (s : State),
    k + xs.length = s.blkN → Config.blockSize * s.blkN ≤ s.bufLen → BlocksAccepted s.cfg s.buf k xs s.bus →
    Reaches (ret (.writeFrom k :: ks) s)
      (ret ks
        { s with
          blkIdx := s.blkN
          byteIdx := xs.foldl (fun _ _ => Config.blockSize) s.byteIdx
          dresp := xs.foldl (fun _ x => x.dresp) s.dresp
          busyCnt := xs.foldl (fun _ x => x.busy + 1) s.busyCnt
          bus := s.bus.sendBlocks s.cfg s.buf k xs }) := by
  induction xs with
  | nil =>
    intro k s hk hbuf _
    have hk' : ¬ k < s.blkN := by simp at hk; omega
    have hk'' : k = s.blkN := by simpa using hk
    rw [ret, if_neg hk']
    subst hk''
    exact Reaches.refl _
  | cons x rest ih =>
    intro k s hk hbuf hb
    obtain ⟨hb, hrest⟩ := hb
    have hk' : k < s.blkN := by simp at hk; omega
    rw [ret, if_pos hk']
    refine Reaches.trans (run_sendBlock .multiWrite _ _ _ (x := x) ?_ hb) ?_
    · have : Config.blockSize * (k + 1) ≤ Config.blockSize * s.blkN := Nat.mul_le_mul_left _ hk'
      rw [Nat.mul_succ] at this
      show Config.blockSize * k + Config.blockSize ≤ s.bufLen
      omega
    · refine Reaches.trans (ih (k + 1) _ (by simp at hk ⊢; omega) hbuf hrest) ?_
      simp only [List.foldl_cons, Bus.sendBlocks]
      exact Reaches.refl _

/-! ### Answers the card has lined up -/

/-- What is lined up is what is answered. -/
theorem Bus.answers_of_cardIn (os : List Byte) : ∀ {b : Bus} {l rest : List Byte}, b.cardIn = l ++ rest →
    l.length = os.length → Bus.answers os b = l := by
  induction os with
  | nil => intro b l rest _ h; simpa [Bus.answers] using (List.length_eq_zero_iff.1 h).symm
  | cons o os ih =>
    intro b l rest hc h
    obtain ⟨x, l, rfl⟩ := List.exists_cons_of_length_eq_add_one h
    rw [Bus.answers, Bus.answer_of_cons hc, ih (l := l) (rest := rest) (by simp [hc]) (by simpa using h)]

@[simp] theorem Bus.command_cardIn (i : Index) (a : Arg) (c : Crc7) (b : Bus) :
    (b.command i a c).cardIn = b.cardIn.drop 6 := by
  rw [Bus.command, Bus.send_cardIn, Bus.note_cardIn]; rfl

theorem StatusAnswered.of_cardIn {skip : Bool} {lead junk rest : List Byte} {f : BitVec 7} {b : Bus}
    (hl : lead.length = skip.toNat) (hj : ∀ y ∈ junk, isStatusByte y = false) (hb : junk.length < Config.respBudget)
    (hc : b.cardIn = (lead ++ (junk ++ [statusByte f])) ++ rest) : StatusAnswered skip lead junk f b :=
  ⟨hl, hj, hb, Bus.answers_of_cardIn _ hc (by simp)⟩

theorem NoStatus.of_cardIn {skip : Bool} {lead bytes rest : List Byte} {b : Bus} (hl : lead.length = skip.toNat)
    (hn : bytes.length = Config.respBudget) (hj : ∀ y ∈ bytes, isStatusByte y = false)
    (hc : b.cardIn = (lead ++ bytes) ++ rest) : NoStatus skip b := by
  intro y hy
  rw [Bus.answers_of_cardIn _ hc (by simp [hl, hn]), ← hl] at hy
  exact hj y (by simpa using hy)

theorem BlockAnswered.of_cardIn {p : Params} {junk payload rest : List Byte} {b : Bus}
    (hj : ∀ y ∈ junk, y ≠ p.tokenDataStart) (hb : junk.length < p.tokenBudget)
    (hc : b.cardIn = (junk ++ (p.tokenDataStart :: payload)) ++ rest) : BlockAnswered p junk payload b :=
  ⟨hj, hb, Bus.answers_of_cardIn _ hc (by simp; omega)⟩

theorem BusyAnswered.of_cardIn {p : Params} {n : Nat} {last : Byte} {rest : List Byte} {b : Bus} (hl : last ≠ 0)
    (hw : busyWithin p n) (hc : b.cardIn = (List.replicate n 0 ++ [last]) ++ rest) : BusyAnswered p n last b :=
  ⟨hl, hw, Bus.answers_of_cardIn _ hc (by simp)⟩

theorem BlockAccepted.of_cardIn {p : Params} {r last : Byte} {n : Nat} {rest : List Byte} {b : Bus}
    (ha : drespAccepts p r = true) (hl : last ≠ 0) (hw : busyWithin p n)
    (hc : b.cardIn = r :: ((List.replicate n 0 ++ [last]) ++ rest)) : BlockAccepted p r n last b :=
  ⟨Bus.answer_of_cons hc, ha, BusyAnswered.of_cardIn (rest := rest) hl hw (by simp [hc])⟩

/-! ### The rows the card sends, by constructor -/

section
variable (p : Params)

@[simp] theorem fromCard_tokenDataStart : fromCard p .tokenDataStart = some [p.tokenDataStart] := rfl
@[simp] theorem fromCard_r1 (f) : fromCard p (.r1 f) = some [statusByte f] := rfl
@[simp] theorem fromCard_r1Tail (f x) : fromCard p (.r1Tail f x) = some (statusByte f :: tailBytes x) := rfl
@[simp] theorem fromCard_notStatus (x) : fromCard p (.notStatus x) = some [notStatusByte x] := rfl
@[simp] theorem fromCard_drespAccepted (x) : fromCard p (.drespAccepted x) = some [drespByte x p.drespAccept] := rfl
@[simp] theorem fromCard_busy : fromCard p .busy = some [0] := rfl
@[simp] theorem fromCard_dblkR (skipped payload c0 c1) :
    fromCard p (.dblkR skipped payload c0 c1) = some (blockInBytes p skipped payload c0 c1) := rfl

end

/-- Bytes lined up for as many exchanges are what those exchanges receive. -/
theorem answers_lined (bs : List Byte) : ∀ b : Bus,
    Bus.answers (fills bs.length) { b with cardIn := bs ++ b.cardIn } = bs := by
  induction bs with
  | nil => intro b; rfl
  | cons x bs ih =>
    intro b
    have hx : Bus.xchg Config.fill { b with cardIn := (x :: bs) ++ b.cardIn } =
        { ({ b with hist := .xchg Config.fill x :: b.hist } : Bus) with cardIn := bs ++ b.cardIn } := rfl
    have hih := ih { b with hist := .xchg Config.fill x :: b.hist }
    simp only [fills, List.length_cons, List.replicate_succ, Bus.answers] at hih ⊢
    rw [hx, hih]
    rfl

end Sys2Proof.Machine
end

