-- ==== Sys2Proof/Laws/PerInstr.lean ====
section
/-! SUPPORT. The statement made per instruction: a well-formed instruction in its canonical spelling that has bytes is what
the decoder reads from those bytes at its position on the bus. Calls have no bytes (R91), so theirs is empty. -/

namespace Sys2Proof.Laws.RoundTrip

/-- R80 to R94: decode after encode, for the instruction i under every legal choice of the parameters. -/
def Statement (i : Instr) : Prop :=
  ∀ p : Params, p.wf = true → i.wellFormed p = true → i.canonical = true →
    ∀ bs sl, encode p i = some bs → i.slot = some sl → decodeAt p sl bs = .ok i

/-- A call has no bytes. -/
theorem of_call {i : Instr} (h : ∀ p, encode p i = none) : Statement i := by
  intro p _ _ _ bs sl hb _
  rw [h] at hb
  cases hb

/-- The bytes and the position are the ones the tables give. -/
theorem of_bytes {i : Instr} {bs : Params → List Byte} {sl : Slot} (hb : ∀ p, encode p i = some (bs p))
    (hs : i.slot = some sl)
    (h : ∀ p : Params, p.wf = true → i.wellFormed p = true → i.canonical = true → decodeAt p sl (bs p) = .ok i) :
    Statement i := by
  intro p hp hw hc bs' sl' hb' hs'
  rw [hb] at hb'
  rw [hs] at hs'
  cases hb'
  cases hs'
  exact h p hp hw hc

/-- A frame decodes as `decodeFrame_build` says. -/
theorem of_frame {i : Instr} {k : Index} {a : Arg} {c : Crc7} (hb : ∀ p, encode p i = encodeFrame k a c)
    (hs : i.slot = some .commandFrame) (h : i.canonical = true → decodeFrame (build k a c) = .ok i) : Statement i :=
  of_bytes hb hs fun _ _ _ hc => by
    rw [decodeAt, decodeFrameBytes_frameBytes]
    exact h hc

theorem cmd0 (a : Arg) (c : Crc7) : Statement (.cmd0 a c) :=
  of_frame (fun _ => rfl) rfl fun _ => by rw [decodeFrame_build]; rfl

theorem cmd8 (a : Arg) (c : Crc7) : Statement (.cmd8 a c) :=
  of_frame (fun _ => rfl) rfl fun _ => by rw [decodeFrame_build]; rfl

theorem cmd9 (a : Arg) (c : Crc7) : Statement (.cmd9 a c) :=
  of_frame (fun _ => rfl) rfl fun _ => by rw [decodeFrame_build]; rfl

theorem cmd12 (a : Arg) (c : Crc7) : Statement (.cmd12 a c) :=
  of_frame (fun _ => rfl) rfl fun _ => by rw [decodeFrame_build]; rfl

theorem cmd16 (a : Arg) (c : Crc7) : Statement (.cmd16 a c) :=
  of_frame (fun _ => rfl) rfl fun _ => by rw [decodeFrame_build]; rfl

theorem cmd17 (a : Arg) (c : Crc7) : Statement (.cmd17 a c) :=
  of_frame (fun _ => rfl) rfl fun _ => by rw [decodeFrame_build]; rfl

theorem cmd18 (a : Arg) (c : Crc7) : Statement (.cmd18 a c) :=
  of_frame (fun _ => rfl) rfl fun _ => by rw [decodeFrame_build]; rfl

theorem cmd24 (a : Arg) (c : Crc7) : Statement (.cmd24 a c) :=
  of_frame (fun _ => rfl) rfl fun _ => by rw [decodeFrame_build]; rfl

theorem cmd25 (a : Arg) (c : Crc7) : Statement (.cmd25 a c) :=
  of_frame (fun _ => rfl) rfl fun _ => by rw [decodeFrame_build]; rfl

theorem acmd41 (a : Arg) (c : Crc7) : Statement (.acmd41 a c) :=
  of_frame (fun _ => rfl) rfl fun _ => by rw [decodeFrame_build]; rfl

theorem cmd55 (a : Arg) (c : Crc7) : Statement (.cmd55 a c) :=
  of_frame (fun _ => rfl) rfl fun _ => by rw [decodeFrame_build]; rfl

theorem cmd58 (a : Arg) (c : Crc7) : Statement (.cmd58 a c) :=
  of_frame (fun _ => rfl) rfl fun _ => by rw [decodeFrame_build]; rfl

theorem cfAny (i : Index) (a : Arg) (c : Crc7) : Statement (.cfAny i a c) :=
  of_frame (fun _ => rfl) rfl fun hc => by
    have hn : namedIndex i = false := by simpa [Instr.canonical] using hc
    simp only [namedIndex, List.contains_eq_mem, List.mem_cons, List.not_mem_nil, or_false, decide_eq_false_iff_not,
      not_or] at hn
    obtain ⟨h0, h8, h9, h12, h16, h17, h18, h24, h25, h41, h55, h58⟩ := hn
    rw [decodeFrame_build]
    exact (if_neg h0).trans <| (if_neg h8).trans <| (if_neg h9).trans <| (if_neg h12).trans <| (if_neg h16).trans <|
      (if_neg h17).trans <| (if_neg h18).trans <| (if_neg h24).trans <| (if_neg h25).trans <| (if_neg h41).trans <|
      (if_neg h55).trans <| if_neg h58

theorem tokenDataStart : Statement .tokenDataStart :=
  of_bytes (fun _ => rfl) rfl fun _ _ _ _ => if_pos rfl

theorem tokenMultiWrite : Statement .tokenMultiWrite :=
  of_bytes (fun _ => rfl) rfl fun _ hp _ _ => (if_neg (tokens_distinct hp).1).trans (if_pos rfl)

theorem tokenStopTran : Statement .tokenStopTran :=
  of_bytes (fun _ => rfl) rfl fun _ hp _ _ =>
    (if_neg (tokens_distinct hp).2.1).trans ((if_neg (tokens_distinct hp).2.2).trans (if_pos rfl))

theorem r1 (f : BitVec 7) : Statement (.r1 f) :=
  of_bytes (fun _ => rfl) rfl fun _ _ _ _ => congrArg Except.ok (decodePolled_statusByte f)

theorem r1Tail (f : BitVec 7) (x : BitVec 32) : Statement (.r1Tail f x) :=
  of_bytes (fun _ => rfl) rfl fun _ _ _ _ => decodeStatusTail_bytes f x

theorem notStatus (x : BitVec 7) : Statement (.notStatus x) :=
  of_bytes (fun _ => rfl) rfl fun _ _ _ _ => congrArg Except.ok (decodePolled_notStatusByte x)

theorem drespAccepted (x : BitVec 3) : Statement (.drespAccepted x) :=
  of_bytes (fun _ => rfl) rfl fun p _ _ _ => decodeDresp_drespByte p x

theorem busy : Statement .busy := of_bytes (fun _ => rfl) rfl fun _ _ _ _ => rfl

theorem fill : Statement .fill := of_bytes (fun _ => rfl) rfl fun _ _ _ _ => rfl

theorem dblkR (skipped payload : List Byte) (c0 c1 : Byte) : Statement (.dblkR skipped payload c0 c1) :=
  of_bytes (fun _ => rfl) rfl fun p _ hw _ => by
    have h : p.tokenDataStart ∉ skipped := by
      have := (Bool.and_eq_true _ _ ▸ hw : _ ∧ _).2
      simpa using this
    exact decodeBlockIn_bytes p skipped payload c0 c1 [] h

theorem dblkW (t : DataToken) (payload : List Byte) : Statement (.dblkW t payload) :=
  of_bytes (fun _ => rfl) rfl fun p hp hw _ => by
    have h : payload.length = Config.blockSize := by simpa [Instr.wellFormed] using hw
    have hb := fun t => decodeBlockOutBody_bytes t payload h
    cases t
    · exact (if_pos rfl).trans (hb .dataStart)
    · exact (if_neg (tokens_distinct hp).1).trans ((if_pos rfl).trans (hb .multiWrite))

theorem sendCommand (i a c : Nat) : Statement (.sendCommand i a c) := of_call fun _ => rfl

theorem awaitResponse (e : Nat) (r k : Bool) : Statement (.awaitResponse e r k) := of_call fun _ => rfl

theorem readBlocks (b l : Nat) : Statement (.readBlocks b l) := of_call fun _ => rfl

theorem writeBlocks (b l : Nat) : Statement (.writeBlocks b l) := of_call fun _ => rfl

theorem blockCount : Statement .blockCount := of_call fun _ => rfl

theorem blockSize : Statement .blockSize := of_call fun _ => rfl

theorem control (o : ControlOp) : Statement (.control o) := of_call fun _ => rfl

theorem release : Statement .release := of_call fun _ => rfl

theorem clockIdle (n : Nat) : Statement (.clockIdle n) := of_call fun _ => rfl

theorem checkBuffer (l : Nat) : Statement (.checkBuffer l) := of_call fun _ => rfl

theorem waitToken : Statement .waitToken := of_call fun _ => rfl

theorem recvBlock (o n : Nat) : Statement (.recvBlock o n) := of_call fun _ => rfl

theorem readSingle (b : Nat) : Statement (.readSingle b) := of_call fun _ => rfl

theorem readMulti (b : Nat) : Statement (.readMulti b) := of_call fun _ => rfl

theorem readCsd : Statement .readCsd := of_call fun _ => rfl

theorem sendBlock (t : DataToken) (o : Nat) : Statement (.sendBlock t o) := of_call fun _ => rfl

theorem checkDresp : Statement .checkDresp := of_call fun _ => rfl

theorem busyWait : Statement .busyWait := of_call fun _ => rfl

theorem sendStop : Statement .sendStop := of_call fun _ => rfl

theorem writeSingle (b : Nat) : Statement (.writeSingle b) := of_call fun _ => rfl

theorem writeMulti (b : Nat) : Statement (.writeMulti b) := of_call fun _ => rfl

theorem cmd (i a e : Nat) (r k : Bool) : Statement (.cmd i a e r k) := of_call fun _ => rfl

theorem acmd (i a e : Nat) (r k : Bool) : Statement (.acmd i a e r k) := of_call fun _ => rfl

theorem build (i a c : Nat) : Statement (.build i a c) := of_call fun _ => rfl

theorem crc7Gen (b0 b1 b2 b3 b4 : Byte) : Statement (.crc7Gen b0 b1 b2 b3 b4) := of_call fun _ => rfl

theorem classify (r : Response) : Statement (.classify r) := of_call fun _ => rfl

end Sys2Proof.Laws.RoundTrip
end

