-- ==== Sys2Proof/Tests/Slice0.lean ====
section
/-! SUPPORT. Tests: ill-formed terms that the check refuses, words written out from the encoding tables, the vectors of
spec/95_test_vectors.md, small one-step tests, and for each statement with hypotheses a state and operands that meet
them. Expected results come from spec/95 (named V- and S- there) or are worked out by hand from the cited rule. -/

namespace Sys2Proof.Tests

open Sys2Proof.Machine

/-! ### Helpers -/

/-- Parameters with the defaults of R7 and small budgets. -/
def params : Params where
  tokenBudget := 8
  busyBudget := some 8
  crcPolicy := .generator
  tokenDataStart := 0xFE
  tokenMultiWrite := 0xFC
  tokenStopTran := 0xFD
  drespAccept := 0b00101
  flagIdle := 0x01
  flagIllegal := 0x04
  ifcondArg := 0x000001AA
  opcondArgG1 := 0x40000000
  opcondArgG2 := 0x40000000
  settle := 16
  initRate := 400000
  runRate := 25000000

/-- An initialised block with chip-select released and a card that has lined up `answers`. -/
def ready (answers : List Byte) : State :=
  { State.reset with
    cfg := params, ver := some .gen2, cdv := some .sectorAddressed, sectors := some 118784, ready := true, host := []
    bus := { hist := [.xchg 0xFF 0xFF, .deassert], cardIn := answers, draws := 0 } }

/-- The same with chip-select asserted and the command of this index acknowledged with status 0. -/
def acked (i : Index) (answers : List Byte) : State :=
  { ready answers with cs := true, resp := .status 0, frame := build i 0 0 }

/-- The same with a frame sent and its response poll due. -/
def pollDueState (answers : List Byte) : State := { ready answers with cs := true, pending := true }

/-- One of the readings of a test: a field of the next state. -/
def after {α : Type} (o : Out) (f : State → α) : Option α :=
  match o with
  | .next t => some (f t)
  | .fault _ => none
  | .refused _ => none

/-- Why a step was refused, if it was. -/
def refusal (o : Out) : Option Refusal :=
  match o with
  | .refused r => some r
  | .next _ | .fault _ => none

/-- Why a step faulted, if it did. -/
def faulted (o : Out) : Option Fault :=
  match o with
  | .fault r => some r
  | .next _ | .refused _ => none

/-! ### Well-formedness -/

theorem test_wf_index : (Instr.sendCommand 64 0 0).wellFormed params = false := by decide
theorem test_wf_argument : (Instr.build 0 4294967296 0).wellFormed params = false := by decide
theorem test_wf_crc : (Instr.sendCommand 0 0 128).wellFormed params = false := by decide
theorem test_wf_cmd : (Instr.cmd 64 0 0 true false).wellFormed params = false := by decide
theorem test_wf_acmd : (Instr.acmd 0 4294967296 0 true false).wellFormed params = false := by decide
theorem test_wf_recv : (Instr.recvBlock 0 511).wellFormed params = false := by decide
theorem test_wf_control : (Instr.control (.other 0)).wellFormed params = false := by decide
theorem test_wf_block_in_length : (Instr.dblkR [] [0] 0 0).wellFormed params = false := by decide
theorem test_wf_block_in_skipped :
    (Instr.dblkR [0xFE] (List.replicate 16 0) 0 0).wellFormed params = false := by decide
/-- R7: under another data-start token 0xFE is an ordinary byte, and the token itself is not. -/
theorem test_wf_block_in_token :
    (Instr.dblkR [0xFE] (List.replicate 16 0) 0 0).wellFormed { params with tokenDataStart := 0xFB } = true ∧
      (Instr.dblkR [0xFB] (List.replicate 16 0) 0 0).wellFormed { params with tokenDataStart := 0xFB } = false := by decide
theorem test_wf_block_out : (Instr.dblkW .dataStart [0]).wellFormed params = false := by decide
theorem test_wf_largest : (Instr.sendCommand 63 4294967295 127).wellFormed params = true := by decide

/-! ### Words written out from the tables of spec/30_encoding.md

Frames: start bit 0, transmission bit 1, the index, the argument, the CRC, the stop bit. -/

theorem test_word_cmd0 : decodeTableWord 48
    0b01_000000_00000000000000000000000000000000_1001010_1 = some (.cmd0 0 0b1001010) := by decide
theorem test_word_cmd8 : decodeTableWord 48
    0b01_001000_00000000000000000000000110101010_1000011_1 = some (.cmd8 0x000001AA 0b1000011) := by decide
theorem test_word_cmd9 : decodeTableWord 48
    0b01_001001_00000000000000000000000000000000_1010111_1 = some (.cmd9 0 0b1010111) := by decide
theorem test_word_cmd12 : decodeTableWord 48
    0b01_001100_00000000000000000000000000000000_0110000_1 = some (.cmd12 0 0b0110000) := by decide
theorem test_word_cmd16 : decodeTableWord 48
    0b01_010000_00000000000000000000001000000000_0001010_1 = some (.cmd16 512 0b0001010) := by decide
theorem test_word_cmd17 : decodeTableWord 48
    0b01_010001_00000000000000000000101000000000_1100100_1 = some (.cmd17 0x00000A00 0b1100100) := by decide
theorem test_word_cmd18 : decodeTableWord 48
    0b01_010010_00000000000000000000000000000111_1001111_1 = some (.cmd18 7 0b1001111) := by decide
theorem test_word_cmd24 : decodeTableWord 48
    0b01_011000_00010010001101000101011001111000_0110011_1 = some (.cmd24 0x12345678 0b0110011) := by decide
theorem test_word_cmd25 : decodeTableWord 48
    0b01_011001_00000000000000000000000000010000_0011000_1 = some (.cmd25 16 0b0011000) := by decide
theorem test_word_acmd41 : decodeTableWord 48
    0b01_101001_01000000000000000000000000000000_0111011_1 = some (.acmd41 0x40000000 0b0111011) := by decide
theorem test_word_cmd55 : decodeTableWord 48
    0b01_110111_00000000000000000000000000000000_0110010_1 = some (.cmd55 0 0b0110010) := by decide
theorem test_word_cmd58 : decodeTableWord 48
    0b01_111010_00000000000000000000000000000000_1111110_1 = some (.cmd58 0 0b1111110) := by decide
theorem test_word_other_index : decodeTableWord 48
    0b01_111111_11111111111111111111111111111111_0001100_1 = some (.cfAny 63 0xFFFFFFFF 0b0001100) := by decide
/-- R94: a frame with start bit 1, transmission bit 0 or stop bit 0 is no frame. -/
theorem test_word_fixed_bits :
    decodeTableWord 48 0xC00000000095 = none ∧ decodeTableWord 48 0x000000000095 = none ∧
      decodeTableWord 48 0x400000000094 = none := by decide
theorem test_word_r1_tail : decodeTableWord 40
    0b0_0000101_00000000000000000000000110101010 = some (.r1Tail 0b0000101 0x000001AA) := by decide
theorem test_word_r1_tail_valid_marker : decodeTableWord 40 0x8000000000 = none := by decide
theorem test_word_bytes :
    decodeTableWord 8 0b11111110 = some .tokenDataStart ∧ decodeTableWord 8 0b11111100 = some .tokenMultiWrite ∧
      decodeTableWord 8 0b11111101 = some .tokenStopTran ∧ decodeTableWord 8 0b11111111 = some .fill ∧
      decodeTableWord 8 0b00000000 = some .busy ∧ decodeTableWord 8 0b101_00101 = some (.drespAccepted 0b101) ∧
      decodeTableWord 8 0b0_0000001 = some (.r1 1) ∧ decodeTableWord 8 0b1_0000010 = some (.notStatus 2) := by decide
/-- R7: a device with other tokens and another accept pattern. -/
theorem test_word_other_parameters :
    let p := { params with tokenDataStart := 0xFB, drespAccept := 0b01001 }
    decodeWord p 8 0xFB = some .tokenDataStart ∧ decodeWord p 8 0b101_01001 = some (.drespAccepted 0b101) ∧
      decodeWord p 8 0xFE = some (.notStatus 0x7E) := by decide
theorem test_slot_status : decodeAt params .statusPoll [0x00] = .ok (.r1 0) := by decide
theorem test_slot_dresp_rejected : decodeAt params .dataResponse [0x0B] = .error .rejectedDataResponse := by decide
theorem test_slot_busy_done : decodeAt params .busyPoll [0x01] = .error .notBusy := by decide
/-- R86: two skipped bytes, the data-start token, sixteen payload bytes, two checksum bytes. -/
theorem test_slot_block_in :
    decodeAt params (.blockIn 16) [0xFF, 0x09, 0xFE, 0, 1, 2, 3, 4, 5, 6, 7, 8, 9, 10, 11, 12, 13, 14, 15, 0x12, 0x34] =
      .ok (.dblkR [0xFF, 0x09] [0, 1, 2, 3, 4, 5, 6, 7, 8, 9, 10, 11, 12, 13, 14, 15] 0x12 0x34) := by decide
theorem test_slot_block_out_short : decodeAt params .blockOut [0xFE, 0x00, 0xFF, 0xFF] = .error .wrongLength := by decide

/-! ### `build`, `crc7_gen`, `crc16`, `classify` (95 sections 2.1, 2.4) -/

/-- The corner cases below table 2.1. -/
theorem test_build_corners :
    build 0 0 0 = 0x400000000001 ∧ build 63 0xFFFFFFFF 0x7F = 0x7FFFFFFFFFFF ∧ build 17 0x00000A00 0 = 0x5100000A0001 := by
  decide
theorem test_frame_bytes : frameBytes (build 24 0x12345678 0x33) = [0x58, 0x12, 0x34, 0x56, 0x78, 0x67] := by decide
/-- V-F1, V-F2. -/
theorem test_crc7_boot : crc7Of 0 0 = 0x4A ∧ crc7Of 8 0x1AA = 0x43 := by decide +kernel
/-- V-F19 to V-F21. -/
theorem test_crc7_wide : crc7Of 17 0xFFFFFFFF = 0x3F ∧ crc7Of 24 0x12345678 = 0x33 ∧ crc7Of 63 0xFFFFFFFF = 0x0C := by
  decide +kernel
/-- The bit trace below table 2.1. -/
theorem test_crc7_bit_trace :
    (byteBits 0x40).scanl crc7Bit 0 = [0x00, 0x00, 0x09, 0x12, 0x24, 0x48, 0x19, 0x32, 0x64] := by decide +kernel
/-- The seven rows of 2.4. -/
theorem test_classify :
    classifyResponse params (.status 0x00) = .readyOk ∧ classifyResponse params (.status 0x01) = .idleOnly ∧
      classifyResponse params (.status 0x05) = .idleAndIllegal ∧
      classifyResponse params (.status 0x04) = .other 0x04 ∧
      classifyResponse params (.status 0x09) = .other 0x09 ∧
      classifyResponse params (.status 0x7F) = .other 0x7F ∧
      classifyResponse params .timeout = .noResponse := by decide
/-- 2.8's eight data responses. -/
theorem test_dresp :
    ([0x05, 0xE5, 0x25, 0x0B, 0x0D, 0x15, 0x00, 0xFF].map (drespAccepts params)) =
      [true, true, true, false, false, false, false, false] := by decide

/-! ### The capacity register (S1, S2) -/

theorem test_csd_version2 :
    csdSectors [0x40, 0, 0, 0, 0, 0, 0, 0, 0x00, 0x73, 0, 0, 0, 0, 0, 0] = some 118784 := by decide
theorem test_csd_version1 :
    csdSectors [0x00, 0, 0, 0, 0, 0, 0x00, 0xFF, 0xC0, 0x02, 0x00, 0, 0, 0, 0, 0] = some 65536 := by decide
theorem test_csd_other_version :
    csdSectors [0x80, 0, 0, 0, 0, 0, 0, 0, 0, 0, 0, 0, 0, 0, 0, 0] = none ∧
      csdSectors [0xC0, 0, 0, 0, 0, 0, 0, 0, 0, 0, 0, 0, 0, 0, 0, 0] = none := by decide

/-! ### Memory -/

theorem test_memory_canonical :
    Memory.write (Memory.write (Memory.write [] 5 0x11) 2 0x22) 5 0x00 = [(2, 0x22)] := by decide
theorem test_memory_read : Memory.read [(2, 0x22), (5, 0x11)] 5 = 0x11 ∧ Memory.read [(2, 0x22)] 4 = 0 := by decide

/-! ### One step each -/

/-- V-SC1's first event: chip-select asserted, the frame built. -/
theorem test_send_command_step :
    after (exec (.sendCommand 0 0 0x4A) (ready [])) (fun t => (t.cs, t.frame, t.phase)) =
      some (true, 0x400000000095, .frame 0) := by decide
/-- V-SC4, V-SC5. -/
theorem test_send_command_refused :
    refusal (exec (.sendCommand 64 0 0) (ready [])) = some .operandOutOfDomain ∧
      refusal (exec (.sendCommand 0 0 0x4A) (pollDueState [])) = some .responsePollDue := by decide
/-- R123 step 3: the fourth byte of V-SC3's frame. -/
theorem test_frame_byte_step :
    after (tick { ready [0x99] with phase := .frame 3, frame := 0x5100000A0001, stack := [.finish .frame] })
      (fun t => (t.bus.hist.head?, t.phase)) = some (some (.xchg 0x0A 0x99), .frame 4) := by decide
/-- V-AR5: a status at the first poll, no release. -/
theorem test_await_status_at_once :
    after (exec (.awaitResponse 0 false false) (pollDueState [0x00]))
      (fun t => (t.resp, t.pollCnt, t.pending, t.cs, t.phase)) = some (.status 0, 1, false, true, .idle) := by decide
/-- V-AR6's first byte: bit 7 set, one attempt. -/
theorem test_await_skips :
    after (exec (.awaitResponse 0 true false) (pollDueState [0x80])) (fun t => (t.pollCnt, t.phase)) =
      some (1, .poll 0 true) := by decide
/-- V-AR12 and V-AR8: the thousandth poll. -/
theorem test_await_last_attempt :
    after (tick { ready [0x00] with cs := true, phase := .poll 0 false, pollCnt := 999, stack := [.finish .response] })
        (fun t => (t.resp, t.pollCnt)) = some (.status 0, 1000) ∧
      after (tick { ready [0xFF] with cs := true, phase := .poll 0 false, pollCnt := 999, stack := [.finish .response] })
        (fun t => (t.resp, t.pollCnt)) = some (.timeout, 1000) := by decide
/-- V-AR13. -/
theorem test_await_refused :
    refusal (exec (.awaitResponse 0 true false) (ready [])) = some .noCommandPending := by decide
/-- 2.5. -/
theorem test_check_buffer :
    ([512, 1024, 1536, 524288].map fun len => after (exec (.checkBuffer len) (ready [])) (·.blkN)) =
        [some 1, some 2, some 3, some 1024] ∧
      ([0, 1, 511, 513, 1023].map fun len => after (exec (.checkBuffer len) (ready [])) (·.err)) =
        [some (some (.invalidArgument 0)), some (some (.invalidArgument 1)), some (some (.invalidArgument 511)),
          some (some (.invalidArgument 513)), some (some (.invalidArgument 1023))] := by decide
/-- V-WT1; V-WT4's last poll. -/
theorem test_wait_token :
    after (exec .waitToken (acked 17 [0xFE])) (fun t => (t.tok, t.tokenCnt, t.phase)) = some (0xFE, 1, .idle) ∧
      after (tick { acked 17 [0xFF] with phase := .token, tokenCnt := 7, stack := [.finish .done] })
        (fun t => (t.tokenCnt, t.phase, t.stack)) =
        some (8, .deassert .release 1, [.raise (.ioTimeout .waitingForData)]) := by decide
/-- R172 step 3: byte 511 goes to offset 511; R50: offset 512 of a 512-byte buffer does not exist. -/
theorem test_recv_last_byte :
    after (tick { acked 17 [0xAB] with phase := .recv .host 0 512, byteIdx := 511, bufLen := 512, stack := [.finish .done] })
        (fun t => (t.buf, t.phase)) = some ([(511, 0xAB)], .fill .checksumIn 2) ∧
      faulted (tick { acked 17 [0xAB] with phase := .recv .host 1 512, byteIdx := 511, bufLen := 512, stack := [] }) =
        some (.hostBufferOutOfRange 512) := by decide
/-- R172, R11: offset 15 of a 15-byte buffer does not exist, so RECV_BLOCK(0, 16) makes no bus event; READ_SINGLE alone with
BLK_N = 1 and 511 bytes (log 8). -/
theorem test_buffer_too_short :
    refusal (exec (.recvBlock 0 16) { acked 17 [0xFE] with bufLen := 15 }) = some .bufferTooShort ∧
      refusal (exec (.readSingle 0) { ready [] with blkN := 1, bufLen := 511 }) = some .bufferTooShort := by decide
/-- R176 step 3: byte 15 of the capacity register goes to its own destination, whatever the host's buffer. -/
theorem test_recv_csd :
    after (tick { acked 9 [0x81] with phase := .recv .csd 0 16, byteIdx := 15, buf := [(15, 0x22)], stack := [] })
      (fun t => (t.csd, t.buf, t.byteIdx)) = some ([(15, 0x81)], [(15, 0x22)], 16) := by decide
/-- R32, R94: a byte given while an operation is in flight is what its next exchange receives, whatever the byte is. -/
theorem test_bytes_in_flight :
    after (exec (.notStatus 0x7F) { acked 24 [] with phase := .busy, stack := [.finish .done] })
        (fun t => (t.busyCnt, t.phase)) = some (1, .idle) ∧
      after (exec .busy { acked 17 [] with phase := .poll 0 false, stack := [.finish .response] }) (·.resp) =
        some (.status 0) := by decide
/-- V-RD8, V-RD9. -/
theorem test_read_blocks_turned_away :
    after (exec (.readBlocks 0 513) (ready [])) (fun t => (t.err, t.bus.hist.length, t.op)) =
        some (some (.invalidArgument 513), 2, .none) ∧
      refusal (exec (.readBlocks 8388608 512) { ready [] with cdv := some .byteAddressed }) = some .argumentTooWide := by
  decide
/-- V-RD10's frame, with 512-byte addressing. -/
theorem test_read_blocks_frame :
    after (exec (.readBlocks 8388607 512) { ready [] with cdv := some .byteAddressed }) (·.frame) = some 0x51FFFFFE009B := by
  decide +kernel
/-- V-RD7's first frame (CMD18, argument 0); V-WR1's first frame (CMD24, argument 3). -/
theorem test_transfer_frames :
    after (exec (.readBlocks 0 1536) (ready [])) (fun t => (t.frame, t.blkN)) = some (0x5200000000E1, 3) ∧
      after (exec (.writeBlocks 3 512) (ready [])) (fun t => (t.frame, t.blkN)) = some (0x580000000359, 1) := by
  decide +kernel
/-- R190 steps 1, 3: the token, then byte 0 of the block, at offset 512 of `buf`. -/
theorem test_send_block_bytes :
    after (exec (.sendBlock .multiWrite 512) { acked 25 [0x55] with bufLen := 1024 }) (fun t => (t.bus.hist.head?, t.phase)) =
        some (some (.xchg 0xFC 0x55), .send 512) ∧
      after (tick { acked 25 [0x55] with phase := .send 512, bufLen := 1024, buf := [(512, 0x3C)], stack := [] })
        (fun t => (t.bus.hist.head?, t.byteIdx)) = some (some (.xchg 0x3C 0x55), 1) := by decide
/-- 2.8: 0x0B is rejected, RELEASE follows; V-BW1. -/
theorem test_dresp_and_busy :
    after (exec .checkDresp (acked 24 [0x0B])) (fun t => (t.dresp, t.phase, t.stack)) =
        some (0x0B, .deassert .release 1, [.raise (.ioError (.dataRejected 0x0B))]) ∧
      after (exec .busyWait (acked 24 [0xFF])) (fun t => (t.busyCnt, t.phase)) = some (1, .idle) := by decide
/-- V-BW4's last poll. -/
theorem test_busy_budget :
    after (tick { acked 24 [0x00] with phase := .busy, busyCnt := 7, stack := [.finish .done] })
      (fun t => (t.busyCnt, t.stack)) = some (8, [.raise (.ioTimeout .writeCompletion)]) := by decide
/-- R196: one exchange, 0xFD. -/
theorem test_send_stop :
    after (exec .sendStop (acked 25 [0x00])) (fun t => (t.bus.hist.head?, t.phase, t.busyCnt)) =
      some (some (.xchg 0xFD 0x00), .busy, 0) := by decide
/-- 2.10. -/
theorem test_facade :
    after (exec .blockSize State.reset) (·.result) = some (.count 512) ∧
      after (exec .blockCount (ready [])) (·.result) = some (.count 118784) ∧
      after (exec (.control .getSectorCount) (ready [])) (·.result) = some (.count 118784) ∧
      refusal (exec (.control (.other 1)) (ready [])) = some .unknownControlOp := by decide
/-- R262: construction begins by raising chip-select, at INIT_RATE, sixteen fillers to come. -/
theorem test_boot_first_step :
    after (step { State.reset with cfg := params }) (fun t => (t.cs, t.busRate, t.phase, t.bus.hist)) =
      some (false, 400000, .fill .settle 16, [.deassert]) := by decide
/-- R270: CMD16 answered with status 0. -/
theorem test_boot_last_step :
    after (bootStep .blockLenSent { ready [] with ready := false, resp := .status 0 }) (fun t => (t.ready, t.busRate)) =
      some (true, 25000000) := by decide

/-! ### Witnesses: concrete states and operands that meet the hypotheses of each statement

A statement of several clauses has one for each, at boundary values. The first 7 bytes lined up answer the frame and the
poll behind it. -/

/-- The answers to a frame's six bytes, then `rest`. -/
def framed (rest : List Byte) : List Byte := List.replicate 6 0xFF ++ rest

/-- A payload of n bytes. -/
def payload (n : Nat) : List Byte := List.replicate n 0xAB

theorem payload_length (n : Nat) : (payload n).length = n := by simp [payload]

theorem witness_ArgumentIsBigEndianAndBytesGoInOrder :
    (∃ t, tick { ready [] with phase := .frame 0, stack := [.finish .frame] } = .next t) ∧
      ∃ t, tick { ready [] with phase := .frame 5, stack := [.finish .frame] } = .next t := ⟨⟨_, rfl⟩, ⟨_, rfl⟩⟩

theorem witness_BuildPlacesItsOperandsInjectively :
    build 63 0xFFFFFFFF 127 = build 63 0xFFFFFFFF 127 ∧ 63 < 64 ∧ 4294967295 < 2 ^ 32 ∧ 127 < 128 := by decide

/-- Every position on the bus. -/
theorem witness_DecodeReadsWhatEncodeWrites :
    ∀ i ∈ [Instr.cmd0 0 0, .cmd58 0xFFFFFFFF 127, .cfAny 63 0xFFFFFFFF 127, .tokenStopTran, .r1 127, .notStatus 127,
        .r1Tail 127 0xFFFFFFFF, .drespAccepted 7, .busy, .fill, .dblkR [0xFF] (payload 16) 0xFF 0,
        .dblkR [] (payload 512) 0 0, .dblkW .multiWrite (payload 512)],
      ∀ p ∈ [params, { params with tokenDataStart := 0xFB }],
        p.wf = true ∧ i.wellFormed p = true ∧ i.canonical = true ∧ (encode p i).isSome = true ∧ i.slot.isSome = true := by
  decide +kernel

theorem witness_FrameWordsDecodeExactlyWhenFixedBitsHold :
    frameFixedOk 0x400000000095 = true ∧ frameFixedOk 0xC00000000095 = false ∧ frameFixedOk 0x000000000001 = false ∧
      frameFixedOk 0x400000000000 = false := by decide

theorem witness_StepRunsTheDecodedInstruction :
    decodeWord params 48 0x400000000095 = some (.cmd0 0 0x4A) ∧ decodeTableWord 8 0xFF = some .fill ∧
      (ready []).cfg = params ∧ State.reset.cfg = Params.initial ∧
      ({ ready [] with host := [.wire 8 0xFF] } : State).host = .wire 8 0xFF :: [] ∧
      ({ ready [] with host := [.call .fill] } : State).host = .call .fill :: [] ∧
      ({ ready [] with host := [.poke 0 [1]] } : State).host = .poke 0 [1] :: [] ∧
      (ready []).phase = .idle ∧ (ready []).host = [] ∧
      ({ ready [] with phase := .busy } : State).phase ≠ .idle ∧
      ({ ready [] with host := [.boot .blockLenSent] } : State).host = .boot .blockLenSent :: [] ∧
      ({ ready [] with host := [.wire 48 0] } : State).host = .wire 48 0 :: [] ∧ decodeWord params 48 0 = none :=
  ⟨by decide, by decide, rfl, rfl, rfl, rfl, rfl, rfl, rfl, by decide, rfl, rfl, by decide⟩

/-- No event, an assertion, a deassertion, an exchange; and a construction, after which the history is its first event. -/
theorem witness_OneBusEventPerStep :
    (∃ t, step (ready []) = .next t) ∧ (∃ t, step { ready [] with host := [.call (.cmd12 0 0x30)] } = .next t) ∧
      (∃ t, step { ready [] with host := [.call .release] } = .next t) ∧
      (∃ t, step { ready [] with host := [.call .fill] } = .next t) ∧
      (∀ debug rest, ({ ready [] with host := [.call .fill] } : State).host ≠ .boot (.start debug) :: rest) ∧
      ({ ready [] with phase := .busy } : State).phase ≠ .idle ∧
      ({ ready [] with host := [.boot (.start true)] } : State).phase = .idle ∧
      ∃ t, step { ready [] with host := [.boot (.start true)] } = .next t :=
  ⟨⟨_, rfl⟩, ⟨_, rfl⟩, ⟨_, rfl⟩, ⟨_, rfl⟩, by simp, by simp, rfl, ⟨_, rfl⟩⟩

theorem witness_ReceivingExchangesSendFill :
    (∀ p ∈ [Phase.skipLead 0 true, .poll 4 true, .fill .clock 1, .token, .recv .csd 0 16, .dresp, .busy],
      after (tick { acked 17 [0xFF] with phase := p, bufLen := 16 }) (fun _ => true) = some true) ∧
    (∃ t, tick { acked 24 [] with phase := .send 0, byteIdx := 511, bufLen := 512 } = .next t) ∧
    (∃ t, tick { acked 24 [] with phase := .fill .checksumOut 2 } = .next t) ∧
    ∃ t, tick { acked 24 [] with phase := .deassert .release 1 } = .next t := by
  exact ⟨by decide, ⟨_, rfl⟩, ⟨_, rfl⟩, ⟨_, rfl⟩⟩

theorem witness_MemoryChangesOnlyByPayload :
    Memory.wf [(0, 1), (511, 2)] ∧
    (∃ t, tick { acked 17 [0xAB] with phase := .recv .host 0 512, byteIdx := 511, bufLen := 512, buf := [(0, 1), (511, 2)] } =
      .next t) ∧
    (∃ t, tick { acked 9 [0xAB] with phase := .recv .csd 0 16, byteIdx := 15, csd := [(0, 1)] } = .next t) ∧
    (∃ t, tick { acked 24 [] with phase := .send 0, byteIdx := 0, bufLen := 512, buf := [(0, 1)] } = .next t) ∧
    (∃ t, exec .fill { ready [] with buf := [(0, 1)] } = .next t) ∧ (ready []).phase = .idle ∧
    fromCard params .blockSize = none ∧ (∃ t, exec .blockSize { ready [] with phase := .busy } = .next t) ∧
    after (exec (.dblkW .dataStart (payload 512)) { acked 24 [] with buf := [(0, 1)] }) (fun _ => true) = some true := by
  refine ⟨by simp [Memory.wf, Memory.unlisted], ⟨_, rfl⟩, ⟨_, rfl⟩, ⟨_, rfl⟩, ⟨_, rfl⟩, rfl, rfl, ⟨_, rfl⟩, ?_⟩
  decide +kernel

theorem ready_inv (answers : List Byte) (calls : List HostCall) (h : calls.all HostCall.fresh = true) :
    State.Inv { ready answers with host := calls } where
  memory := Memory.wf_nil
  csd := Memory.wf_nil
  pending := by simp [ready, State.reset]
  ready := fun _ => rfl
  consistent := by rintro g m ⟨⟩ ⟨⟩; rfl
  pollCnt := by simp [ready, State.reset]
  byteIdx := by simp [ready, State.reset]
  phase := rfl
  stack := rfl
  host := by
    cases calls with
    | nil => rfl
    | cons c calls => cases c <;> simp_all [State.hostOk]; rename_i b; cases b <;> simp_all [HostCall.fresh, Boot.sessionOk]

theorem witness_EveryStepKeepsTheInvariant :
    State.Inv { ready [] with host := [.call (.readBlocks 0 512)] } ∧
      ∃ t, step { ready [] with host := [.call (.readBlocks 0 512)] } = .next t := ⟨ready_inv _ _ rfl, ⟨_, rfl⟩⟩

theorem witness_SessionRegistersAreWrittenByBootAlone :
    (∃ t, step { ready [] with host := [.call .fill] } = .next t) ∧
      (∀ b rest, ({ ready [] with host := [.call .fill] } : State).host ≠ .boot b :: rest) ∧
      State.Inv { ready [] with host := [.call .fill] } ∧
      ({ ready [] with host := [.call .fill] } : State).ready = true :=
  ⟨⟨_, rfl⟩, by simp, ready_inv _ _ rfl, rfl⟩

/-- A read whose command is answered with status 0x04 (V-RD2), run to its end: six frame bytes after the first step, the
poll, and RELEASE; and one turned away with InvalidArgument (V-RD8). -/
theorem witness_BulkOperationsLeaveTheBusReleased :
    (ready (framed [0x04])).busIdle ∧
      (∃ u t, exec (.readBlocks 0 512) (ready (framed [0x04])) = .next u ∧ ticks 9 u = .next t ∧ t.phase = .idle) ∧
      (∃ u t, exec (.writeBlocks 0 513) (ready []) = .next u ∧ ticks 0 u = .next t ∧ t.phase = .idle) ∧
      (ready []).busIdle ∧ (ready []).ready = true ∧ (0 = 0 ∨ 0 % 512 ≠ 0) ∧ (511 = 0 ∨ 511 % 512 ≠ 0) := by
  refine ⟨by decide, ⟨_, _, rfl, rfl, rfl⟩, ⟨_, _, rfl, rfl, rfl⟩, by decide, rfl, by decide, by decide⟩

theorem witness_AfterAnErrorTheNextOperationIsAccepted :
    (ready (framed [0x04])).busIdle ∧ (ready (framed [0x04])).ready = true ∧
      (∃ u t, exec (.writeBlocks 0 512) (ready (framed [0x04])) = .next u ∧ ticks 9 u = .next t ∧ t.phase = .idle) ∧
      (ready (framed [0x04])).cdv = some .sectorAddressed ∧ 4294967295 * Cdv.sectorAddressed.toNat < 2 ^ 32 ∧
      0 < 512 ∧ 512 % 512 = 0 := by
  refine ⟨by decide, rfl, ⟨_, _, rfl, rfl, rfl⟩, rfl, by decide, by decide, by decide⟩

theorem witness_OnlyAwaitResponseFollowsAFrame :
    busOperation .release = true ∧ Instr.wellFormed params .release = true ∧ (pollDueState []).phase = .idle ∧
      (pollDueState []).pending = true ∧ ({ ready [] with phase := .busy } : State).phase ≠ .idle ∧
      (ready []).pending = false := by decide

theorem witness_OperandsOutsideTheirDomainAreRefused :
    ¬ (64 < 64 ∧ 0 < 2 ^ 32 ∧ 0 < 128) ∧ ¬ (0 < 64 ∧ 4294967296 < 2 ^ 32 ∧ 0 < 128) ∧
      ¬ (0 < 64 ∧ 0 < 2 ^ 32 ∧ 128 < 128) ∧ ¬ (64 < 64 ∧ 0 < 2 ^ 32) ∧ 0 ≠ 512 ∧ 0 ≠ 16 ∧
      ({ ready [] with ready := false } : State).accepting ∧ ({ ready [] with ready := false } : State).ready = false ∧
      ({ ready [] with cdv := some .byteAddressed } : State).accepting ∧ 2 ^ 32 ≤ 8388608 * Cdv.byteAddressed.toNat ∧
      (ready []).accepting ∧ 2 ^ 32 ≤ 4294967296 * Cdv.sectorAddressed.toNat ∧
      ({ ready [] with sectors := none } : State).accepting ∧ ({ ready [] with sectors := none } : State).ready = true ∧
      ({ ready [] with cdv := none } : State).accepting ∧ ({ ready [] with cdv := none } : State).ready = true ∧
      ({ ready [] with cdv := none } : State).cdv = none ∧ 0 < 512 ∧ 512 % 512 = 0 := by decide

theorem witness_OperandsOutsideTheirDomainAreRefused_registers :
    State.Inv { ready [] with host := [.call .blockCount] } ∧ ({ ready [] with sectors := none } : State).sectors = none :=
  ⟨ready_inv _ _ rfl, rfl⟩

/-- A data block one byte short or long, a skipped token; the transfer cases with exactly the buffer they need. -/
theorem witness_OperandsOutsideTheirDomainAreRefused_alone :
    (payload 511).length ≠ 512 ∧ (payload 511).length ≠ 16 ∧ (payload 17).length ≠ 512 ∧ (payload 17).length ≠ 16 ∧
      params.tokenDataStart ∈ [0xFF#8, 0xFE#8] ∧
      (∀ c, c = none ∨ c = some Cdv.byteAddressed →
        ({ ready [] with cdv := c, blkN := 1, bufLen := 512 } : State).accepting ∧
        ({ ready [] with cdv := c, blkN := 2, bufLen := 1024 } : State).accepting) ∧
      512 ≤ 512 ∧ 512 * 2 ≤ 1024 ∧ 2 ^ 32 ≤ 8388608 * Cdv.byteAddressed.toNat := by
  simp only [payload_length]
  exact ⟨by decide, by decide, by decide, by decide, by decide, fun c _ => ⟨⟨rfl, rfl, rfl⟩, ⟨rfl, rfl, rfl⟩⟩, by decide,
    by decide, by decide⟩

/-- Status 0 of a read command admits no write, and the other way; BLK_N = 0 is no transfer; the first offset beyond the end. -/
theorem witness_UnmetPreconditionsAndMissingBufferBytesStop :
    (acked 24 []).accepting ∧ readAcknowledged (acked 24 []) = false ∧
      (acked 17 []).accepting ∧ writeAcknowledged (acked 17 []) = false ∧ (payload 512).length = 512 ∧
      (ready []).accepting ∧ (ready []).cs = false ∧ (ready []).ready = true ∧
      ({ ready [] with blkN := 0 } : State).blkN ≠ 1 ∧ ({ ready [] with blkN := 1 } : State).blkN < 2 ∧
      ({ ready [] with bufLen := 512, byteIdx := 511, phase := .send 1 } : State).bufLen ≤ 1 + 511 ∧
      (∃ n, ({ ready [] with phase := .recv .host 1 512 } : State).phase = .recv .host 1 n) ∧
      16 ≤ 1 + ({ ready [] with byteIdx := 15, phase := .recv .csd 1 16 } : State).byteIdx ∧
      ∃ n, ({ ready [] with phase := .recv .csd 1 16 } : State).phase = .recv .csd 1 n := by
  refine ⟨by decide, by decide, by decide, by decide, payload_length _, by decide, rfl, rfl, by decide, by decide, by decide, ⟨_, rfl⟩,
    by decide, _, rfl⟩

/-- One byte short of the buffer each operation needs, and a state of the invariant in which a payload byte is about to be
stored at the last offset of the buffer. -/
theorem witness_UnmetPreconditionsAndMissingBufferBytesStop_buffer :
    ({ acked 17 [] with bufLen := 527 } : State).accepting ∧ readAcknowledged { acked 17 [] with bufLen := 527 } = true ∧
      ({ acked 17 [] with bufLen := 527 } : State).bufLen < 512 + 16 ∧
      ({ acked 17 [] with bufLen := 527 } : State).bufLen < 16 + 512 ∧
      ({ acked 25 [] with bufLen := 1023 } : State).accepting ∧ writeAcknowledged { acked 25 [] with bufLen := 1023 } = true ∧
      ({ acked 25 [] with bufLen := 1023 } : State).bufLen < 512 + 512 ∧
      ({ ready [] with blkN := 1, bufLen := 511 } : State).accepting ∧
      ({ ready [] with blkN := 1, bufLen := 511 } : State).ready = true ∧
      ({ ready [] with blkN := 1, bufLen := 511 } : State).bufLen < 512 ∧
      ({ ready [] with blkN := 2, bufLen := 1023 } : State).accepting ∧
      ({ ready [] with blkN := 2, bufLen := 1023 } : State).ready = true ∧
      ({ ready [] with blkN := 2, bufLen := 1023 } : State).bufLen < 512 * 2 := by decide

theorem witness_UnmetPreconditionsAndMissingBufferBytesStop_inv :
    State.Inv { acked 17 [0xAB] with phase := .recv .host 0 512, byteIdx := 511, bufLen := 512, stack := [.finish .done] } where
  memory := Memory.wf_nil
  csd := Memory.wf_nil
  pending := by decide
  ready := fun _ => rfl
  consistent := by rintro g m ⟨⟩ ⟨⟩; rfl
  pollCnt := by decide
  byteIdx := by decide
  phase := rfl
  stack := rfl
  host := rfl

theorem witness_SendCommandSendsTheFrame :
    (ready []).accepting ∧ 63 < 64 ∧ 4294967295 < 2 ^ 32 ∧ 127 < 128 := by decide

/-- The last: a frame's sixth byte while a construction is the host's next call. -/
theorem witness_FrameIsImmutableWhileItIsSent :
    (∃ t, tick { ready [] with phase := .assert 0 0 0 } = .next t) ∧
      (∃ t, tick { ready [] with phase := .frame 4 } = .next t) ∧
      (∃ t, step { ready [] with host := [.call .fill] } = .next t) ∧
      (∀ debug rest, ({ ready [] with host := [.call .fill] } : State).host ≠ .boot (.start debug) :: rest) ∧
      (∃ t, step { ready [] with phase := .frame 5, host := [.boot (.start false)] } = .next t) ∧
      ({ ready [] with phase := .frame 5, host := [.boot (.start false)] } : State).phase ≠ .idle :=
  ⟨⟨_, rfl⟩, ⟨_, rfl⟩, ⟨_, rfl⟩, by simp, ⟨_, rfl⟩, by decide⟩

/-- V-AR12: the status byte at the thousandth poll; and with a skipped lead byte (V-AR4). -/
theorem witness_AwaitResponseReturnsTheStatusByte :
    (pollDueState (List.replicate 999 0xFF ++ [0x00])).phase = .idle ∧
      (pollDueState (List.replicate 999 0xFF ++ [0x00])).pending = true ∧
      (pollDueState (List.replicate 999 0xFF ++ [0x00])).op = .none ∧
      StatusAnswered false [] (List.replicate 999 0xFF) 0 (pollDueState (List.replicate 999 0xFF ++ [0x00])).bus ∧
      StatusAnswered true [0x7F] [0xFF] 0 (pollDueState [0x7F, 0xFF, 0x00]).bus :=
  ⟨rfl, rfl, rfl,
    .of_cardIn rfl (fun _ h => by rw [List.eq_of_mem_replicate h]; decide) (by rw [List.length_replicate]; decide)
      (rest := []) (by rw [List.append_nil]; rfl),
    .of_cardIn rfl (by decide) (by decide) (rest := []) rfl⟩

theorem noStatus_fill {k : Bool} {lead rest : List Byte} {b : Bus} (hl : lead.length = k.toNat)
    (hc : b.cardIn = (lead ++ List.replicate 1000 0xFF) ++ rest) : NoStatus k b :=
  .of_cardIn hl (List.length_replicate ..) (fun _ h => by rw [List.eq_of_mem_replicate h]; decide) hc

/-- V-AR8, V-AR11. -/
theorem witness_AwaitResponseTimesOutAfterExactlyTheBudget :
    (∃ u, exec (.awaitResponse 0 true true) (pollDueState []) = .next u) ∧
      isStatusByte ({ ready [0x80] with phase := .poll 0 true, pollCnt := 998 } : State).bus.answer = false ∧
      998 + 1 ≠ 1000 ∧
      (∃ t, tick { ready [0x80] with phase := .poll 0 true, pollCnt := 998 } = .next t) ∧
      NoStatus false (pollDueState (List.replicate 1000 0xFF)).bus ∧
      NoStatus true (pollDueState (0x00 :: List.replicate 1000 0xFF)).bus :=
  ⟨⟨_, rfl⟩, by decide, by decide, ⟨_, rfl⟩,
    noStatus_fill (lead := []) (rest := []) rfl (by rw [List.append_nil]; rfl),
    noStatus_fill (lead := [0x00]) (rest := []) rfl (by rw [List.append_nil]; rfl)⟩

theorem witness_AwaitResponseAlwaysEnds :
    (pollDueState []).phase = .idle ∧ (pollDueState []).pending = true ∧ (pollDueState []).op = .none := by decide

theorem witness_ReleaseDeassertsAndClocksOneFiller :
    (ready []).accepting ∧ (acked 17 []).accepting ∧ (pollDueState []).phase = .idle ∧
      (pollDueState []).pending = true := by decide

theorem witness_ClockIdleDeassertsAndClocksFillers : (ready []).accepting ∧ State.reset.accepting := by decide

theorem witness_CmdPairsTheFrameWithItsPoll :
    (ready []).accepting ∧ 63 < 64 ∧ 4294967295 < 2 ^ 32 ∧
      (∀ c, StatusAnswered true [0x00] [] 0x7F ((ready (framed [0x00, 0x7F])).bus.command 63 0xFFFFFFFF c)) ∧
      ∀ c, NoStatus false ((ready (framed (List.replicate 1000 0xFF))).bus.command 63 0xFFFFFFFF c) :=
  ⟨by decide, by decide, by decide,
    fun c => .of_cardIn rfl (by simp) (by decide) (rest := []) (by simp [ready, framed]; decide),
    fun c => noStatus_fill (lead := []) (rest := []) rfl
      (by rw [Bus.command_cardIn, List.append_nil]; exact List.drop_left' rfl)⟩

/-! The answers left after a part of a run. -/

theorem after_frame {b : Bus} {rest : List Byte} (h : b.cardIn = framed rest) (i : Index) (a : Arg) (c : Crc7) :
    (b.command i a c).cardIn = rest := by rw [Bus.command_cardIn, h]; rfl

theorem after_fills {b : Bus} {l rest : List Byte} {n : Nat} (h : b.cardIn = l ++ rest) (hn : l.length = n) :
    (Bus.send (fills n) b).cardIn = rest := by
  rw [Bus.send_cardIn, h, fills_length]; exact List.drop_left' hn

theorem readList_length (m : List Host.Cell) (n : Nat) : ∀ a, (Memory.readList m a n).length = n := by
  induction n with
  | zero => intro a; rfl
  | succ n ih => intro a; simp [Memory.readList, ih]

/-- While a written block goes out the card answers 515 bytes that do not matter. -/
theorem after_blockOut {b : Bus} {rest : List Byte} (m : List Host.Cell) (a : Nat) (t : Byte)
    (h : b.cardIn = List.replicate 515 0xFF ++ rest) :
    (Bus.send (blockOut t (Memory.readList m a 512)) b).cardIn = rest := by
  rw [Bus.send_cardIn, h]
  exact List.drop_left' (by
    simp only [blockOut, List.length_replicate, List.length_cons, List.length_append, readList_length, fills_length])

/-- The prefix answered with 0x01, the command answered with 0x00; and the prefix never answered. -/
theorem witness_AcmdSendsThePrefixAndThenTheCommand :
    (ready []).accepting ∧ 41 < 64 ∧ 4294967295 < 2 ^ 32 ∧
      (∀ c c', StatusAnswered false [] [] 1 ((ready (framed (0x01 :: 0xFF :: framed [0x00]))).bus.command 55 0 c) ∧
        StatusAnswered false [] [] 0
          ((Bus.send (fills 1) ((ready (framed (0x01 :: 0xFF :: framed [0x00]))).bus.command 55 0 c)).release.command
            41 0xFFFFFFFF c')) ∧
      ∀ c, NoStatus false ((ready (framed (List.replicate 1000 0xFF))).bus.command 55 0 c) := by
  refine ⟨by decide, by decide, by decide, fun c c' => ⟨?_, ?_⟩, fun c => ?_⟩
  · exact .of_cardIn rfl (by simp) (by decide) (rest := 0xFF :: framed [0x00]) (after_frame rfl ..)
  · refine .of_cardIn rfl (by simp) (by decide) (rest := []) (after_frame ?_ ..)
    rw [Bus.release, Bus.xchg_cardIn, Bus.note_cardIn,
      after_fills (n := 1) (l := [0x01]) (rest := 0xFF :: framed [0x00])
        (after_frame (rest := 0x01 :: 0xFF :: framed [0x00]) rfl ..) rfl]
    rfl
  · exact noStatus_fill (lead := []) (rest := []) rfl (by rw [after_frame rfl, List.append_nil]; rfl)

theorem witness_NamedFramesArePolledAsTheirRulesSay :
    polledFrame (.cmd12 0 0x30) = some (12, 0, 0x30, 0, true, true) ∧
      polledFrame (.cmd58 0 0x7E) = some (58, 0, 0x7E, 4, true, false) ∧ (ready []).accepting ∧
      (∀ c, StatusAnswered true [0x7F] [0xFF] 0 ((ready (framed [0x7F, 0xFF, 0x00])).bus.command 12 0 c)) ∧
      ∀ c, NoStatus false ((ready (framed (List.replicate 1000 0xFF))).bus.command 58 0 c) :=
  ⟨rfl, rfl, by decide, fun c => .of_cardIn rfl (by decide) (by decide) (rest := []) (after_frame rfl ..),
    fun c => noStatus_fill (lead := []) (rest := []) rfl (by rw [after_frame rfl, List.append_nil]; rfl)⟩

theorem witness_SentBytesAreOneExchange :
    (ready []).accepting ∧ readAcknowledged (ready []) = false ∧ (acked 24 []).accepting ∧
      readAcknowledged (acked 24 []) = false := by decide

theorem witness_ReceivedStatusBytesEndThePollThatIsDue :
    (pollDueState []).phase = .idle ∧ (pollDueState []).pending = true ∧ (pollDueState []).op = .none := by decide

/-- Each row at the place each clause speaks of: in flight, idle with nothing due, idle with a poll due. -/
theorem witness_UnexpectedCardBytesAreLinedUp :
    (∀ i ∈ [Instr.tokenDataStart, .r1 0x7F, .r1Tail 0 0xFFFFFFFF, .notStatus 0x7F, .drespAccepted 7, .busy,
        .dblkR [0xFF] (payload 16) 0 0],
      (fromCard params i).isSome = true ∧ i.wellFormed params = true) ∧
      ({ ready [] with phase := .busy } : State).phase ≠ .idle ∧ (ready []).phase = .idle ∧ (ready []).pending = false ∧
      (ready []).cs = false ∧ readAcknowledged (ready []) = false ∧ (pollDueState []).phase = .idle ∧
      (pollDueState []).pending = true := by decide +kernel

/-- A budget of two polls is the smallest in which the wait goes on after one busy byte. -/
theorem witness_ReceivedDataResponseAndBusyByte :
    (acked 24 []).accepting ∧ (acked 24 []).cs = true ∧ busyWithin { params with busyBudget := some 2 } 1 ∧
      busyWithin { params with busyBudget := none } 1 ∧ (ready []).phase = .idle ∧ (ready []).cs = false := by
  exact ⟨by decide, rfl, by rintro m ⟨⟩; decide, by rintro m ⟨⟩, rfl, rfl⟩

theorem witness_ReceivedTokenAndDataBlock :
    (acked 17 []).accepting ∧ readAcknowledged (acked 17 []) = true ∧ readAcknowledged (acked 9 []) = true ∧
      0 < params.tokenBudget ∧ (payload 512).length = 512 ∧ (payload 16).length = 16 ∧
      params.tokenDataStart ∉ List.replicate 7 0xFF ∧ (List.replicate 7 (0xFF : Byte)).length < params.tokenBudget ∧
      (ready []).phase = .idle ∧ readAcknowledged (ready []) = false := by
  exact ⟨by decide, by decide, by decide, by decide, payload_length _, payload_length _, by decide, by decide, rfl,
    by decide⟩

/-- V-WR1's answers to a block: 515 that do not matter, 05, 00, FF. -/
def takenBlock : List Byte := List.replicate 515 0xFF ++ [0x05, 0x00, 0xFF]

theorem accepted_of_taken {b : Bus} {rest : List Byte} (m : List Host.Cell) (a : Nat) (t : Byte)
    (h : b.cardIn = takenBlock ++ rest) :
    BlockAccepted params 0x05 1 0xFF (Bus.send (blockOut t (Memory.readList m a 512)) b) := by
  refine .of_cardIn (rest := rest) (by decide) (by decide) (by rintro k ⟨⟩; decide) ?_
  rw [after_blockOut m a t (rest := [0x05, 0x00, 0xFF] ++ rest) (by rw [h, takenBlock, List.append_assoc])]
  rfl

theorem after_taken {b : Bus} {rest : List Byte} (m : List Host.Cell) (a : Nat) (t : Byte)
    (h : b.cardIn = takenBlock ++ rest) :
    (b.sendBlock t (Memory.readList m a 512) ⟨0x05, 1, 0xFF⟩).cardIn = rest := by
  rw [Bus.sendBlock]
  exact after_fills (l := [0x05, 0x00, 0xFF])
    (after_blockOut m a t (by rw [h, takenBlock, List.append_assoc])) rfl

theorem witness_DataBlockToTheCardIsSent :
    (acked 24 takenBlock).accepting ∧ writeAcknowledged (acked 24 takenBlock) = true ∧
      Memory.wf (acked 24 takenBlock).buf ∧ (payload 512).length = 512 ∧
      BlockAccepted params 0x05 1 0xFF
        (Bus.send (blockOut (tokenByte params .dataStart) (payload 512)) (acked 24 takenBlock).bus) := by
  refine ⟨⟨rfl, rfl, rfl⟩, rfl, Memory.wf_nil, payload_length _, ?_⟩
  refine .of_cardIn (rest := []) (by decide) (by decide) (by rintro k ⟨⟩; decide) ?_
  rw [Bus.send_cardIn]
  exact List.drop_left' (l₁ := List.replicate 515 0xFF) (by
    simp only [blockOut, List.length_replicate, List.length_cons, List.length_append, payload_length, fills_length])

theorem witness_BufferLengthMustBeAPositiveMultiple :
    (ready []).accepting ∧ (0 = 0 ∨ 0 % 512 ≠ 0) ∧ 513 % 512 ≠ 0 ∧ (ready []).ready = true ∧ 0 < 512 ∧ 512 % 512 = 0 ∧
      (ready []).cdv = some .sectorAddressed ∧ 4294967295 * Cdv.sectorAddressed.toNat < 2 ^ 32 := by decide

/-- V-WT3 and V-WT4. -/
theorem witness_WaitTokenFindsTheTokenOrTimesOut :
    (acked 17 []).accepting ∧ readAcknowledged (acked 17 []) = true ∧ (∀ y ∈ List.replicate 7 (0xFF : Byte), y ≠ 0xFE) ∧
      (List.replicate 7 (0xFF : Byte)).length < params.tokenBudget ∧
      Bus.answers (fills (7 + 1)) (acked 17 (List.replicate 7 0xFF ++ [0xFE])).bus = List.replicate 7 0xFF ++ [0xFE] ∧
      0 < params.tokenBudget ∧
      (∀ y ∈ Bus.answers (fills params.tokenBudget) (acked 17 (List.replicate 8 0xFF)).bus, y ≠ params.tokenDataStart) ∧
      ({ acked 17 [0xFF] with phase := .token, tokenCnt := 7 } : State).tokenCnt + (0 + 1) = params.tokenBudget := by
  decide

/-- V-RB2's shape at the end of a two-block buffer; and a 16-byte block. -/
theorem witness_RecvBlockStoresThePayload :
    (acked 17 []).accepting ∧ readAcknowledged (acked 17 []) = true ∧ (payload 512).length = 512 ∧
      512 + (payload 512).length ≤ 1024 ∧
      BlockAnswered params [0xFF] (payload 512) (acked 17 (0xFF :: 0xFE :: payload 512)).bus ∧
      BlockAnswered params [] (payload 16) (acked 17 (0xFE :: payload 16)).bus :=
  ⟨by decide, by decide, payload_length _, by rw [payload_length],
    .of_cardIn (by decide) (by decide) (rest := []) (List.append_nil _).symm,
    .of_cardIn (by decide) (by decide) (rest := []) (List.append_nil _).symm⟩

/-- V-RD1. -/
theorem witness_ReadOfOneBlockSucceeds :
    ∃ s : State, s.accepting ∧ s.ready = true ∧ s.cdv = some .sectorAddressed ∧
      4294967295 * Cdv.sectorAddressed.toNat < 2 ^ 32 ∧ (payload 512).length = 512 ∧ s.blkN = 1 ∧ 512 ≤ s.bufLen ∧
      (∀ a c, StatusAnswered false [] [] 0 (s.bus.command 17 a c)) ∧
      ∀ a c, BlockAnswered s.cfg [] (payload 512) (Bus.send (fills 1) (s.bus.command 17 a c)) := by
  refine ⟨{ ready (framed ([0x00] ++ (0xFE :: payload 512))) with blkN := 1, bufLen := 512 }, ⟨rfl, rfl, rfl⟩, rfl, rfl,
    by decide, payload_length _, rfl, Nat.le_refl _, fun a c => ?_, fun a c => ?_⟩
  · exact .of_cardIn rfl (by simp) (by decide) (rest := 0xFE :: payload 512) (after_frame rfl ..)
  · exact .of_cardIn (by simp) (by decide) (rest := [])
      ((after_fills (n := 1) (l := [0x00]) (after_frame rfl ..) rfl).trans (List.append_nil _).symm)

/-- Two blocks with their checksum bytes, the second behind a skipped byte, then the stop command's answers. -/
def twoBlocks (stop : List Byte) : List Byte :=
  ((0xFE :: payload 512) ++ [0x12, 0x34]) ++ (((0xFF :: 0xFE :: payload 512) ++ [0x56, 0x78]) ++ stop)

theorem blocks_answered {b : Bus} {stop : List Byte} (h : b.cardIn = twoBlocks stop) :
    BlocksAnswered params [([], payload 512), ([0xFF], payload 512)] b ∧
      (b.recvBlocks [([], payload 512), ([0xFF], payload 512)]).cardIn = stop := by
  have h2 : (Bus.send (fills (recvLen [] (payload 512))) b).cardIn =
      ((0xFF :: 0xFE :: payload 512) ++ [0x56, 0x78]) ++ stop :=
    after_fills (l := (0xFE :: payload 512) ++ [0x12, 0x34]) h (by simp [recvLen, payload_length])
  refine ⟨⟨payload_length _,
    .of_cardIn (rest := [0x12, 0x34] ++ (((0xFF :: 0xFE :: payload 512) ++ [0x56, 0x78]) ++ stop)) (by simp) (by decide) ?_,
    payload_length _, .of_cardIn (rest := [0x56, 0x78] ++ stop) (by decide) (by decide) ?_, trivial⟩, ?_⟩
  · rw [h, twoBlocks, List.append_assoc]; rfl
  · rw [h2, List.append_assoc]; rfl
  · exact after_fills (l := (0xFF :: 0xFE :: payload 512) ++ [0x56, 0x78]) h2 (by simp [recvLen, payload_length])

/-- The same card for a read of two blocks that ends with the stop status f (V-RD7 with two blocks; V-RD6 for f = 4). -/
theorem many_blocks_answered (f : BitVec 7) :
    ∃ s : State, s.accepting ∧ s.ready = true ∧ s.cdv = some .sectorAddressed ∧ s.blkN = 2 ∧ 512 * 2 ≤ s.bufLen ∧
      ∀ a c c', StatusAnswered false [] [] 0 (s.bus.command 18 a c) ∧
        BlocksAnswered s.cfg [([], payload 512), ([0xFF], payload 512)] (Bus.send (fills 1) (s.bus.command 18 a c)) ∧
        StatusAnswered true [0xFF] [] f
          (((Bus.send (fills 1) (s.bus.command 18 a c)).recvBlocks
            [([], payload 512), ([0xFF], payload 512)]).command 12 0 c') := by
  refine ⟨{ ready (framed ([0x00] ++ twoBlocks (framed [0xFF, statusByte f]))) with blkN := 2, bufLen := 1024 },
    ⟨rfl, rfl, rfl⟩, rfl, rfl, rfl, Nat.le_refl _, fun a c c' => ?_⟩
  obtain ⟨hb, hc⟩ := blocks_answered (stop := framed [0xFF, statusByte f])
    (after_fills (l := [0x00]) (after_frame (b := (ready (framed ([0x00] ++ _))).bus) rfl 18 a c) rfl)
  exact ⟨.of_cardIn rfl (by simp) (by decide) (after_frame rfl ..), hb,
    .of_cardIn rfl (by simp) (by decide) (rest := []) (after_frame hc ..)⟩

theorem witness_ReadOfManyBlocksSucceeds :
    2 ≤ [(([] : List Byte), payload 512), ([0xFF], payload 512)].length ∧ 0 * Cdv.sectorAddressed.toNat < 2 ^ 32 ∧
      ∃ s : State, s.accepting ∧ s.ready = true ∧ s.cdv = some .sectorAddressed ∧ s.blkN = 2 ∧ 512 * 2 ≤ s.bufLen ∧
      ∀ a c c', StatusAnswered false [] [] 0 (s.bus.command 18 a c) ∧
        BlocksAnswered s.cfg [([], payload 512), ([0xFF], payload 512)] (Bus.send (fills 1) (s.bus.command 18 a c)) ∧
        StatusAnswered true [0xFF] [] 0
          (((Bus.send (fills 1) (s.bus.command 18 a c)).recvBlocks
            [([], payload 512), ([0xFF], payload 512)]).command 12 0 c') :=
  ⟨by simp, by decide, many_blocks_answered 0⟩

theorem witness_StopStatusErrorEndsAMultiBlockRead :
    (4 : BitVec 7) ≠ 0 ∧
      ∃ s : State, s.accepting ∧ s.ready = true ∧ s.cdv = some .sectorAddressed ∧ s.blkN = 2 ∧ 512 * 2 ≤ s.bufLen ∧
      ∀ a c c', StatusAnswered false [] [] 0 (s.bus.command 18 a c) ∧
        BlocksAnswered s.cfg [([], payload 512), ([0xFF], payload 512)] (Bus.send (fills 1) (s.bus.command 18 a c)) ∧
        StatusAnswered true [0xFF] [] 4
          (((Bus.send (fills 1) (s.bus.command 18 a c)).recvBlocks
            [([], payload 512), ([0xFF], payload 512)]).command 12 0 c') :=
  ⟨by decide, many_blocks_answered 4⟩

/-- The stop command never answered: its skipped byte and 1000 polls without a status. -/
theorem witness_StopStatusErrorEndsAMultiBlockRead_unanswered :
    ∃ s : State, s.accepting ∧ s.ready = true ∧ s.cdv = some .sectorAddressed ∧
      ∀ a c c', StatusAnswered false [] [] 0 (s.bus.command 18 a c) ∧
        BlocksAnswered s.cfg [([], payload 512), ([0xFF], payload 512)] (Bus.send (fills 1) (s.bus.command 18 a c)) ∧
        NoStatus true
          (((Bus.send (fills 1) (s.bus.command 18 a c)).recvBlocks
            [([], payload 512), ([0xFF], payload 512)]).command 12 0 c') := by
  refine ⟨ready (framed ([0x00] ++ twoBlocks (framed (0x00 :: List.replicate 1000 0xFF)))), ⟨rfl, rfl, rfl⟩, rfl, rfl,
    fun a c c' => ?_⟩
  obtain ⟨hb, hc⟩ := blocks_answered (stop := framed (0x00 :: List.replicate 1000 0xFF))
    (after_fills (l := [0x00]) (after_frame (b := (ready (framed ([0x00] ++ _))).bus) rfl 18 a c) rfl)
  exact ⟨.of_cardIn rfl (by simp) (by decide) (after_frame rfl ..), hb,
    noStatus_fill (lead := [0x00]) (rest := []) rfl ((after_frame hc ..).trans (by rw [List.append_nil]; rfl))⟩

theorem witness_ReadCsdDeliversSixteenBytes :
    (∃ s : State, s.accepting ∧ (payload 16).length = 16 ∧
      (∀ c, StatusAnswered false [] [0xFF] 0 (s.bus.command 9 0 c)) ∧
      ∀ c, BlockAnswered s.cfg [] (payload 16) (Bus.send (fills 2) (s.bus.command 9 0 c))) ∧
      (4 : BitVec 7) ≠ 0 ∧ (∀ c, StatusAnswered false [] [] 4 ((ready (framed [0x04])).bus.command 9 0 c)) ∧
      ∀ c, NoStatus false ((ready (framed (List.replicate 1000 0xFF))).bus.command 9 0 c) := by
  refine ⟨⟨ready (framed ([0xFF, 0x00] ++ (0xFE :: payload 16))), ⟨rfl, rfl, rfl⟩, payload_length _, fun c => ?_,
    fun c => ?_⟩, by decide, fun c => ?_, fun c => ?_⟩
  · exact .of_cardIn rfl (by decide) (by decide) (rest := 0xFE :: payload 16) (after_frame rfl ..)
  · exact .of_cardIn (by simp) (by decide) (rest := [])
      ((after_fills (n := 2) (l := [0xFF, 0x00]) (after_frame rfl ..) rfl).trans (List.append_nil _).symm)
  · exact .of_cardIn rfl (by simp) (by decide) (rest := []) (after_frame rfl ..)
  · exact noStatus_fill (lead := []) (rest := []) rfl (by rw [after_frame rfl, List.append_nil]; rfl)

/-- V-RD2, V-RD3. -/
theorem witness_CommandStatusErrorEndsTheTransfer :
    (ready []).accepting ∧ (ready []).ready = true ∧ (ready []).cdv = some .sectorAddressed ∧
      0 * Cdv.sectorAddressed.toNat < 2 ^ 32 ∧ 0 < 512 ∧ 512 % 512 = 0 ∧ 1024 % 512 = 0 ∧ (4 : BitVec 7) ≠ 0 ∧
      (∀ i a c, StatusAnswered false [] [] 4 ((ready (framed [0x04])).bus.command i a c)) ∧
      ∀ i a c, NoStatus false ((ready (framed (List.replicate 1000 0xFF))).bus.command i a c) :=
  ⟨by decide, rfl, rfl, by decide, by decide, by decide, by decide, by decide,
    fun i a c => .of_cardIn rfl (by simp) (by decide) (rest := []) (after_frame rfl ..),
    fun i a c => noStatus_fill (lead := []) (rest := []) rfl (by rw [after_frame rfl, List.append_nil]; rfl)⟩

theorem witness_CheckDrespAcceptsOrAbandons :
    (acked 24 [0xE5]).accepting ∧ drespAccepts params (acked 24 [0xE5]).bus.answer = true ∧
      drespAccepts params (acked 24 [0x0B]).bus.answer = false ∧
      ({ acked 24 [0x0B] with phase := .dresp, op := .write, bufLen := 512 } : State).phase = .dresp := by decide

/-- V-BW2, V-BW3. -/
theorem witness_BusyWaitEndsAtAnyNonZeroByte :
    (∃ s : State, s.phase = .busy ∧ s.bus.answer ≠ 0) ∧
      (∃ s : State, s.phase = .busy ∧ s.bus.answer = 0 ∧ busyWithin s.cfg (s.busyCnt + 1)) ∧
      (acked 24 []).accepting ∧ (acked 24 []).cs = true ∧
      BusyAnswered params 7 0x80 (acked 24 (List.replicate 7 0x00 ++ [0x80])).bus ∧
      BusyAnswered params 0 0xFF (acked 24 [0xFF]).bus := by
  refine ⟨⟨{ acked 24 [0x01] with phase := .busy }, rfl, by decide⟩,
    ⟨{ acked 24 [0x00] with phase := .busy, busyCnt := 6 }, rfl, by decide, by rintro m ⟨⟩; decide⟩, by decide, rfl, ?_, ?_⟩
  · exact .of_cardIn (rest := []) (by decide) (by rintro m ⟨⟩; decide) rfl
  · exact .of_cardIn (rest := []) (by decide) (by rintro m ⟨⟩; decide) rfl

/-- V-BW4; the last poll of the wait of a write in flight; and V-BW5's first thousand polls. -/
theorem witness_BusyWaitIsBoundedOnlyByItsBudget :
    (acked 24 []).accepting ∧ (acked 24 []).cs = true ∧ 0 < 8 ∧ params.busyBudget = some 8 ∧
      Bus.answers (fills 8) (acked 24 (List.replicate 8 0x00)).bus = List.replicate 8 0 ∧
      (∃ s : State, s.phase = .busy ∧ s.op = .write ∧ s.cfg.busyBudget = some (s.busyCnt + (0 + 1)) ∧
        Bus.answers (fills (0 + 1)) s.bus = List.replicate (0 + 1) 0) ∧
      ∃ s : State, s.phase = .busy ∧ s.cfg.busyBudget = none ∧
        Bus.answers (fills 1000) s.bus = List.replicate 1000 0 :=
  ⟨by decide, rfl, by decide, rfl, by decide,
    ⟨{ acked 24 [0x00] with phase := .busy, op := .write, busyCnt := 7 }, by decide⟩,
    { acked 24 (List.replicate 1000 0x00) with phase := .busy, cfg := { params with busyBudget := none } }, rfl, rfl,
    Bus.answers_of_cardIn _ (rest := []) (List.append_nil _).symm (by rw [List.length_replicate, fills_length])⟩

theorem witness_SendBlockSendsTheBuffer :
    (acked 25 takenBlock).accepting ∧ writeAcknowledged (acked 25 takenBlock) = true ∧
      512 + 512 ≤ ({ acked 25 takenBlock with bufLen := 1024 } : State).bufLen ∧
      BlockAccepted params 0x05 1 0xFF
        (Bus.send (blockOut (tokenByte params .multiWrite) (Memory.readList [(512, 0x3C)] 512 512))
          (acked 25 takenBlock).bus) :=
  ⟨⟨rfl, rfl, rfl⟩, rfl, Nat.le_refl _, accepted_of_taken _ _ _ (rest := []) (List.append_nil _).symm⟩

theorem witness_SendStopSendsTheTokenAndWaits :
    (acked 25 [0xFF, 0x00, 0xFF]).accepting ∧ (acked 25 [0xFF, 0x00, 0xFF]).cs = true ∧
      0 < params.busyBudget.getD 1 ∧ 0 < ({ params with busyBudget := none } : Params).busyBudget.getD 1 ∧
      BusyAnswered params 1 0xFF ((acked 25 [0xFF, 0x00, 0xFF]).bus.xchg params.tokenStopTran) :=
  ⟨⟨rfl, rfl, rfl⟩, rfl, by decide, by decide, .of_cardIn (rest := []) (by decide) (by rintro m ⟨⟩; decide) rfl⟩

/-- V-WR1. -/
theorem witness_WriteOfOneBlockSucceeds :
    ∃ s : State, s.accepting ∧ s.ready = true ∧ s.cdv = some .sectorAddressed ∧
      3 * Cdv.sectorAddressed.toNat < 2 ^ 32 ∧ s.blkN = 1 ∧ 512 ≤ s.bufLen ∧
      (∀ a c, StatusAnswered false [] [] 0 (s.bus.command 24 a c)) ∧
      ∀ a c, BlockAccepted s.cfg 0x05 1 0xFF
        (Bus.send (blockOut s.cfg.tokenDataStart (Memory.readList s.buf 0 512))
          (Bus.send (fills 1) (s.bus.command 24 a c))) := by
  refine ⟨{ ready (framed ([0x00] ++ takenBlock)) with blkN := 1, bufLen := 512 }, ⟨rfl, rfl, rfl⟩, rfl, rfl, by decide,
    rfl, Nat.le_refl _, fun a c => ?_, fun a c => ?_⟩
  · exact .of_cardIn rfl (by simp) (by decide) (rest := takenBlock) (after_frame rfl ..)
  · exact accepted_of_taken _ _ _ (rest := [])
      ((after_fills (n := 1) (l := [0x00]) (after_frame rfl ..) rfl).trans (List.append_nil _).symm)

theorem witness_WriteOfManyBlocksSucceeds :
    ∃ s : State, s.accepting ∧ s.ready = true ∧ s.cdv = some .sectorAddressed ∧
      16 * Cdv.sectorAddressed.toNat < 2 ^ 32 ∧ s.blkN = 2 ∧ 512 * 2 ≤ s.bufLen ∧
      ∀ a c, StatusAnswered false [] [] 0 (s.bus.command 25 a c) ∧
        BlocksAccepted s.cfg s.buf 0 [⟨0x05, 1, 0xFF⟩, ⟨0x05, 1, 0xFF⟩] (Bus.send (fills 1) (s.bus.command 25 a c)) ∧
        BusyAnswered s.cfg 7 0x01
          (((Bus.send (fills 1) (s.bus.command 25 a c)).sendBlocks s.cfg s.buf 0
            [⟨0x05, 1, 0xFF⟩, ⟨0x05, 1, 0xFF⟩]).xchg s.cfg.tokenStopTran) := by
  refine ⟨{ ready (framed ([0x00] ++ (takenBlock ++ (takenBlock ++ (0xFF :: (List.replicate 7 0 ++ [0x01])))))) with
      blkN := 2, bufLen := 1024 }, ⟨rfl, rfl, rfl⟩, rfl, rfl, by decide, rfl, Nat.le_refl _, fun a c => ?_⟩
  have h1 := after_fills (l := [0x00])
    (after_frame (b := (ready (framed ([0x00] ++ (takenBlock ++ (takenBlock ++
      (0xFF :: (List.replicate 7 0 ++ [0x01]))))))).bus) rfl 25 a c) rfl
  have h2 := after_taken [] (512 * 0) params.tokenMultiWrite h1
  have h3 := after_taken [] (512 * 1) params.tokenMultiWrite h2
  refine ⟨.of_cardIn rfl (by simp) (by decide) (after_frame rfl ..),
    ⟨accepted_of_taken _ _ _ h1, accepted_of_taken _ _ _ h2, trivial⟩,
    .of_cardIn (rest := []) (by decide) (by rintro m ⟨⟩; decide) ?_⟩
  rw [Bus.xchg_cardIn]
  refine (congrArg List.tail h3).trans ?_
  rfl

theorem witness_FacadeQueriesReturnTheSectorCount :
    (ready []).phase = .idle ∧ (ready []).pending = false ∧ (ready []).ready = true ∧
      (ready []).sectors = some 118784 ∧ (ready []).Inv := ⟨rfl, rfl, rfl, rfl, ready_inv [] [] rfl⟩

theorem witness_ClassifyComparesWholeBytes :
    params.flagIdle = 0x01 ∧ params.flagIllegal = 0x04 ∧
      (5 : BitVec 7) ≠ 0 ∧ (5 : BitVec 7) ≠ params.flagIdle ∧ (5 : BitVec 7) = params.flagIdle ||| params.flagIllegal ∧
      (4 : BitVec 7) ≠ params.flagIdle ||| params.flagIllegal ∧ (1 : BitVec 7) = params.flagIdle := by decide

theorem witness_Crc7GeneratorIsLinear : (payload 5).length = (payload 5).length ∧ ([] : List Byte).length = 0 := by decide

theorem witness_BootClocksTheBusFirst :
    State.reset.phase = .idle ∧ State.reset.host = .boot (.start false) :: [] ∧
      ({ ready [] with host := [.boot (.start true)] } : State).host = .boot (.start true) :: [] := by decide

theorem witness_GoIdleIsTriedAtMostFiveTimes :
    (∃ s : State, s.cfg.flagIdle ≠ 0 ∧ s.resp = .status s.cfg.flagIdle) ∧
      ∃ s : State, s.resp ≠ .status s.cfg.flagIdle ∧ 4 < 5 ∧ 5 ≤ 5 :=
  ⟨⟨{ ready [] with resp := .status 0x01 }, by decide⟩, ⟨{ ready [] with resp := .timeout }, by decide⟩⟩

theorem witness_ProbeSelectsTheGeneration :
    params.wf = true ∧ Response.status 0x05 = .status (params.flagIdle ||| params.flagIllegal) ∧
      Response.timeout ≠ .status params.flagIdle ∧
      Response.timeout ≠ .status (params.flagIdle ||| params.flagIllegal) ∧
      Response.status 0x01 = .status params.flagIdle := by decide

theorem witness_NegotiationLoopsAreBounded :
    (ready []).resp ≠ .status 0 ∧ (acked 41 []).resp = .status 0 ∧ 999 < 1000 ∧ 1000 ≤ 1000 := by decide

/-- A negotiation iteration from a released bus: CMD55 with status 0x01, nine ticks after the first step; the last boot
step, which makes no bus event; and the first attempt after the bus clocking. -/
theorem witness_BootStepsLeaveTheBusReleased :
    (ready (framed [0x01])).busIdle ∧
      (∃ u t, bootStep (.gen2OcrRead 1) (ready (framed [0x01])) = .next u ∧ ticks 9 u = .next t ∧ t.phase = .idle) ∧
      (∃ u t, bootStep .blockLenSent (ready []) = .next u ∧ ticks 0 u = .next t ∧ t.phase = .idle) ∧
      State.reset.accepting ∧ ∀ debug, Boot.clocked ≠ .start debug :=
  ⟨by decide, ⟨_, _, rfl, rfl, rfl⟩, ⟨_, _, rfl, rfl, rfl⟩, by decide, fun _ => by simp⟩

theorem witness_CapacityArithmetic :
    csdVersion [0x40, 0, 0, 0, 0, 0, 0, 0, 0xFF, 0xFF, 0, 0, 0, 0, 0, 0] = 0b01 ∧
      csdSectors [0x40, 0, 0, 0, 0, 0, 0, 0, 0xFF, 0xFF, 0, 0, 0, 0, 0, 0] = some 67108864 ∧
      csdVersion [0x3F, 0, 0, 0, 0, 0, 3, 0xFF, 0xFF, 3, 0x80, 0, 0, 0, 0, 0] = 0b00 ∧
      csdSectors [0x3F, 0, 0, 0, 0, 0, 3, 0xFF, 0xFF, 3, 0x80, 0, 0, 0, 0, 0] = some 2097152 ∧
      csdVersion (0x80 :: payload 15) = 0b10 ∧ csdVersion (0xC0 :: payload 15) = 0b11 ∧
      (0xC0 :: payload 15).length = 16 := by decide

/-- The bytes of S1's register, and of a register of another layout; READ_CSD's own error; the step that sets READY. -/
theorem witness_ReadyOnlyAfterTheBlockLengthIsAccepted :
    (∃ s : State, s.err = none ∧ csdSectors (Memory.readList s.csd 0 16) = some 118784) ∧
      (∃ s : State, s.err = none ∧ csdSectors (Memory.readList s.csd 0 16) = none) ∧
      (∃ s : State, s.err = some (.ioTimeout .waitingForData)) ∧
      (∃ s : State, s.resp = .status 0) ∧ (∃ s : State, s.resp ≠ .status 0) ∧
      ∃ s t : State, step s = .next t ∧ s.ready = false ∧ t.ready = true :=
  ⟨⟨{ State.reset with csd := [(0, 0x40), (9, 0x73)] }, rfl, by decide⟩,
    ⟨{ State.reset with csd := [(0, 0x80)] }, rfl, by decide⟩,
    ⟨{ State.reset with err := some (.ioTimeout .waitingForData) }, rfl⟩, ⟨acked 16 [], rfl⟩,
    ⟨{ ready [] with resp := .status 5 }, by decide⟩,
    ⟨{ ready [] with ready := false, resp := .status 0, host := [.boot .blockLenSent] }, _, rfl, rfl, rfl⟩⟩

end Sys2Proof.Tests
end

/-! ### What a step can do, and who writes the parameters and the session registers (R8, R20, R27, R28) -/

namespace Sys2Proof.Machine

/-- R20: how one step leads from s to t: a tick of the operation in flight, or else the host's next call. -/
inductive Stepped (s t : State) : Prop where
  | inFlight (busy : s.phase ≠ .idle) (tick : tick s = .next t)
  | waits (idle : s.phase = .idle) (host : s.host = []) (same : t = s)
  | calls (i : Instr) (rest : List HostCall) (idle : s.phase = .idle) (host : s.host = .call i :: rest)
      (exec : exec i { s with host := rest } = .next t)
  | wires (nbits w : Nat) (i : Instr) (rest : List HostCall) (idle : s.phase = .idle)
      (host : s.host = .wire nbits w :: rest) (row : decodeWord s.cfg nbits w = some i)
      (exec : exec i { s with host := rest } = .next t)
  | pokes (off : Nat) (bytes : List Byte) (rest : List HostCall) (idle : s.phase = .idle)
      (host : s.host = .poke off bytes :: rest)
      (poked : t = { s with host := rest, buf := Memory.writeList s.buf off bytes })
  | boots (b : Boot) (rest : List HostCall) (idle : s.phase = .idle) (host : s.host = .boot b :: rest)
      (boot : bootStep b { s with host := rest } = .next t)

/-- Every step that answers a next state is one of these. -/
theorem step_cases {s t : State} (h : step s = .next t) : Stepped s t := by
  unfold step at h
  split at h
  · rename_i idle
    split at h
    · rename_i host
      cases h
      exact .waits idle host rfl
    · rename_i i rest host
      exact .calls i rest idle host h
    · rename_i nbits w rest host
      split at h
      · rename_i i row
        exact .wires nbits w i rest idle host row h
      · cases h
    · rename_i off bytes rest host
      cases h
      exact .pokes off bytes rest idle host rfl
    · rename_i b rest host
      exact .boots b rest idle host h
  · rename_i busy
    exact .inFlight busy h

/-! ### The next state of an outcome, if it has one: one rule for each shared way to accept an operation -/

/-- Every next state of the outcome satisfies P. -/
structure NextSat (P : State → Prop) (o : Out) : Prop where
  sat : ∀ t, o = .next t → P t

namespace NextSat

variable {P : State → Prop}

theorem next {t : State} (h : P t) : NextSat P (.next t) := ⟨by rintro _ ⟨⟩; exact h⟩

theorem refused (r : Refusal) : NextSat P (.refused r) := ⟨by rintro _ ⟨⟩⟩

theorem ite {c : Prop} [Decidable c] {o o' : Out} (h : c → NextSat P o) (h' : ¬ c → NextSat P o') :
    NextSat P (if c then o else o') := by
  split
  · exact h (by assumption)
  · exact h' (by assumption)

/-- A test that must hold, else the request is refused. -/
theorem require {c : Prop} [Decidable c] {o : Out} {r : Refusal} (h : c → NextSat P o) :
    NextSat P (if c then o else .refused r) := .ite h fun _ => .refused r

/-- A test on which the request is refused. -/
theorem refuseIf {c : Prop} [Decidable c] {o : Out} {r : Refusal} (h : ¬ c → NextSat P o) :
    NextSat P (if c then .refused r else o) := .ite (fun _ => .refused r) h

theorem begin {s : State} {k : State → Out} (h : s.phase = .idle → s.pending = false → NextSat P (k (started s))) :
    NextSat P (begin s k) :=
  .refuseIf fun idle => .refuseIf fun hp => h (not_not.1 idle) (Bool.eq_false_of_not_eq_true hp)

theorem beginAwait {s : State} {e : Nat} {r k : Bool}
    (h : s.phase = .idle → s.pending = true → NextSat P (tick (enterAwait e r k [.finish .response] (started s)))) :
    NextSat P (beginAwait e r k s) :=
  .refuseIf fun idle => .require fun hp => h (not_not.1 idle) hp

theorem beginQuery {s : State} {k : State → Out} (h : s.ready = true → NextSat P (k s)) : NextSat P (beginQuery s k) :=
  .refuseIf fun _ => .refuseIf fun _ => .refuseIf fun hr => h (by simpa using hr)

theorem withBuffer {top : Nat} {s : State} {o : Out} (h : top ≤ s.bufLen → NextSat P o) :
    NextSat P (withBuffer top s o) := .require h

theorem withArgument {start : Nat} {s : State} {k : Arg → Out}
    (h : ∀ m a, s.cdv = some m → transferArgument start m = some a → NextSat P (k a)) :
    NextSat P (withArgument start s k) := by
  unfold Machine.withArgument
  split
  · exact .refused _
  · split
    · exact .refused _
    · exact h _ _ (by assumption) (by assumption)

theorem receive {s : State} {bs : List Byte} {idle : State → Out} (h : s.phase = .idle → NextSat P (idle s))
    (h' : s.phase ≠ .idle → NextSat P (tick (present bs s))) : NextSat P (receive bs idle s) := .ite h h'

theorem startOrLineUp {s : State} {due : Bool} {bs : List Byte} {start : State → State}
    (h : due = true → NextSat P (Machine.begin s fun s => tick (start (present bs s)))) (h' : P (lineUp bs s)) :
    NextSat P (startOrLineUp due bs start s) :=
  .ite (fun hd => h (Bool.and_eq_true_iff.1 hd).1) fun _ => .next h'

theorem polledWhenIdle {s : State} {extra : Nat} {bs : List Byte}
    (h : NextSat P (Machine.beginAwait extra true false (present bs s))) (h' : P (lineUp bs s)) :
    NextSat P (polledWhenIdle extra bs s) := .ite (fun _ => h) fun _ => .next h'

theorem returnSectors {s : State} (h : ∀ n, s.sectors = some n → P { s with result := .count n }) :
    NextSat P (returnSectors s) := by
  unfold Machine.returnSectors
  split
  · exact .next (h _ (by assumption))
  · exact .refused _

end NextSat

/-! ### Entering a micro-operation keeps the session registers -/

theorem enterWaitToken_session (ks : List Cont) (s : State) : SessionKept s (enterWaitToken ks s) :=
  (enterWaitToken_same ks s).session

theorem enterBusyWait_session (ks : List Cont) (s : State) : SessionKept s (enterBusyWait ks s) :=
  (enterBusyWait_same ks s).session

theorem enterBlockIn_session (n : Nat) (s : State) : SessionKept s (enterBlockIn n s) := by
  unfold enterBlockIn
  split
  · exact SessionKept.trans (by constructor <;> rfl) (enterWaitToken_session _ { s with bufLen := Config.blockSize })
  · exact enterWaitToken_session _ s

/-! ### No operation of the host writes a session register -/

section
variable {s : State}

theorem tick_keeps {u : State} (h : SessionKept s u) : NextSat (SessionKept s) (tick u) :=
  ⟨fun _ ht => h.trans (tick_session ht)⟩

theorem frameThenPoll_keeps (i : Index) (a : Arg) (c : Crc7) (e : Nat) (r k : Bool) :
    NextSat (SessionKept s) (frameThenPoll i a c e r k s) := .begin fun _ _ => tick_keeps (by constructor <;> rfl)

theorem sendByte_keeps (b : Byte) : NextSat (SessionKept s) (sendByte b s) :=
  .begin fun _ _ => tick_keeps (by constructor <;> rfl)

theorem receive_keeps (bs : List Byte) {idle : State → Out} (h : NextSat (SessionKept s) (idle s)) :
    NextSat (SessionKept s) (receive bs idle s) :=
  .receive (fun _ => h) fun _ => tick_keeps (by constructor <;> rfl)

theorem startOrLineUp_keeps (due : Bool) (bs : List Byte) {start : State → State} (h : ∀ u, SessionKept u (start u)) :
    NextSat (SessionKept s) (startOrLineUp due bs start s) :=
  .startOrLineUp
    (fun _ => .begin fun _ _ => tick_keeps (.trans (by constructor <;> rfl) (h (present bs (started s)))))
    (by constructor <;> rfl)

theorem polled_keeps (e : Nat) (bs : List Byte) : NextSat (SessionKept s) (receive bs (polledWhenIdle e bs) s) :=
  receive_keeps bs (.polledWhenIdle (.beginAwait fun _ _ => tick_keeps (by constructor <;> rfl)) (by constructor <;> rfl))

theorem sectorsQuery_keeps : NextSat (SessionKept s) (beginQuery s returnSectors) :=
  .beginQuery fun _ => .returnSectors fun _ _ => by constructor <;> rfl

/-- A transfer case issued alone: READY, BLK_N, the buffer, the argument, and then the first primitive. -/
theorem transferAlone_keeps {mismatch : State → Prop} [DecidablePred mismatch] {top : State → Nat} {start : Nat}
    {enter : Arg → State → State} (h : ∀ a, SessionKept s (enter a (started s))) :
    NextSat (SessionKept s) (begin s fun s =>
      if !s.ready then .refused .notReady
      else if mismatch s then .refused .blockCountMismatch
      else withBuffer (top s) s (withArgument start s fun a => tick (enter a s))) :=
  .begin fun _ _ => .refuseIf fun _ => .refuseIf fun _ => .withBuffer fun _ => .withArgument fun _ a _ _ =>
    tick_keeps (h a)

end

/-- One rule of acceptance after the other, down to the first primitive: a tick from a state that keeps them. -/
theorem exec_keeps (i : Instr) (s : State) : NextSat (SessionKept s) (exec i s) := by
  have started : SessionKept s (started s) := by constructor <;> rfl
  cases i <;> dsimp only [exec]
  case cmd0 | cmd8 | cmd9 | cmd12 | cmd16 | cmd17 | cmd18 | cmd24 | cmd25 | acmd41 | cmd55 | cmd58 =>
    exact frameThenPoll_keeps ..
  case cfAny | fill | release | clockIdle | readCsd | checkDresp =>
    exact .begin fun _ _ => tick_keeps (by constructor <;> rfl)
  case tokenDataStart =>
    exact receive_keeps _
      (.ite (fun _ => startOrLineUp_keeps _ _ (enterWaitToken_session _)) fun _ => sendByte_keeps _)
  case tokenMultiWrite | tokenStopTran => exact sendByte_keeps _
  case r1 | r1Tail | notStatus => exact polled_keeps _ _
  case drespAccepted => exact receive_keeps _ (startOrLineUp_keeps _ _ fun _ => by constructor <;> rfl)
  case busy => exact receive_keeps _ (startOrLineUp_keeps _ _ (enterBusyWait_session _))
  case dblkR => exact .require fun _ => receive_keeps _ (startOrLineUp_keeps _ _ (enterBlockIn_session _))
  case dblkW => exact .require fun _ => .begin fun _ _ => .require fun _ => tick_keeps (by constructor <;> rfl)
  case sendCommand | cmd | acmd => exact .require fun _ => .begin fun _ _ => tick_keeps (by constructor <;> rfl)
  case awaitResponse => exact .beginAwait fun _ _ => tick_keeps (by constructor <;> rfl)
  case readBlocks | writeBlocks =>
    exact .begin fun _ _ => .refuseIf fun _ => .ite
      (fun _ => .withArgument fun _ _ _ _ => .ite (fun _ => tick_keeps (by constructor <;> rfl))
        fun _ => tick_keeps (by constructor <;> rfl))
      fun _ => .next (by constructor <;> rfl)
  case blockCount => exact sectorsQuery_keeps
  case control op =>
    cases op with
    | getSectorCount => exact sectorsQuery_keeps
    | other => exact .refused _
  case blockSize | crc7Gen | classify => exact .next (by constructor <;> rfl)
  case build => exact .require fun _ => .next (by constructor <;> rfl)
  case checkBuffer =>
    exact .begin fun _ _ => .ite (fun _ => .next (by constructor <;> rfl)) fun _ => .next (by constructor <;> rfl)
  case waitToken =>
    exact .begin fun _ _ => .require fun _ => tick_keeps (started.trans (enterWaitToken_session _ _))
  case recvBlock =>
    exact .require fun _ => .begin fun _ _ => .require fun _ => .withBuffer fun _ =>
      tick_keeps (started.trans (enterWaitToken_session _ _))
  case sendBlock =>
    exact .begin fun _ _ => .require fun _ => .withBuffer fun _ => tick_keeps (by constructor <;> rfl)
  case busyWait => exact .begin fun _ _ => .require fun _ => tick_keeps (started.trans (enterBusyWait_session _ _))
  case sendStop => exact .begin fun _ _ => .require fun _ => tick_keeps (by constructor <;> rfl)
  case readSingle | readMulti | writeSingle | writeMulti =>
    exact transferAlone_keeps fun _ => by constructor <;> rfl

/-- R8, R28: no operation of the host writes a parameter, a session register or the host's further calls. -/
theorem exec_session {i : Instr} {s t : State} (h : exec i s = .next t) : SessionKept s t := (exec_keeps i s).sat t h

/-! ### The boot sequence keeps the parameters -/

section
variable {p : Params}

theorem bootIssue_cfg {b : Boot} {i : Instr} {u : State} (h : u.cfg = p) : NextSat (·.cfg = p) (bootIssue b i u) :=
  ⟨fun _ ht => (exec_session ht).cfg.trans h⟩

theorem bootGoIdle_cfg {attempt : Nat} {u : State} (h : u.cfg = p) : NextSat (·.cfg = p) (bootGoIdle attempt u) :=
  bootIssue_cfg h

theorem bootReadCsd_cfg {u : State} (h : u.cfg = p) : NextSat (·.cfg = p) (bootReadCsd u) := bootIssue_cfg h

theorem bootFail_cfg {e : BlockError} {u : State} (h : u.cfg = p) : NextSat (·.cfg = p) (bootFail e u) := .next h

/-- A judgement with two ways on: either one issues the next operation, else construction fails. -/
theorem bootJudge_cfg {c d : Prop} [Decidable c] [Decidable d] {b b' : Boot} {i i' : Instr} {e : BlockError}
    {u u' v : State} (h : u.cfg = p) (h' : u'.cfg = p) (hv : v.cfg = p) :
    NextSat (·.cfg = p) (if c then bootIssue b i u else if d then bootIssue b' i' u' else bootFail e v) :=
  .ite (fun _ => bootIssue_cfg h) fun _ => .ite (fun _ => bootIssue_cfg h') fun _ => bootFail_cfg hv

end

/-- R8: no step of the boot sequence writes a parameter, not even a new construction. -/
theorem bootStep_cfg (b : Boot) (s : State) : NextSat (·.cfg = s.cfg) (bootStep b s) := by
  cases b with
  | start | gen1Announced | gen2OcrRead | gen2Announced => exact bootIssue_cfg rfl
  | clocked => exact bootGoIdle_cfg rfl
  | gen2Reread => exact bootReadCsd_cfg rfl
  | idleTried | probed | gen1Polled | gen2Polled => exact bootJudge_cfg rfl rfl rfl
  | csdRead =>
    show NextSat _ (bootJudgeCsd s)
    unfold bootJudgeCsd
    split
    · exact bootFail_cfg rfl
    · dsimp only
      split
      · exact bootFail_cfg rfl
      · exact bootIssue_cfg rfl
  | blockLenSent => exact .ite (fun _ => .next rfl) fun _ => bootFail_cfg rfl

/-! ### Steps -/

/-- R8: no step writes a parameter. -/
theorem step_cfg {s t : State} (h : step s = .next t) : t.cfg = s.cfg := by
  cases step_cases h with
  | inFlight _ tick => exact (tick_session tick).cfg
  | waits _ _ same => rw [same]
  | calls _ _ _ _ exec => exact (exec_session exec).cfg
  | wires _ _ _ _ _ _ _ exec => exact (exec_session exec).cfg
  | pokes _ _ _ _ _ poked => rw [poked]
  | boots b _ _ _ boot => exact ((bootStep_cfg b _).sat t boot).trans rfl

/-- R27: a step in flight, and a call that is no boot step, write no session register; only the host's calls may be fewer. -/
theorem step_session {s t : State} (h : step s = .next t)
    (hb : s.phase ≠ .idle ∨ ∀ b rest, s.host ≠ .boot b :: rest) :
    ∃ calls, SessionKept { s with host := calls } t := by
  cases step_cases h with
  | inFlight _ tick => exact ⟨s.host, tick_session tick⟩
  | waits _ _ same => exact ⟨s.host, same ▸ .refl s⟩
  | calls _ rest _ _ exec => exact ⟨rest, exec_session exec⟩
  | wires _ _ _ rest _ _ _ exec => exact ⟨rest, exec_session exec⟩
  | pokes _ _ rest _ _ poked => exact ⟨rest, by subst poked; constructor <;> rfl⟩
  | boots b rest idle host _ => exact absurd host (hb.resolve_left (· idle) b rest)

/-- R28: with READY = 1 and the invariant the only boot step that may be next is a new construction. -/
theorem State.Inv.boot_is_start {s : State} (hi : s.Inv) (hr : s.ready = true) {b : Boot} {rest : List HostCall}
    (hh : s.host = .boot b :: rest) : ∃ debug, b = .start debug := by
  have hs : b.sessionOk s = true := by
    have := hi.host
    simp only [State.hostOk, hh, Bool.and_eq_true] at this
    exact this.1
  cases b with
  | start debug => exact ⟨debug, rfl⟩
  | _ => simp [Boot.sessionOk, hr] at hs

/-- Settles O13: by the cases of a step; no tick and no operation of the host writes a session register, no boot step writes
a parameter, and with READY = 1 the invariant leaves a new construction as the only boot step. -/
theorem sessionRegistersAreWrittenByBootAlone : Obligations.SessionRegistersAreWrittenByBootAlone := by
  unfold Obligations.SessionRegistersAreWrittenByBootAlone
  refine ⟨fun s t => step_cfg, fun s t h hb => ?_, fun s t hi hr h hstart => ?_⟩
  · obtain ⟨_, kept⟩ := step_session h hb
    exact ⟨kept.ver, kept.cdv, kept.sectors, kept.busRate, kept.debug, kept.ready⟩
  · have noBoot : ∀ b rest, s.host ≠ .boot b :: rest := by
      intro b rest hh
      obtain ⟨debug, rfl⟩ := hi.boot_is_start hr hh
      exact hstart debug rest hh
    obtain ⟨_, kept⟩ := step_session h (.inr noBoot)
    exact ⟨kept.ver, kept.cdv, kept.sectors, kept.ready.trans hr⟩

end Sys2Proof.Machine

/-! ### What one tick does on the bus and to FRAME (R20, R21, R22, R33) -/

namespace Sys2Proof.Machine

/-- No bus event: the history, chip-select and FRAME are as they were. -/
structure BusKept (s t : State) : Prop where
  hist : t.bus.hist = s.bus.hist
  cs : t.cs = s.cs
  frame : t.frame = s.frame

theorem BusKept.refl (s : State) : BusKept s s := ⟨rfl, rfl, rfl⟩

theorem BusKept.trans {s t u : State} (h : BusKept s t) (h' : BusKept t u) : BusKept s u :=
  ⟨h'.hist.trans h.hist, h'.cs.trans h.cs, h'.frame.trans h.frame⟩

theorem SameBeyondControl.busKept {s t : State} (h : SameBeyondControl s t) : BusKept s t :=
  ⟨congrArg Bus.hist h.bus, h.cs, h.frame⟩

/-- R20: at most one bus primitive leads from s to t; FRAME is written by the assertion alone, and its bytes come next. -/
inductive Primitive (s t : State) : Prop where
  | none (kept : BusKept s t)
  | asserts (hist : t.bus.hist = .assert :: s.bus.hist) (cs : t.cs = true) (phase : t.phase = .frame 0)
  | deasserts (hist : t.bus.hist = .deassert :: s.bus.hist) (cs : t.cs = false) (frame : t.frame = s.frame)
  | exchanges (sent got : Byte) (hist : t.bus.hist = .xchg sent got :: s.bus.hist) (cs : t.cs = s.cs)
      (frame : t.frame = s.frame)

/-- What comes before the primitive, without a bus event, does not count. -/
theorem Primitive.after {s u t : State} (kept : BusKept s u) (h : Primitive u t) : Primitive s t := by
  cases h with
  | none h => exact .none (kept.trans h)
  | asserts hist cs phase => exact .asserts (by rw [hist, kept.hist]) cs phase
  | deasserts hist cs frame => exact .deasserts (by rw [hist, kept.hist]) cs (frame.trans kept.frame)
  | exchanges sent got hist cs frame =>
    exact .exchanges sent got (by rw [hist, kept.hist]) (cs.trans kept.cs) (frame.trans kept.frame)

/-- One exchange, and then register updates. -/
theorem Primitive.exchange {s t : State} (o : Byte) (h : BusKept { s with bus := s.bus.xchg o } t) : Primitive s t :=
  .exchanges o s.bus.answer (h.hist.trans (Bus.xchg_hist o s.bus)) h.cs h.frame

section
variable (s : State)

/-- Register updates that a return follows. -/
theorem ret_busKept {s u : State} (ks : List Cont) (h : BusKept s u) : BusKept s (ret ks u) :=
  h.trans (ret_same ks u).busKept

theorem afterFrameByte_busKept (k : Nat) : BusKept s (afterFrameByte k s) := by
  unfold afterFrameByte
  split
  · exact ⟨rfl, rfl, rfl⟩
  · exact ret_busKept _ ⟨rfl, rfl, rfl⟩

theorem afterPoll_busKept (e : Nat) (r : Bool) (b : Byte) : BusKept s (afterPoll e r b s) := by
  unfold afterPoll
  dsimp only
  split_ifs
  · exact ret_busKept _ ⟨rfl, rfl, rfl⟩
  · exact ret_busKept _ ⟨rfl, rfl, rfl⟩
  · exact ⟨rfl, rfl, rfl⟩

theorem afterToken_busKept (b : Byte) : BusKept s (afterToken b s) := by
  unfold afterToken
  dsimp only
  split_ifs
  · exact ret_busKept _ ⟨rfl, rfl, rfl⟩
  · exact ⟨rfl, rfl, rfl⟩
  · exact ⟨rfl, rfl, rfl⟩

theorem afterRecv_busKept (n : Nat) : BusKept s (afterRecv n s) := by
  unfold afterRecv
  dsimp only
  split_ifs
  · exact ⟨rfl, rfl, rfl⟩
  · exact ret_busKept _ ⟨rfl, rfl, rfl⟩

theorem afterSend_busKept : BusKept s (afterSend s) := by
  unfold afterSend
  dsimp only
  split_ifs
  · exact ⟨rfl, rfl, rfl⟩
  · exact ret_busKept _ ⟨rfl, rfl, rfl⟩

theorem afterDresp_busKept (b : Byte) : BusKept s (afterDresp b s) := by
  unfold afterDresp
  dsimp only
  split_ifs
  · exact ret_busKept _ ⟨rfl, rfl, rfl⟩
  · exact ⟨rfl, rfl, rfl⟩

theorem afterBusy_busKept (b : Byte) : BusKept s (afterBusy b s) := by
  unfold afterBusy
  dsimp only
  split_ifs
  · exact ret_busKept _ ⟨rfl, rfl, rfl⟩
  · exact ⟨rfl, rfl, rfl⟩
  · exact ⟨rfl, rfl, rfl⟩

end

/-- R20: a tick makes at most one bus primitive. -/
theorem tick_primitive {s t : State} (h : tick s = .next t) : Primitive s t := by
  cases hp : s.phase with
  | idle =>
    simp only [tick, hp] at h
    cases h
    exact .none (.refl s)
  | assert i a c =>
    rw [tick_assert hp] at h
    cases h
    exact .asserts rfl rfl rfl
  | frame k =>
    rw [tick_frame hp] at h
    cases h
    exact .exchange _ (afterFrameByte_busKept _ _)
  | skipLead e r =>
    rw [tick_skipLead hp] at h
    cases h
    exact .exchange _ ⟨rfl, rfl, rfl⟩
  | poll e r =>
    rw [tick_poll hp] at h
    cases h
    exact .exchange _ (afterPoll_busKept _ _ _ _)
  | deassert w n =>
    rw [tick_deassert hp] at h
    cases h
    have kept := (ret_same (.fill w n :: s.stack) { s with cs := false, bus := s.bus.note .deassert }).busKept
    exact .deasserts kept.hist kept.cs kept.frame
  | fill w n =>
    rw [tick_fill hp] at h
    cases h
    exact .exchange _ (ret_same _ _).busKept
  | tx b =>
    rw [tick_tx hp] at h
    cases h
    exact .exchange _ (ret_same _ _).busKept
  | token =>
    rw [tick_token hp] at h
    cases h
    exact .exchange _ (afterToken_busKept _ _)
  | recv d off n =>
    by_cases hb : off + s.byteIdx < d.len s.bufLen
    · rw [tick_recv hp hb] at h
      cases h
      have kept := afterRecv_busKept
        (d.put (Memory.write (d.bytes s) (off + s.byteIdx) s.bus.answer) { s with bus := s.bus.xchg Config.fill }) n
      exact .exchange Config.fill ⟨kept.hist, kept.cs, kept.frame⟩
    · simp only [tick, hp, if_neg hb] at h
      cases h
  | send off =>
    by_cases hb : off + s.byteIdx < s.bufLen
    · rw [tick_send hp hb] at h
      cases h
      exact .exchange _ (afterSend_busKept _)
    · simp only [tick, hp, if_neg hb] at h
      cases h
  | dresp =>
    rw [tick_dresp hp] at h
    cases h
    exact .exchange _ (afterDresp_busKept _ _)
  | busy =>
    rw [tick_busy hp] at h
    cases h
    exact .exchange _ (afterBusy_busKept _ _)

/-! ### Issuing an operation: what is prepared before its first primitive -/

/-- The part of the invariant that a return must establish, from the invariant itself. -/
theorem State.Inv.control {s : State} (hi : s.Inv) : ControlOk s :=
  ⟨fun h => (hi.pending h).2, hi.pollCnt, hi.byteIdx, hi.phase, hi.stack⟩

/-- R26, R30: between operations no operation is in flight and nothing is left to return to. -/
theorem State.Inv.at_rest {s : State} (hi : s.Inv) (idle : s.phase = .idle) : s.op = .none ∧ s.stack = [] := by
  simpa [State.phaseOk, idle] using hi.phase

/-- ERR, the result and the card's side of the bus are no part of the invariant. -/
theorem State.Inv.recorded {s : State} (hi : s.Inv) (e : Option BlockError) (r : Result) (b : Bus) :
    State.Inv { s with err := e, result := r, bus := b } :=
  ⟨hi.memory, hi.csd, hi.pending, hi.ready, hi.consistent, hi.pollCnt, hi.byteIdx, hi.phase, hi.stack, hi.host⟩

/-- Register updates that make no bus event and keep the invariant. -/
structure Prepared (s u : State) : Prop where
  bus : BusKept s u
  inv : s.Inv → u.Inv

namespace Prepared

theorem trans {s t u : State} (h : Prepared s t) (h' : Prepared t u) : Prepared s u :=
  ⟨h.bus.trans h'.bus, fun hi => h'.inv (h.inv hi)⟩

theorem started (s : State) : Prepared s (started s) := ⟨⟨rfl, rfl, rfl⟩, fun hi => hi.recorded _ _ _⟩

theorem present (bs : List Byte) (s : State) : Prepared s (present bs s) :=
  ⟨⟨rfl, rfl, rfl⟩, fun hi => hi.recorded _ _ _⟩

theorem lineUp (bs : List Byte) (s : State) : Prepared s (lineUp bs s) :=
  ⟨⟨rfl, rfl, rfl⟩, fun hi => hi.recorded _ _ _⟩

theorem result (r : Result) (s : State) : Prepared s { s with result := r } :=
  ⟨⟨rfl, rfl, rfl⟩, fun hi => hi.recorded _ _ _⟩

/-- The session registers kept, what is left to show is the memory and the control part. -/
theorem of_control {s u : State} (bus : BusKept s u) (session : SessionKept s u)
    (mem : Memory.wf s.buf ∧ Memory.wf s.csd → Memory.wf u.buf ∧ Memory.wf u.csd)
    (control : s.Inv → ControlOk u ∧ (u.pending = true → u.cs = true)) : Prepared s u :=
  ⟨bus, fun hi => inv_of_session hi session (mem ⟨hi.memory, hi.csd⟩) (control hi).1 (control hi).2⟩

/-- Between operations the host's buffer and BLK_N may be anything: no payload is still to be moved (R26, R50). -/
theorem rebuffer {s : State} (idle : s.phase = .idle) (N L : Nat) {m : List Host.Cell} (r : Result)
    (hm : Memory.wf s.buf → Memory.wf m) : Prepared s { s with blkN := N, bufLen := L, buf := m, result := r } :=
  .of_control ⟨rfl, rfl, rfl⟩ (by constructor <;> rfl) (fun hw => ⟨hm hw.1, hw.2⟩) fun hi =>
    ⟨idle_control idle (hi.at_rest idle).1 (hi.at_rest idle).2 hi.pollCnt hi.byteIdx, fun hp => (hi.pending hp).1⟩

section
variable {s : State} (hp : s.pending = false)
include hp

/-- The sequencer is put at a phase with return points, both such as the invariant asks for. -/
theorem enter (o : Op) (p : Phase) (ks : List Cont)
    (phase : State.phaseOk { s with op := o, phase := p, stack := ks } = true)
    (stack : ks.all (Cont.ok s.bufLen s.blkN) = true) : Prepared s { s with op := o, phase := p, stack := ks } :=
  .of_control ⟨rfl, rfl, rfl⟩ (by constructor <;> rfl) id fun hi =>
    ⟨⟨by simp [hp], hi.pollCnt, hi.byteIdx, phase, stack⟩, by simp [hp]⟩

theorem enterWaitToken {ks : List Cont} (stack : ks.all (Cont.ok s.bufLen s.blkN) = true) :
    Prepared s (enterWaitToken ks s) := by
  have same := enterWaitToken_same ks s
  refine .of_control same.busKept same.session (by rw [same.buf, same.csd]; exact id) fun hi => ?_
  have control := enterWaitToken_control stack hp hi.pollCnt hi.byteIdx
  refine ⟨control, ?_⟩
  unfold Machine.enterWaitToken
  split <;> simp [hp]

theorem enterBusyWait {ks : List Cont} (stack : ks.all (Cont.ok s.bufLen s.blkN) = true) :
    Prepared s (enterBusyWait ks s) := by
  have same := enterBusyWait_same ks s
  refine .of_control same.busKept same.session (by rw [same.buf, same.csd]; exact id) fun hi => ?_
  have control := enterBusyWait_control stack hp hi.pollCnt hi.byteIdx
  refine ⟨control, ?_⟩
  unfold Machine.enterBusyWait
  split <;> simp [hp]

/-- R86: a data block of a legal length fits the destination it is received into. -/
theorem enterBlockIn {n : Nat} (idle : s.phase = .idle) (hn : payloadLenOk n = true) : Prepared s (enterBlockIn n s) := by
  unfold Machine.enterBlockIn
  split
  · rename_i h
    subst h
    exact (rebuffer idle s.blkN Config.blockSize s.result id).trans
      (enterWaitToken (s := { s with bufLen := Config.blockSize }) hp rfl)
  · rename_i h
    have h16 : n = Config.csdLen := by simpa [payloadLenOk, h] using hn
    subst h16
    exact enterWaitToken hp rfl

end

/-- R124 step 1: the poll starts; the response that was due no longer is. -/
theorem enterAwait (e : Nat) (r k : Bool) (s : State) : Prepared s (enterAwait e r k [.finish .response] s) :=
  .of_control ⟨rfl, rfl, rfl⟩ (by constructor <;> rfl) id fun hi =>
    ⟨⟨nofun, Nat.zero_le _, hi.byteIdx, by cases k <;> simp [State.phaseOk, Config.respBudget], rfl⟩, nofun⟩

/-- R175, R195: a bulk operation turned away with its error before any bus event. -/
theorem raise (e : BlockError) (o : Op) (s : State) : Prepared s (raise e { s with op := o }) :=
  .of_control ⟨rfl, rfl, rfl⟩ (by constructor <;> rfl) id fun hi =>
    ⟨idle_control rfl rfl rfl hi.pollCnt hi.byteIdx, fun hp => (hi.pending hp).1⟩

end Prepared

/-- What issuing an instruction does: register updates alone, or register updates and then the first primitive. -/
inductive Issued (s t : State) : Prop where
  | quiet (prepared : Prepared s t)
  | first (u : State) (prepared : Prepared s u) (tick : tick u = .next t)

theorem Issued.primitive {s t : State} (h : Issued s t) : Primitive s t := by
  cases h with
  | quiet prepared => exact .none prepared.bus
  | first u prepared tick => exact (tick_primitive tick).after prepared.bus

theorem Issued.inv {s t : State} (h : Issued s t) (hi : s.Inv) : t.Inv := by
  cases h with
  | quiet prepared => exact prepared.inv hi
  | first u prepared tick => exact tick_inv (prepared.inv hi) tick

section
variable {s : State}

theorem quiet_issued {t : State} (h : Prepared s t) : NextSat (Issued s) (.next t) := .next (.quiet h)

theorem tick_issued {u : State} (h : Prepared s u) : NextSat (Issued s) (tick u) := ⟨fun _ ht => .first u h ht⟩

/-- R65, R24: an operation is accepted between operations, with no response poll due. -/
theorem accepted_issued {k : State → Out}
    (h : ∀ u : State, Prepared s u → u.phase = .idle → u.pending = false → NextSat (Issued s) (k u)) :
    NextSat (Issued s) (begin s k) := .begin fun idle hp => h (started s) (.started s) idle hp

/-- An accepted operation without a further test. -/
theorem begin_issued {enter : State → State}
    (h : ∀ u : State, u.phase = .idle → u.pending = false → Prepared u (enter u)) :
    NextSat (Issued s) (begin s fun s => tick (enter s)) :=
  accepted_issued fun u hu idle hp => tick_issued (hu.trans (h u idle hp))

theorem frameThenPoll_issued (i : Index) (a : Arg) (c : Crc7) (e : Nat) (r k : Bool) :
    NextSat (Issued s) (frameThenPoll i a c e r k s) := begin_issued fun _ _ hp => .enter hp _ _ _ rfl rfl

theorem sendByte_issued (b : Byte) : NextSat (Issued s) (sendByte b s) :=
  begin_issued fun _ _ hp => .enter hp _ _ _ rfl rfl

theorem await_issued (e : Nat) (r k : Bool) : NextSat (Issued s) (beginAwait e r k s) :=
  .beginAwait fun _ _ => tick_issued (.trans (.started s) (.enterAwait e r k _))

theorem receive_issued (bs : List Byte) {idle : State → Out} (h : NextSat (Issued s) (idle s)) :
    NextSat (Issued s) (receive bs idle s) := .receive (fun _ => h) fun _ => tick_issued (.present bs s)

theorem startOrLineUp_issued (due : Bool) (bs : List Byte) {start : State → State}
    (h : ∀ u : State, u.phase = .idle → u.pending = false → Prepared u (start u)) :
    NextSat (Issued s) (startOrLineUp due bs start s) :=
  .startOrLineUp
    (fun _ => begin_issued fun u idle hp => .trans (.present bs u) (h (present bs u) idle hp))
    (.quiet (.lineUp bs s))

theorem polled_issued (e : Nat) (bs : List Byte) : NextSat (Issued s) (receive bs (polledWhenIdle e bs) s) := by
  refine receive_issued bs (.polledWhenIdle ⟨fun t ht => ?_⟩ (.quiet (.lineUp bs s)))
  cases (await_issued e true false).sat t ht with
  | quiet prepared => exact .quiet (.trans (.present bs s) prepared)
  | first u prepared tick => exact .first u (.trans (.present bs s) prepared) tick

theorem sectorsQuery_issued : NextSat (Issued s) (beginQuery s returnSectors) :=
  .beginQuery fun _ => .returnSectors fun n _ => .quiet (.result (.count n) s)

/-- A transfer case issued alone: with a buffer that has the bytes, the return points move only offsets that exist. -/
theorem transferAlone_issued {mismatch : State → Prop} [DecidablePred mismatch] {top : State → Nat} {start : Nat}
    {enter : Arg → State → State}
    (h : ∀ a (u : State), u.pending = false → top u ≤ u.bufLen → Prepared u (enter a u)) :
    NextSat (Issued s) (begin s fun s =>
      if !s.ready then .refused .notReady
      else if mismatch s then .refused .blockCountMismatch
      else withBuffer (top s) s (withArgument start s fun a => tick (enter a s))) :=
  accepted_issued fun u hu _ hp => .refuseIf fun _ => .refuseIf fun _ => .withBuffer fun ht =>
    .withArgument fun _ a _ _ => tick_issued (hu.trans (h a u hp ht))

end

/-! The transfers, each with the offsets its return points move. -/

section
variable {s : State} (hp : s.pending = false) (o : Op) (a : Arg)
include hp

theorem Prepared.readSingle (hL : Config.blockSize ≤ s.bufLen) :
    Prepared s (enterReadSingle a { s with op := o }) :=
  .enter hp o _ _ rfl (by simpa [Cont.ok, payloadLenOk] using hL)

theorem Prepared.readMulti (hL : Config.blockSize * s.blkN ≤ s.bufLen) :
    Prepared s (enterReadMulti a { s with op := o }) :=
  .enter hp o _ _ rfl (by simpa [Cont.ok] using hL)

theorem Prepared.writeSingle (hL : Config.blockSize ≤ s.bufLen) :
    Prepared s (enterWriteSingle a { s with op := o }) :=
  .enter hp o _ _ rfl (by simpa [Cont.ok] using hL)

theorem Prepared.writeMulti (hL : Config.blockSize * s.blkN ≤ s.bufLen) :
    Prepared s (enterWriteMulti a { s with op := o }) :=
  .enter hp o _ _ rfl (by simpa [Cont.ok] using hL)

end

/-- R175, R195: a bulk operation: READY, the length, the argument, and then the case of its block count, whose return points
move only offsets of the buffer; or InvalidArgument. -/
theorem bulk_issued {s : State} {start len : Nat} (o : Op) {single multi : Arg → State → State}
    (h1 : ∀ a (u : State), u.pending = false → Config.blockSize ≤ u.bufLen → Prepared u (single a { u with op := o }))
    (h2 : ∀ a (u : State), u.pending = false → Config.blockSize * u.blkN ≤ u.bufLen →
      Prepared u (multi a { u with op := o })) :
    NextSat (Issued s) (begin s fun s =>
      if !s.ready then .refused .notReady
      else if bufferLenOk len then
        withArgument start s fun a =>
          let s := { s with op := o, blkN := len / Config.blockSize, bufLen := len }
          if s.blkN = 1 then tick (single a s) else tick (multi a s)
      else .next (raise (.invalidArgument len) { s with op := o })) := by
  refine accepted_issued fun u hu idle hp => .refuseIf fun _ => .ite (fun _ => .withArgument fun _ a _ _ => ?_)
    fun _ => quiet_issued (hu.trans (.raise _ o u))
  have blocks : Config.blockSize * (len / Config.blockSize) ≤ len := Nat.mul_div_le len Config.blockSize
  have buffer := hu.trans (.rebuffer idle (len / Config.blockSize) len u.result id)
  refine .ite (fun one => ?_) fun _ => ?_
  · have one : len / Config.blockSize = 1 := one
    rw [one, Nat.mul_one] at blocks
    exact tick_issued (buffer.trans (h1 a _ hp blocks))
  · exact tick_issued (buffer.trans (h2 a _ hp blocks))

/-- Every instruction that answers a next state is issued so: one rule of acceptance after the other, then the return points
it leaves, each within the invariant. -/
theorem exec_issued (i : Instr) (s : State) : NextSat (Issued s) (exec i s) := by
  cases i <;> dsimp only [exec]
  case cmd0 | cmd8 | cmd9 | cmd12 | cmd16 | cmd17 | cmd18 | cmd24 | cmd25 | acmd41 | cmd55 | cmd58 =>
    exact frameThenPoll_issued ..
  case cfAny | fill | release | clockIdle | readCsd | checkDresp =>
    exact begin_issued fun _ _ hp => .enter hp _ _ _ rfl rfl
  case tokenDataStart =>
    exact receive_issued _ (.ite
      (fun _ => startOrLineUp_issued _ _ fun _ _ hp => .enterWaitToken hp rfl) fun _ => sendByte_issued _)
  case tokenMultiWrite | tokenStopTran => exact sendByte_issued _
  case r1 | r1Tail | notStatus => exact polled_issued _ _
  case drespAccepted =>
    exact receive_issued _ (startOrLineUp_issued _ _ fun _ _ hp => .enter hp _ _ _ rfl rfl)
  case busy => exact receive_issued _ (startOrLineUp_issued _ _ fun _ _ hp => .enterBusyWait hp rfl)
  case dblkR =>
    exact .require fun ok => receive_issued _ (startOrLineUp_issued _ _ fun _ idle hp =>
      .enterBlockIn hp idle (Bool.and_eq_true_iff.1 ok).1)
  case dblkW token payload =>
    refine .require fun _ => accepted_issued fun u hu idle hp => .require fun _ => tick_issued ?_
    exact (hu.trans (.rebuffer idle u.blkN Config.blockSize u.result fun hw => Memory.wf_writeList hw 0 payload)).trans
      (.enter (s := { u with bufLen := Config.blockSize, buf := Memory.writeList u.buf 0 payload }) hp _ _ _ rfl rfl)
  case sendCommand | cmd | acmd => exact .require fun _ => begin_issued fun _ _ hp => .enter hp _ _ _ rfl rfl
  case awaitResponse => exact await_issued ..
  case readBlocks =>
    exact bulk_issued .read (fun a _ hp hL => .readSingle hp .read a hL) fun a _ hp hL => .readMulti hp .read a hL
  case writeBlocks =>
    exact bulk_issued .write (fun a _ hp hL => .writeSingle hp .write a hL) fun a _ hp hL => .writeMulti hp .write a hL
  case blockCount => exact sectorsQuery_issued
  case control op =>
    cases op with
    | getSectorCount => exact sectorsQuery_issued
    | other => exact .refused _
  case blockSize | crc7Gen | classify => exact quiet_issued (.result _ s)
  case build => exact .require fun _ => quiet_issued (.result _ s)
  case checkBuffer =>
    exact accepted_issued fun u hu idle _ => .ite (fun _ => quiet_issued (hu.trans (.rebuffer idle _ _ _ id)))
      fun _ => quiet_issued (hu.trans (.raise _ u.op u))
  case waitToken =>
    exact accepted_issued fun u hu _ hp => .require fun _ => tick_issued (hu.trans (.enterWaitToken hp rfl))
  case recvBlock =>
    refine .require fun ok => accepted_issued fun u hu _ hp => .require fun _ => .withBuffer fun hL =>
      tick_issued (hu.trans (.enterWaitToken hp ?_))
    exact Bool.and_eq_true_iff.2 ⟨Bool.and_eq_true_iff.2 ⟨ok, decide_eq_true hL⟩, rfl⟩
  case sendBlock =>
    refine accepted_issued fun u hu _ hp => .require fun _ => .withBuffer fun hL =>
      tick_issued (hu.trans (.enter hp u.op _ _ rfl ?_))
    simpa [Cont.ok] using hL
  case busyWait =>
    exact accepted_issued fun u hu _ hp => .require fun _ => tick_issued (hu.trans (.enterBusyWait hp rfl))
  case sendStop =>
    exact accepted_issued fun u hu _ hp => .require fun _ => tick_issued (hu.trans (.enter hp u.op _ _ rfl rfl))
  case readSingle => exact transferAlone_issued fun a u hp hL => .readSingle hp u.op a hL
  case readMulti => exact transferAlone_issued fun a u hp hL => .readMulti hp u.op a hL
  case writeSingle => exact transferAlone_issued fun a u hp hL => .writeSingle hp u.op a hL
  case writeMulti => exact transferAlone_issued fun a u hp hL => .writeMulti hp u.op a hL

end Sys2Proof.Machine

/-! ### The boot sequence between two operations (R261 to R271) -/

namespace Sys2Proof.Machine

/-- A list of calls none of which stands inside a boot sequence is what the invariant asks of the host. -/
theorem hostOk_of_fresh {s : State} (h : s.host.all HostCall.fresh = true) : s.hostOk = true := by
  unfold State.hostOk
  split
  · rfl
  · rename_i b rest hh
    rw [hh, List.all_cons, Bool.and_eq_true] at h
    cases b <;> simp_all [HostCall.fresh, Boot.sessionOk]
  · rename_i hh
    rw [hh, List.all_cons, Bool.and_eq_true] at h
    exact h.2

/-- Behind the host's next call none stands inside a boot sequence. -/
theorem State.Inv.rest_fresh {s : State} (hi : s.Inv) {c : HostCall} {rest : List HostCall} (hh : s.host = c :: rest) :
    rest.all HostCall.fresh = true := by
  have host := hi.host
  unfold State.hostOk at host
  rw [hh] at host
  cases c with
  | boot b => exact (Bool.and_eq_true_iff.1 host).2
  | _ => exact host

/-- What the boot sequence writes, beside the session registers: the host's calls, READ_CSD's destination, the outcome. -/
theorem State.Inv.sessionWritten {s : State} (hi : s.Inv) {v : Option Gen} {c : Option Cdv} {n : Option Nat} {hz : Nat}
    {rd : Bool} {m : List Host.Cell} {h : List HostCall} {e : Option BlockError} {r : Result} (csd : Memory.wf m)
    (ready : rd = true → State.sessionSet { s with ver := v, cdv := c, sectors := n } = true)
    (consistent : ∀ g m, v = some g → c = some m → m = g.cdv)
    (host : State.hostOk { s with ver := v, cdv := c, sectors := n, ready := rd, host := h } = true) :
    State.Inv
      { s with
        ver := v, cdv := c, sectors := n, busRate := hz, ready := rd, csd := m, host := h, err := e, result := r } :=
  ⟨hi.memory, csd, hi.pending, ready, consistent, hi.pollCnt, hi.byteIdx, hi.phase, hi.stack, host⟩

/-- The host's remaining calls, once the next has been taken. -/
theorem State.Inv.taken {s : State} (hi : s.Inv) {h : List HostCall} (fresh : h.all HostCall.fresh = true) :
    State.Inv { s with host := h } :=
  hi.sessionWritten hi.csd hi.ready hi.consistent (hostOk_of_fresh fresh)

/-- A stage inside the boot sequence: READY = 0 and the multiplier, once set, the version's. -/
theorem Boot.sessionOk_inside {b : Boot} {s : State} (hb : ∀ debug, b ≠ .start debug) (h : b.sessionOk s = true) :
    s.ready = false ∧ ∀ g m, s.ver = some g → s.cdv = some m → m = g.cdv := by
  cases b with
  | start debug => exact absurd rfl (hb debug)
  | blockLenSent =>
    obtain ⟨ready, set⟩ : s.ready = false ∧ s.sessionSet = true := by simpa [Boot.sessionOk] using h
    refine ⟨ready, fun g m hg hm => ?_⟩
    cases hs : s.sectors <;> simp_all [State.sessionSet]
  | _ => simp_all [Boot.sessionOk]

/-- Register updates of a boot step at stage b: no bus event, and the invariant is kept where the stage stands. -/
structure Judged (b : Boot) (s u : State) : Prop where
  bus : BusKept s u
  inv : s.Inv → s.host.all HostCall.fresh = true → b.sessionOk s = true → u.Inv

/-- What a boot step does: register updates, and then the next operation is issued or the sequence has ended. -/
inductive Booted (b : Boot) (s t : State) : Prop where
  | ends (judged : Judged b s t)
  | issues (i : Instr) (u : State) (judged : Judged b s u) (exec : exec i u = .next t)

theorem Booted.primitive {b : Boot} {s t : State} (h : Booted b s t) : Primitive s t := by
  cases h with
  | ends judged => exact .none judged.bus
  | issues i u judged exec => exact ((exec_issued i u).sat t exec).primitive.after judged.bus

theorem Booted.inv {b : Boot} {s t : State} (h : Booted b s t) (hi : s.Inv)
    (fresh : s.host.all HostCall.fresh = true) (stage : b.sessionOk s = true) : t.Inv := by
  cases h with
  | ends judged => exact judged.inv hi fresh stage
  | issues i u judged exec => exact ((exec_issued i u).sat t exec).inv (judged.inv hi fresh stage)

section
variable {b b' : Boot} {s : State}

/-- The next operation is issued, and the sequence stands at b' when it has ended: what b' needs of the session registers must
follow from what b has. -/
theorem bootIssue_booted {v : Option Gen} {c : Option Cdv} {n : Option Nat} {m : List Host.Cell} (i : Instr)
    (inside : ∀ debug, b' ≠ .start debug) (csd : Memory.wf s.csd → Memory.wf m)
    (stage : b.sessionOk s = true → b'.sessionOk { s with ver := v, cdv := c, sectors := n } = true) :
    NextSat (Booted b s) (bootIssue b' i { s with ver := v, cdv := c, sectors := n, csd := m }) := by
  refine ⟨fun t ht => .issues i { s with ver := v, cdv := c, sectors := n, csd := m, host := .boot b' :: s.host }
    ⟨⟨rfl, rfl, rfl⟩, fun hi fresh hb => ?_⟩ ht⟩
  obtain ⟨ready, consistent⟩ := Boot.sessionOk_inside inside (stage hb)
  exact hi.sessionWritten (csd hi.csd) (fun hr => absurd (ready.symm.trans hr) nofun) consistent
    (Bool.and_eq_true_iff.2 ⟨stage hb, fresh⟩)

/-- R271: a construction that fails discards what was written of the session registers. -/
theorem bootFail_booted (e : BlockError) : NextSat (Booted b s) (bootFail e s) :=
  .next (.ends ⟨⟨rfl, rfl, rfl⟩, fun hi fresh _ =>
    hi.sessionWritten Memory.wf_nil nofun nofun (hostOk_of_fresh fresh)⟩)

end

/-- R268: no capacity register gives a sector count of zero. -/
theorem csdSectors_pos {csd : List Byte} {n : Nat} (h : csdSectors csd = some n) : 0 < n := by
  unfold csdSectors at h
  split_ifs at h <;> cases h
  · exact Nat.mul_pos (Nat.succ_pos _) (by decide)
  · exact Nat.mul_pos (Nat.succ_pos _) (Nat.two_pow_pos _)

/-- Every boot step but the first: what it judges, which session registers it writes, and the stage it goes on to. -/
theorem bootStep_booted {b : Boot} (s : State) (hb : ∀ debug, b ≠ .start debug) :
    NextSat (Booted b s) (bootStep b s) := by
  cases b with
  | start debug => exact absurd rfl (hb debug)
  | clocked =>
    show NextSat _ (bootGoIdle 1 s)
    exact bootIssue_booted _ (by nofun) id id
  | idleTried attempt =>
    exact .ite (fun _ => bootIssue_booted _ (by nofun) id id) fun _ =>
      .ite (fun _ => bootIssue_booted _ (by nofun) id id) fun _ => bootFail_booted _
  | probed =>
    exact .ite (fun _ => bootIssue_booted _ (by nofun) id (by simp_all [Boot.sessionOk])) fun _ =>
      .ite (fun _ => bootIssue_booted _ (by nofun) id (by simp_all [Boot.sessionOk])) fun _ => bootFail_booted _
  | gen1Announced | gen2OcrRead | gen2Announced => exact bootIssue_booted _ (by nofun) id id
  | gen1Polled iteration =>
    exact .ite (fun _ => bootIssue_booted _ (by nofun) id (by simp_all [Boot.sessionOk, Gen.cdv])) fun _ =>
      .ite (fun _ => bootIssue_booted _ (by nofun) id id) fun _ => bootFail_booted _
  | gen2Polled iteration =>
    exact .ite (fun _ => bootIssue_booted _ (by nofun) id id) fun _ =>
      .ite (fun _ => bootIssue_booted _ (by nofun) id id) fun _ => bootFail_booted _
  | gen2Reread =>
    show NextSat _ (bootReadCsd { s with cdv := some .sectorAddressed })
    exact bootIssue_booted _ (by nofun) id (by simp_all [Boot.sessionOk, Gen.cdv])
  | csdRead =>
    show NextSat _ (bootJudgeCsd s)
    unfold bootJudgeCsd
    split
    · exact bootFail_booted _
    · dsimp only
      split
      · exact bootFail_booted _
      · rename_i n parsed
        refine bootIssue_booted _ (by nofun) (fun _ => Memory.wf_nil) ?_
        have pos := csdSectors_pos parsed
        cases hv : s.ver <;> simp_all [Boot.sessionOk, State.sessionSet]
  | blockLenSent =>
    refine .ite (fun _ => .next (.ends ⟨⟨rfl, rfl, rfl⟩, fun hi fresh stage => ?_⟩)) fun _ => bootFail_booted _
    have set : s.sessionSet = true := (Bool.and_eq_true_iff.1 stage).2
    exact hi.sessionWritten hi.csd (fun _ => set) hi.consistent (hostOk_of_fresh fresh)

/-- R260, R262: what a construction starts from: the reset values, INIT_RATE set, the settle bytes to be clocked next. -/
def constructed (debug : Bool) (s : State) : State :=
  { setClockRate s.cfg.initRate (newInstance debug s) with host := .boot .clocked :: s.host }

theorem bootStep_start (debug : Bool) (s : State) :
    bootStep (.start debug) s = exec (.clockIdle s.cfg.settle) (constructed debug s) := rfl

theorem constructed_inv {debug : Bool} {s : State} (hi : s.Inv) (fresh : s.host.all HostCall.fresh = true) :
    (constructed debug s).Inv :=
  ⟨hi.memory, Memory.wf_nil, nofun, nofun, nofun, Nat.zero_le _, Nat.zero_le _, rfl, rfl, fresh⟩

/-- R260, R262: the first step of a construction deasserts chip-select. -/
theorem constructed_deasserts {debug : Bool} {s t : State} (h : bootStep (.start debug) s = .next t) :
    t.bus.hist = [.deassert] ∧ t.cs = false := by
  rw [bootStep_start] at h
  cases h
  have same := ret_same [.fill .settle s.cfg.settle, .finish .done]
    (csDeassert { started (constructed debug s) with
      phase := .deassert .settle s.cfg.settle, stack := [.finish .done] })
  exact ⟨congrArg Bus.hist same.bus, same.cs⟩

/-! ### Steps -/

/-- Taking the host's next call makes no bus event. -/
theorem Primitive.of_taken {s t : State} {rest : List HostCall} (h : Primitive { s with host := rest } t) :
    Primitive s t := Primitive.after (u := { s with host := rest }) ⟨rfl, rfl, rfl⟩ h

/-- R20, R33: every step but the first of a construction, after which the history starts again, makes at most one bus
primitive. -/
theorem step_primitive {s t : State} (h : step s = .next t)
    (hb : s.phase ≠ .idle ∨ ∀ debug rest, s.host ≠ .boot (.start debug) :: rest) : Primitive s t := by
  cases step_cases h with
  | inFlight _ tick => exact tick_primitive tick
  | waits _ _ same => exact .none (by rw [same]; exact .refl s)
  | calls i rest _ _ exec => exact ((exec_issued i _).sat t exec).primitive.of_taken
  | wires _ _ i rest _ _ _ exec => exact ((exec_issued i _).sat t exec).primitive.of_taken
  | pokes _ _ _ _ _ poked => exact .none (by rw [poked]; exact ⟨rfl, rfl, rfl⟩)
  | boots b rest idle host boot =>
    have inside : ∀ debug, b ≠ .start debug := by
      rintro debug rfl
      exact hb.resolve_left (· idle) debug rest host
    exact ((bootStep_booted _ inside).sat t boot).primitive.of_taken

/-- A boot step keeps the invariant, the first of a construction from the reset values (R260), the others by their stage. -/
theorem boot_inv {s t : State} {b : Boot} {rest : List HostCall} (hi : s.Inv) (host : s.host = .boot b :: rest)
    (boot : bootStep b { s with host := rest } = .next t) : t.Inv := by
  have fresh := hi.rest_fresh host
  have hi' : State.Inv { s with host := rest } := hi.taken fresh
  by_cases start : ∃ debug, b = .start debug
  · obtain ⟨debug, rfl⟩ := start
    rw [bootStep_start] at boot
    exact ((exec_issued _ _).sat t boot).inv (constructed_inv hi' fresh)
  · have stage : b.sessionOk s = true := by
      have hostOk := hi.host
      rw [State.hostOk, host] at hostOk
      exact (Bool.and_eq_true_iff.1 hostOk).1
    exact ((bootStep_booted _ fun debug h => start ⟨debug, h⟩).sat t boot).inv hi' fresh stage

/-- Settles O12: by the cases of a step; a tick keeps the invariant, an operation is prepared within it before its first
tick, the host's own write keeps the canonical memory, and a boot step writes what its stage needs. -/
theorem everyStepKeepsTheInvariant : Obligations.EveryStepKeepsTheInvariant := by
  intro s t hi h
  cases step_cases h with
  | inFlight _ tick => exact tick_inv hi tick
  | waits _ _ same => exact same ▸ hi
  | calls i _ _ host exec => exact ((exec_issued i _).sat t exec).inv (hi.taken (hi.rest_fresh host))
  | wires _ _ i _ _ host _ exec => exact ((exec_issued i _).sat t exec).inv (hi.taken (hi.rest_fresh host))
  | pokes off bytes rest idle host poked =>
    subst poked
    exact (Prepared.rebuffer (s := { s with host := rest }) idle s.blkN s.bufLen s.result
      fun hw => Memory.wf_writeList hw off bytes).inv (hi.taken (hi.rest_fresh host))
  | boots _ _ _ host boot => exact boot_inv hi host boot

/-- Settles O7: the bus primitive of a step, and the first step of a construction. -/
theorem oneBusEventPerStep : Obligations.OneBusEventPerStep := by
  refine ⟨fun s t h hb => ?_, fun s t debug rest idle host h => ?_⟩
  · cases step_primitive h hb with
    | none kept => exact .inl ⟨kept.hist, kept.cs⟩
    | asserts hist cs _ => exact .inr (.inl ⟨hist, cs⟩)
    | deasserts hist cs _ => exact .inr (.inr (.inl ⟨hist, cs⟩))
    | exchanges sent got hist cs _ => exact .inr (.inr (.inr ⟨sent, got, hist, cs⟩))
  · have boot : step s = bootStep (.start debug) { s with host := rest } := by simp [step, idle, host]
    exact constructed_deasserts (boot ▸ h)

/-- Settles O20: the tick that asserts writes FRAME, a tick that sends a byte before the last goes on to the next, and of
all primitives only the assertion writes FRAME. -/
theorem frameIsImmutableWhileItIsSent : Obligations.FrameIsImmutableWhileItIsSent := by
  refine ⟨fun s t i a c hp h => ?_, fun s t k hp hk h => ?_, fun s t h hb => ?_, fun _ => rfl⟩
  · rw [tick_assert hp] at h
    cases h
    exact ⟨rfl, rfl⟩
  · rw [tick_frame hp, afterFrameByte_more (show k + 1 < 6 by omega)] at h
    cases h
    exact ⟨rfl, rfl, Bus.xchg_hist _ _⟩
  · cases step_primitive h hb with
    | none kept => exact .inl kept.frame
    | asserts hist _ phase => exact .inr ⟨hist, phase⟩
    | deasserts _ _ frame => exact .inl frame
    | exchanges _ _ _ _ frame => exact .inl frame

end Sys2Proof.Machine

/-! ### Which operations are refused while a poll is due or another is in flight (R24, R65) -/

namespace Sys2Proof.Machine

/-- An outcome that answers only between operations and with no response poll due; else it is refused as R24 and R65 say. -/
structure Guarded (s : State) (o : Out) : Prop where
  pollDue : s.phase = .idle → s.pending = true → o = .refused .responsePollDue
  inFlight : s.phase ≠ .idle → o = .refused .operationInFlight

theorem begin_guarded (s : State) (k : State → Out) : Guarded s (begin s k) :=
  ⟨fun idle hp => begin_pending idle hp k, fun busy => begin_in_flight busy k⟩

theorem frameThenPoll_guarded (i : Index) (a : Arg) (c : Crc7) (e : Nat) (r k : Bool) (s : State) :
    Guarded s (frameThenPoll i a c e r k s) := begin_guarded s _

theorem sendByte_guarded (b : Byte) (s : State) : Guarded s (sendByte b s) := begin_guarded s _

theorem beginQuery_guarded (s : State) (k : State → Out) : Guarded s (beginQuery s k) :=
  ⟨fun idle hp => by simp [beginQuery, idle, hp], fun busy => by simp [beginQuery, busy]⟩

/-- The operands are tested before the state; with operands in their domain the state decides. -/
theorem Guarded.tested {s : State} {c : Prop} [Decidable c] {o o' : Out} (hc : c) (h : Guarded s o) :
    Guarded s (if c then o else o') := by rwa [if_pos hc]

/-- R24, R65: every bus operation with operands in their domain starts with the test of `begin`, the facade queries with that
of `beginQuery`. -/
theorem exec_guarded {i : Instr} {s : State} (hi : busOperation i = true) (hw : i.wellFormed s.cfg = true) :
    Guarded s (exec i s) := by
  cases i <;> dsimp only [exec]
  case cmd0 | cmd8 | cmd9 | cmd12 | cmd16 | cmd17 | cmd18 | cmd24 | cmd25 | acmd41 | cmd55 | cmd58 =>
    exact frameThenPoll_guarded ..
  case tokenMultiWrite | tokenStopTran => exact sendByte_guarded _ s
  case sendCommand | cmd | acmd | recvBlock => exact .tested hw (begin_guarded s _)
  case dblkW => exact .tested (of_decide_eq_true hw) (begin_guarded s _)
  case blockCount => exact beginQuery_guarded s _
  case control op =>
    cases op with
    | getSectorCount => exact beginQuery_guarded s _
    | other code => exact absurd hw (by simp [Instr.wellFormed])
  case tokenDataStart | r1 | r1Tail | notStatus | drespAccepted | busy | dblkR | awaitResponse | blockSize | build
      | crc7Gen | classify =>
    exact absurd hi nofun
  all_goals exact begin_guarded s _

/-- Settles O16: every bus operation is guarded, and AWAIT_RESPONSE by its own test. -/
theorem onlyAwaitResponseFollowsAFrame : Obligations.OnlyAwaitResponseFollowsAFrame := by
  refine ⟨fun s i hi hw => ?_, fun s e r k => ⟨fun idle hp => ?_, fun busy => ?_⟩⟩
  · have guarded := exec_guarded hi hw
    exact ⟨guarded.pollDue, guarded.inFlight⟩
  · simp [exec, execAwaitResponse, beginAwait, idle, hp]
  · simp [exec, execAwaitResponse, beginAwait, busy]

/-! ### The polls of AWAIT_RESPONSE (R25, R124) -/

/-- R24, R124: with a response poll due AWAIT_RESPONSE starts. -/
theorem exec_awaitResponse {s : State} (idle : s.phase = .idle) (hp : s.pending = true) (e : Nat) (r k : Bool) :
    exec (.awaitResponse e r k) s = tick (enterAwait e r k [.finish .response] (started s)) := by
  simp [exec, execAwaitResponse, beginAwait, idle, hp]

/-- The drain, the release and the return leave POLL_CNT. -/
theorem ret_drain_pollCnt (e : Nat) (r : Bool) (v : Ret) (s : State) :
    (ret [.fill .drain e, .releaseIf r, .finish v] s).pollCnt = s.pollCnt := by
  cases e <;> cases r <;> rfl

/-- R25: the first poll is the first counted, whatever it is answered. -/
theorem afterPoll_first {e : Nat} {r : Bool} {b : Byte} {v : Ret} {s : State} (h0 : s.pollCnt = 0)
    (hs : s.stack = [.finish v]) : (afterPoll e r b s).pollCnt = 1 := by
  by_cases hb : isStatusByte b = true
  · rw [afterPoll_status hb, hs, ret_drain_pollCnt]
    simp [h0]
  · rw [afterPoll_more (by simpa using hb) (by simp [h0, Config.respBudget])]
    simp [h0]

/-- R25, R124 steps 1 and 2: after issuing, the skipped byte is not counted and the first poll is. -/
theorem awaitResponse_pollCnt {s u : State} {e : Nat} {r k : Bool} (idle : s.phase = .idle) (hp : s.pending = true)
    (h : exec (.awaitResponse e r k) s = .next u) : u.pollCnt = if k then 0 else 1 := by
  rw [exec_awaitResponse idle hp] at h
  cases k with
  | true =>
    rw [tick_skipLead rfl] at h
    cases h
    rfl
  | false =>
    rw [tick_poll rfl] at h
    cases h
    exact afterPoll_first rfl rfl

/-- Settles O22: the first poll, a poll that goes on, and the run of exactly the budget's polls to the sentinel. -/
theorem awaitResponseTimesOutAfterExactlyTheBudget : Obligations.AwaitResponseTimesOutAfterExactlyTheBudget := by
  refine ⟨fun s u e r k => awaitResponse_pollCnt, fun s t e r hp hb hn h => ?_, fun s e r k idle hp hop silent => ?_⟩
  · rw [tick_poll hp, afterPoll_more hb (by exact hn)] at h
    cases h
    exact ⟨rfl, hp⟩
  · have run := run_await_timeout e r k [.finish .response] (started s) silent
    rw [ret, finish_of_no_bulk (by exact hop)] at run
    rw [exec_awaitResponse idle hp]
    obtain ⟨u, hu, reaches⟩ := issue_idle (by cases k <;> simp) rfl run
    refine ⟨u, hu, ?_⟩
    convert reaches using 1
    cases s
    cases idle
    rfl

/-! ### Steps and the reset state -/

/-- Settles O6: the branches of a step. -/
theorem stepRunsTheDecodedInstruction : Obligations.StepRunsTheDecodedInstruction := by
  have wire : ∀ (s : State) nbits w i rest, s.phase = .idle → s.host = .wire nbits w :: rest →
      decodeWord s.cfg nbits w = some i → step s = exec i { s with host := rest } := by
    intro s nbits w i rest idle host row
    simp [step, idle, host, row]
  have fetched : ∀ (s : State) nbits w i, decodeWord s.cfg nbits w = some i →
      step (s.withFetchWord nbits w) = exec i { s with phase := .idle, stack := [] } := fun s nbits w i row =>
    wire (s.withFetchWord nbits w) nbits w i s.host rfl rfl row
  refine ⟨fetched, fun s nbits w i cfg row => fetched s nbits w i (by rw [cfg]; exact row), wire,
    fun s i rest idle host => ?_, fun s busy => step_in_flight busy, fun s idle host => ?_,
    fun s off bytes rest idle host => ?_, fun s b rest idle host => ?_, fun s nbits w rest idle host row => ?_⟩
  · simp [step, idle, host]
  · simp [step, idle, host]
  · simp [step, idle, host]
  · simp [step, idle, host]
  · simp [step, idle, host, row]

/-- R7: the parameters at reset are legal, whatever the free values. -/
theorem Params.initial_wf : Params.initial.wf = true := by
  have busy : Params.initial.busyBudget ≠ some 0 := by
    show Config.busyBudgetPred.map (· + 1) ≠ some 0
    cases Config.busyBudgetPred <;> simp
  have rate : Params.initial.initRate ≤ Config.initRateMax := Nat.min_le_right _ _
  have budget : 0 < Params.initial.tokenBudget := Nat.succ_pos _
  simp only [Params.wf, bne_iff_ne.2 busy, decide_eq_true rate, decide_eq_true budget]
  decide

/-- Settles O10: the table's values, and the three operations that read RESP and FRAME. -/
theorem resetStateIsTheRulesTable : Obligations.ResetStateIsTheRulesTable :=
  ⟨rfl, rfl, rfl, rfl, rfl, rfl, rfl, rfl, rfl, rfl, rfl, Params.initial_wf, rfl, fun _ => rfl, fun _ _ => rfl⟩

/-- Settles O11: nothing is in flight, no session register is set, and the host is about to construct. -/
theorem resetMeetsTheInvariant : Obligations.ResetMeetsTheInvariant :=
  ⟨Memory.wf_nil, Memory.wf_nil, nofun, nofun, nofun, Nat.zero_le _, Nat.zero_le _, rfl, rfl, rfl⟩

/-! ### Bytes the card sends (R32, R52, R94) -/

theorem receive_in_flight {s : State} (h : s.phase ≠ .idle) (bs : List Byte) (idle : State → Out) :
    receive bs idle s = tick (present bs s) := if_neg h

theorem receive_idle {s : State} (h : s.phase = .idle) (bs : List Byte) (idle : State → Out) :
    receive bs idle s = idle s := if_pos h

/-- Nothing starts: the bytes are lined up. -/
theorem startOrLineUp_lines {due : Bool} {s : State} (h : due = false ∨ s.pending = true) (bs : List Byte)
    (start : State → State) : startOrLineUp due bs start s = .next (lineUp bs s) := by
  rcases h with h | h <;> simp [startOrLineUp, h]

/-- No poll is due: the bytes are lined up. -/
theorem polledWhenIdle_lines {s : State} (h : s.pending = false) (e : Nat) (bs : List Byte) :
    polledWhenIdle e bs s = .next (lineUp bs s) := by simp [polledWhenIdle, h]

/-- With a poll due the data-start token can only be the card's. -/
theorem exec_tokenDataStart_due {s : State} (idle : s.phase = .idle) (hp : s.pending = true) :
    exec .tokenDataStart s =
      startOrLineUp (readAcknowledged s) [s.cfg.tokenDataStart] (enterWaitToken [.finish .done]) s := by
  simp [exec, execTokenDataStart, receive_idle idle, hp]

/-- A data block with operands in their domain is received. -/
theorem exec_dblkR {s : State} {skipped payload : List Byte} {c0 c1 : Byte}
    (h : (Instr.dblkR skipped payload c0 c1).wellFormed s.cfg = true) :
    exec (.dblkR skipped payload c0 c1) s =
      receive (blockInBytes s.cfg skipped payload c0 c1)
        (startOrLineUp (readAcknowledged s) (blockInBytes s.cfg skipped payload c0 c1) (enterBlockIn payload.length)) s :=
  if_pos h

/-- Every row the card sends is received: in flight its bytes answer the exchanges that come next. -/
theorem exec_fromCard_in_flight {s : State} {i : Instr} {bs : List Byte} (row : fromCard s.cfg i = some bs)
    (hw : i.wellFormed s.cfg = true) (busy : s.phase ≠ .idle) : exec i s = tick (present bs s) := by
  cases i <;> dsimp only [exec]
  case tokenDataStart | r1 | r1Tail | notStatus | drespAccepted | busy => cases row; exact receive_in_flight busy _ _
  case dblkR => cases row; exact (exec_dblkR hw).trans (receive_in_flight busy _ _)
  all_goals cases row

/-- Settles O31: in flight every row is presented to the exchange that is due; between operations each of the rows named
meets a test that lines it up. -/
theorem unexpectedCardBytesAreLinedUp : Obligations.UnexpectedCardBytesAreLinedUp := by
  intro s i bs row hw
  refine ⟨fun busy => ⟨exec_fromCard_in_flight row hw busy, answers_lined bs s.bus⟩, fun idle hp rows => ?_,
    fun idle hp rows => ?_⟩
  · rcases rows with ⟨f, rfl⟩ | ⟨f, x, rfl⟩ | ⟨x, rfl⟩ | ⟨rfl, hcs⟩ | ⟨⟨skipped, payload, c0, c1, rfl⟩, hack⟩ <;> cases row
    · exact (receive_idle idle _ _).trans (polledWhenIdle_lines hp _ _)
    · exact (receive_idle idle _ _).trans (polledWhenIdle_lines hp _ _)
    · exact (receive_idle idle _ _).trans (polledWhenIdle_lines hp _ _)
    · exact (receive_idle idle _ _).trans (startOrLineUp_lines (.inl hcs) _ _)
    · rw [exec_dblkR hw]
      exact (receive_idle idle _ _).trans (startOrLineUp_lines (.inl hack) _ _)
  · rcases rows with rfl | ⟨x, rfl⟩ | rfl | ⟨skipped, payload, c0, c1, rfl⟩ <;> cases row
    · exact (exec_tokenDataStart_due idle hp).trans (startOrLineUp_lines (.inr hp) _ _)
    · exact (receive_idle idle _ _).trans (startOrLineUp_lines (.inr hp) _ _)
    · exact (receive_idle idle _ _).trans (startOrLineUp_lines (.inr hp) _ _)
    · rw [exec_dblkR hw]
      exact (receive_idle idle _ _).trans (startOrLineUp_lines (.inr hp) _ _)

end Sys2Proof.Machine

/-! ### The two shapes of a transfer (R170, R175, R195; R173, R174, R193, R194) -/

namespace Sys2Proof.Machine

/-- R175, R195: a bulk operation: READY, the length, the argument, and then the case of its block count. -/
def bulkOperation (o : Op) (single multi : Arg → State → State) (start len : Nat) (s : State) : Out :=
  begin s fun s =>
    if !s.ready then .refused .notReady
    else if bufferLenOk len then
      withArgument start s fun a =>
        let s := { s with op := o, blkN := len / Config.blockSize, bufLen := len }
        if s.blkN = 1 then tick (single a s) else tick (multi a s)
    else .next (raise (.invalidArgument len) { s with op := o })

/-- R173, R174, R193, R194: a transfer case issued alone: READY, BLK_N, the buffer and the argument. -/
def transferAlone (mismatch : Nat → Prop) [DecidablePred mismatch] (top : Nat → Nat) (enter : Arg → State → State)
    (start : Nat) (s : State) : Out :=
  begin s fun s =>
    if !s.ready then .refused .notReady
    else if mismatch s.blkN then .refused .blockCountMismatch
    else withBuffer (top s.blkN) s (withArgument start s fun a => tick (enter a s))

section
variable (start len : Nat) (s : State)

theorem exec_readBlocks :
    exec (.readBlocks start len) s = bulkOperation .read enterReadSingle enterReadMulti start len s := rfl
theorem exec_writeBlocks :
    exec (.writeBlocks start len) s = bulkOperation .write enterWriteSingle enterWriteMulti start len s := rfl
theorem exec_readSingle :
    exec (.readSingle start) s = transferAlone (· ≠ 1) (fun _ => Config.blockSize) enterReadSingle start s := rfl
theorem exec_readMulti :
    exec (.readMulti start) s = transferAlone (· < 2) (Config.blockSize * ·) enterReadMulti start s := rfl
theorem exec_writeSingle :
    exec (.writeSingle start) s = transferAlone (· ≠ 1) (fun _ => Config.blockSize) enterWriteSingle start s := rfl
theorem exec_writeMulti :
    exec (.writeMulti start) s = transferAlone (· < 2) (Config.blockSize * ·) enterWriteMulti start s := rfl

end

section
variable {s : State} (idle : s.accepting)
include idle

theorem bulkOperation_notReady {o : Op} {single multi : Arg → State → State} {start len : Nat} (hr : s.ready = false) :
    bulkOperation o single multi start len s = .refused .notReady := by
  simp [bulkOperation, begin_accepting idle, hr]

theorem bulkOperation_accepted {o : Op} {single multi : Arg → State → State} {start len : Nat} (hr : s.ready = true)
    (hl : bufferLenOk len = true) :
    bulkOperation o single multi start len s =
      withArgument start (started s) fun a =>
        if len / Config.blockSize = 1 then
          tick (single a { started s with op := o, blkN := len / Config.blockSize, bufLen := len })
        else tick (multi a { started s with op := o, blkN := len / Config.blockSize, bufLen := len }) := by
  simp [bulkOperation, begin_accepting idle, hr, hl]

theorem transferAlone_notReady {mismatch : Nat → Prop} [DecidablePred mismatch] {top : Nat → Nat}
    {enter : Arg → State → State} {start : Nat} (hr : s.ready = false) :
    transferAlone mismatch top enter start s = .refused .notReady := by
  simp [transferAlone, begin_accepting idle, hr]

theorem transferAlone_accepted {mismatch : Nat → Prop} [DecidablePred mismatch] {top : Nat → Nat}
    {enter : Arg → State → State} {start : Nat} (hr : s.ready = true) (hm : ¬ mismatch s.blkN)
    (hb : top s.blkN ≤ s.bufLen) :
    transferAlone mismatch top enter start s = withArgument start (started s) fun a => tick (enter a (started s)) := by
  simp [transferAlone, begin_accepting idle, hr, hm, withBuffer, hb]

theorem beginQuery_notReady {k : State → Out} (hr : s.ready = false) : beginQuery s k = .refused .notReady := by
  simp [beginQuery, idle.1, idle.2.1, hr]

theorem beginQuery_accepted {k : State → Out} (hr : s.ready = true) : beginQuery s k = k s := by
  simp [beginQuery, idle.1, idle.2.1, hr]

end

/-! The argument of a transfer (R62, R28). -/

section
variable {s : State} {start : Nat} {m : Cdv} {k : Arg → Out}

theorem withArgument_unset (h : s.cdv = none) : withArgument start s k = .refused .registerUnset := by
  simp [withArgument, h]

theorem withArgument_wide (h : s.cdv = some m) (hw : Config.argLimit ≤ start * m.toNat) :
    withArgument start s k = .refused .argumentTooWide := by
  simp [withArgument, h, transferArgument, Nat.not_lt.2 hw]

theorem withArgument_fits (h : s.cdv = some m) (hw : start * m.toNat < Config.argLimit) :
    withArgument start s k = k (BitVec.ofNat 32 (start * m.toNat)) := by
  simp [withArgument, h, transferArgument, hw]

end

/-- R57: what a legal buffer length is. -/
theorem bufferLenOk_iff {len : Nat} : bufferLenOk len = true ↔ 0 < len ∧ len % 512 = 0 := by
  simp [bufferLenOk, Config.blockSize]

end Sys2Proof.Machine

/-! ### The bytes of a payload: which ticks store one, and what issuing an instruction leaves alone (R31, R50, R54, R172) -/

namespace Sys2Proof.Machine

/-- R31, R50: both destinations of a payload hold what they held. -/
abbrev BytesKept (s t : State) : Prop := t.buf = s.buf ∧ t.csd = s.csd

@[simp] theorem ret_bytes (ks : List Cont) (s : State) : BytesKept s (ret ks s) :=
  ⟨(ret_same ks s).buf, (ret_same ks s).csd⟩

section
variable (s : State)

@[simp] theorem afterFrameByte_bytes (k : Nat) : BytesKept s (afterFrameByte k s) := by
  unfold afterFrameByte
  split <;> exact ⟨by simp, by simp⟩

@[simp] theorem afterPoll_bytes (e : Nat) (r : Bool) (b : Byte) : BytesKept s (afterPoll e r b s) := by
  unfold afterPoll
  dsimp only
  split_ifs <;> exact ⟨by simp, by simp⟩

@[simp] theorem afterToken_bytes (b : Byte) : BytesKept s (afterToken b s) := by
  unfold afterToken
  dsimp only
  split_ifs <;> exact ⟨by simp, by simp⟩

@[simp] theorem afterRecv_bytes (n : Nat) : BytesKept s (afterRecv n s) := by
  unfold afterRecv
  dsimp only
  split_ifs <;> exact ⟨by simp, by simp⟩

@[simp] theorem afterSend_bytes : BytesKept s (afterSend s) := by
  unfold afterSend
  dsimp only
  split_ifs <;> exact ⟨by simp, by simp⟩

@[simp] theorem afterDresp_bytes (b : Byte) : BytesKept s (afterDresp b s) := by
  unfold afterDresp
  dsimp only
  split_ifs <;> exact ⟨by simp, by simp⟩

@[simp] theorem afterBusy_bytes (b : Byte) : BytesKept s (afterBusy b s) := by
  unfold afterBusy
  dsimp only
  split_ifs <;> exact ⟨by simp, by simp⟩

end

/-- R172 step 3: the byte received is written into the destination at off + BYTE_IDX, and no other is. -/
theorem tick_recv_bytes {s t : State} {d : Dest} {off n : Nat} (hp : s.phase = .recv d off n) (h : tick s = .next t) :
    BytesKept (d.put (Memory.write (d.bytes s) (off + s.byteIdx) s.bus.answer) s) t := by
  by_cases hb : off + s.byteIdx < d.len s.bufLen
  · rw [tick_recv hp hb] at h
    cases h
    exact afterRecv_bytes
      (d.put (Memory.write (d.bytes s) (off + s.byteIdx) s.bus.answer) { s with bus := s.bus.xchg Config.fill }) n
  · simp only [tick, hp, if_neg hb] at h
    cases h

/-- R54: a tick in any other phase stores no payload byte. -/
theorem tick_bytes {s t : State} (hp : ∀ d off n, s.phase ≠ .recv d off n) (h : tick s = .next t) : BytesKept s t := by
  cases hq : s.phase with
  | recv d off n => exact absurd hq (hp d off n)
  | send off =>
    by_cases hb : off + s.byteIdx < s.bufLen
    · rw [tick_send hq hb] at h
      cases h
      exact afterSend_bytes _
    · simp only [tick, hq, if_neg hb] at h
      cases h
  | _ =>
    simp only [tick, hq] at h
    cases h
    exact ⟨by simp, by simp⟩

/-- The sequencer is prepared to make a primitive that receives no payload byte, and no byte has changed. -/
abbrev Starts (s u : State) : Prop := BytesKept s u ∧ ∀ d off n, u.phase ≠ .recv d off n

theorem enterWaitToken_starts (ks : List Cont) (s : State) : Starts s (enterWaitToken ks s) := by
  unfold enterWaitToken
  split <;> exact ⟨⟨rfl, rfl⟩, nofun⟩

theorem enterBusyWait_starts (ks : List Cont) (s : State) : Starts s (enterBusyWait ks s) := by
  unfold enterBusyWait
  split <;> exact ⟨⟨rfl, rfl⟩, nofun⟩

theorem enterAwait_starts (e : Nat) (r k : Bool) (ks : List Cont) (s : State) : Starts s (enterAwait e r k ks s) := by
  cases k <;> exact ⟨⟨rfl, rfl⟩, nofun⟩

theorem enterBlockIn_starts (n : Nat) (s : State) : Starts s (enterBlockIn n s) := by
  unfold enterBlockIn
  split
  · exact enterWaitToken_starts _ { s with bufLen := Config.blockSize }
  · exact enterWaitToken_starts _ s

/-- R28, D43: READY = 1 with a session register unset, which no state of the invariant has. -/
def State.readyUnset (s : State) : Prop := s.ready = true ∧ (s.cdv = none ∨ s.sectors = none)

/-- What issuing the instruction i answers in state s, as far as the bytes of a payload and the unset registers go: a
refusal; register updates; register updates and then the first primitive, before which DBLK-W alone writes bytes (log 8);
or, for a row the card sends, the tick of the exchange in flight (log 6). -/
inductive Answered (i : Instr) (s : State) (o : Out) : Prop where
  | refused (r : Refusal) (unset : r = .registerUnset → s.readyUnset) (eq : o = .refused r)
  | quiet (u : State) (kept : BytesKept s u) (eq : o = .next u)
  | starts (u : State) (starts : Starts s u) (eq : o = tick u)
  | payload (token : DataToken) (bytes : List Byte) (u : State) (row : i = .dblkW token bytes) (eq : o = tick u)
  | inFlight (bs : List Byte) (row : fromCard s.cfg i = some bs) (busy : s.phase ≠ .idle) (eq : o = tick (present bs s))

namespace Answered

variable {i : Instr} {s : State}

theorem refuse {r : Refusal} (h : r ≠ .registerUnset) : Answered i s (.refused r) :=
  .refused r (fun unset => absurd unset h) rfl

theorem next {u : State} (kept : BytesKept s u) : Answered i s (.next u) := .quiet u kept rfl

theorem first {u : State} (starts : Starts s u) : Answered i s (tick u) := .starts u starts rfl

/-- A test that must hold, else the request is refused. -/
theorem require {c : Prop} [Decidable c] {o : Out} {r : Refusal} (hr : r ≠ .registerUnset) (h : c → Answered i s o) :
    Answered i s (if c then o else .refused r) := iteInduction h fun _ => refuse hr

/-- A test on which the request is refused. -/
theorem refuseIf {c : Prop} [Decidable c] {o : Out} {r : Refusal} (hr : r ≠ .registerUnset) (h : ¬ c → Answered i s o) :
    Answered i s (if c then .refused r else o) := iteInduction (fun _ => refuse hr) h

theorem begin {k : State → Out} (h : Answered i s (k (started s))) : Answered i s (begin s k) :=
  refuseIf nofun fun _ => refuseIf nofun fun _ => h

theorem beginAwait {e : Nat} {r k : Bool} {bs : List Byte} : Answered i s (beginAwait e r k (present bs s)) :=
  refuseIf nofun fun _ => require nofun fun _ => first (enterAwait_starts e r k _ _)

theorem sectorsQuery : Answered i s (beginQuery s returnSectors) := by
  refine refuseIf nofun fun _ => refuseIf nofun fun _ => refuseIf nofun fun ready => ?_
  unfold returnSectors
  split
  · exact next ⟨rfl, rfl⟩
  · rename_i unset
    exact .refused _ (fun _ => ⟨by simpa using ready, .inr unset⟩) rfl

theorem withBuffer {top : Nat} {u : State} {o : Out} (h : Answered i s o) : Answered i s (withBuffer top u o) :=
  require nofun fun _ => h

theorem withArgument {start : Nat} {k : Arg → Out} (ready : s.ready = true) (h : ∀ a, Answered i s (k a)) :
    Answered i s (withArgument start (Machine.started s) k) := by
  unfold Machine.withArgument
  split
  · rename_i unset
    exact .refused _ (fun _ => ⟨ready, .inl unset⟩) rfl
  · split
    · exact refuse nofun
    · exact h _

theorem frameThenPoll (x : Index) (a : Arg) (c : Crc7) (e : Nat) (r k : Bool) :
    Answered i s (frameThenPoll x a c e r k s) := begin (first ⟨⟨rfl, rfl⟩, nofun⟩)

theorem sendByte (b : Byte) : Answered i s (sendByte b s) := begin (first ⟨⟨rfl, rfl⟩, nofun⟩)

theorem receive {bs : List Byte} {idle : State → Out} (row : fromCard s.cfg i = some bs) (h : Answered i s (idle s)) :
    Answered i s (receive bs idle s) := iteInduction (fun _ => h) fun busy => .inFlight bs row busy rfl

theorem startOrLineUp {due : Bool} {bs : List Byte} {start : State → State} (h : ∀ u, Starts u (start u)) :
    Answered i s (startOrLineUp due bs start s) :=
  iteInduction (fun _ => begin (first (h (present bs (started s))))) fun _ => next ⟨rfl, rfl⟩

theorem polledWhenIdle {e : Nat} {bs : List Byte} : Answered i s (polledWhenIdle e bs s) :=
  iteInduction (fun _ => beginAwait) fun _ => next ⟨rfl, rfl⟩

theorem transferAlone {mismatch : Nat → Prop} [DecidablePred mismatch] {top : Nat → Nat} {start : Nat}
    {enter : Arg → State → State} (h : ∀ a u, Starts u (enter a u)) :
    Answered i s (transferAlone mismatch top enter start s) :=
  begin (refuseIf nofun fun ready => refuseIf nofun fun _ =>
    withBuffer (withArgument (by simpa using ready) fun a => first (h a (started s))))

theorem bulkOperation {start len : Nat} {o : Op} {single multi : Arg → State → State}
    (h1 : ∀ a u, Starts u (single a u)) (h2 : ∀ a u, Starts u (multi a u)) :
    Answered i s (bulkOperation o single multi start len s) :=
  begin (refuseIf nofun fun ready => iteInduction
    (fun _ => withArgument (by simpa using ready) fun a => iteInduction
      (fun _ => first (h1 a _)) fun _ => first (h2 a _))
    fun _ => next ⟨rfl, rfl⟩)

end Answered

/-- One rule of acceptance after the other, down to the first primitive. -/
theorem exec_answered (i : Instr) (s : State) : Answered i s (exec i s) := by
  cases i
  case readBlocks | writeBlocks =>
    simp only [exec_readBlocks, exec_writeBlocks]
    exact .bulkOperation (fun _ _ => ⟨⟨rfl, rfl⟩, nofun⟩) fun _ _ => ⟨⟨rfl, rfl⟩, nofun⟩
  case readSingle | readMulti | writeSingle | writeMulti =>
    simp only [exec_readSingle, exec_readMulti, exec_writeSingle, exec_writeMulti]
    exact .transferAlone fun _ _ => ⟨⟨rfl, rfl⟩, nofun⟩
  all_goals dsimp only [exec]
  case cmd0 | cmd8 | cmd9 | cmd12 | cmd16 | cmd17 | cmd18 | cmd24 | cmd25 | acmd41 | cmd55 | cmd58 =>
    exact .frameThenPoll ..
  case cfAny | fill | release | clockIdle | readCsd | checkDresp => exact .begin (.first ⟨⟨rfl, rfl⟩, nofun⟩)
  case tokenDataStart =>
    exact .receive rfl (iteInduction (fun _ => .startOrLineUp (enterWaitToken_starts _)) fun _ => .sendByte _)
  case tokenMultiWrite | tokenStopTran => exact .sendByte _
  case r1 | r1Tail | notStatus => exact .receive rfl .polledWhenIdle
  case drespAccepted => exact .receive rfl (.startOrLineUp fun _ => ⟨⟨rfl, rfl⟩, nofun⟩)
  case busy => exact .receive rfl (.startOrLineUp (enterBusyWait_starts _))
  case dblkR => exact .require nofun fun _ => .receive rfl (.startOrLineUp (enterBlockIn_starts _))
  case dblkW token payload =>
    exact .require nofun fun _ => .begin (.require nofun fun _ => .payload _ _ _ rfl rfl)
  case sendCommand | cmd | acmd => exact .require nofun fun _ => .begin (.first ⟨⟨rfl, rfl⟩, nofun⟩)
  case awaitResponse => exact .beginAwait (bs := [])
  case blockCount => exact .sectorsQuery
  case control op =>
    cases op with
    | getSectorCount => exact .sectorsQuery
    | other => exact .refuse nofun
  case blockSize | crc7Gen | classify => exact .next ⟨rfl, rfl⟩
  case build => exact .require nofun fun _ => .next ⟨rfl, rfl⟩
  case checkBuffer => exact .begin (iteInduction (fun _ => .next ⟨rfl, rfl⟩) fun _ => .next ⟨rfl, rfl⟩)
  case waitToken => exact .begin (.require nofun fun _ => .first (enterWaitToken_starts ..))
  case recvBlock =>
    exact .require nofun fun _ => .begin (.require nofun fun _ => .withBuffer (.first (enterWaitToken_starts ..)))
  case sendBlock => exact .begin (.require nofun fun _ => .withBuffer (.first ⟨⟨rfl, rfl⟩, nofun⟩))
  case busyWait => exact .begin (.require nofun fun _ => .first (enterBusyWait_starts ..))
  case sendStop => exact .begin (.require nofun fun _ => .first ⟨⟨rfl, rfl⟩, nofun⟩)

/-- Issuing an instruction other than DBLK-W changes no byte, where it does not run the exchange in flight. -/
theorem exec_bytes {i : Instr} {s t : State} (hi : ∀ token payload, i ≠ .dblkW token payload)
    (hs : s.phase = .idle ∨ fromCard s.cfg i = none) (h : exec i s = .next t) : BytesKept s t := by
  cases exec_answered i s with
  | refused r _ eq => cases h.symm.trans eq
  | quiet u kept eq => cases h.symm.trans eq; exact kept
  | starts u starts eq =>
    have kept := tick_bytes starts.2 (eq.symm.trans h)
    exact ⟨kept.1.trans starts.1.1, kept.2.trans starts.1.2⟩
  | payload token bytes _ row => exact absurd row (hi token bytes)
  | inFlight bs row busy =>
    rcases hs with idle | none
    · exact absurd idle busy
    · cases none.symm.trans row

/-- R87, log 8: DBLK-W writes its payload at offsets 0.. of the host buffer, and its first primitive no byte. -/
theorem exec_dblkW_bytes (token : DataToken) (payload : List Byte) (s : State) :
    NextSat (BytesKept { s with buf := Memory.writeList s.buf 0 payload }) (exec (.dblkW token payload) s) :=
  .require fun _ => .begin fun _ _ => .require fun _ => ⟨fun _ => tick_bytes nofun⟩

/-- Settles O9: by the phases of a tick and by what issuing an instruction answers; a byte is read back as the laws of a
canonical memory say. -/
theorem memoryChangesOnlyByPayload : Obligations.MemoryChangesOnlyByPayload := by
  refine ⟨fun s t off n hp hw h => ?_, fun s t off n hp hw h => ?_, fun s t => tick_bytes, fun i s t => exec_bytes,
    fun token payload s t hw h => ?_⟩
  · obtain ⟨hbuf, hcsd⟩ := tick_recv_bytes hp h
    exact ⟨hcsd, fun a => by rw [hbuf]; exact Memory.read_write hw _ _ a⟩
  · obtain ⟨hbuf, hcsd⟩ := tick_recv_bytes hp h
    exact ⟨hbuf, fun a => by rw [hcsd]; exact Memory.read_write hw _ _ a⟩
  · obtain ⟨hbuf, hcsd⟩ := (exec_dblkW_bytes token payload s).sat t h
    exact ⟨hcsd, fun a => by rw [hbuf, Memory.read_writeList hw]; simp⟩

end Sys2Proof.Machine

/-! ### Operands out of their domain, READY = 0, unset session registers (R28, R62, D9, D31, D38, D40, D43) -/

namespace Sys2Proof.Machine

/-- R123, D9: the domain of a frame's operands. -/
theorem frameOperandsOk_iff {index argument crc : Nat} :
    frameOperandsOk index argument crc = true ↔ index < 64 ∧ argument < 2 ^ 32 ∧ crc < 128 := by
  simp only [frameOperandsOk, Bool.and_eq_true, decide_eq_true_eq, and_assoc]
  rfl

/-- D40: the two lengths of a received payload. -/
theorem payloadLenOk_iff {n : Nat} : payloadLenOk n = true ↔ n = 512 ∨ n = 16 := by
  simp [payloadLenOk, Config.blockSize, Config.csdLen]

section
variable {s : State} (idle : s.accepting) (ready : s.ready = true)
include idle ready

/-- R28, R62: a bulk operation whose argument cannot be formed. -/
theorem bulkOperation_refused {o : Op} {single multi : Arg → State → State} {start len : Nat}
    (hl : bufferLenOk len = true) :
    (s.cdv = none → bulkOperation o single multi start len s = .refused .registerUnset) ∧
    ∀ m, s.cdv = some m → 2 ^ 32 ≤ start * m.toNat →
      bulkOperation o single multi start len s = .refused .argumentTooWide := by
  rw [bulkOperation_accepted idle ready hl]
  exact ⟨fun h => withArgument_unset h, fun m h hw => withArgument_wide h hw⟩

/-- R28, R62: a transfer case issued alone, with its BLK_N and its buffer, whose argument cannot be formed. -/
theorem transferAlone_refused {mismatch : Nat → Prop} [DecidablePred mismatch] {top : Nat → Nat}
    {enter : Arg → State → State} {start : Nat} (hm : ¬ mismatch s.blkN) (hb : top s.blkN ≤ s.bufLen) :
    (s.cdv = none → transferAlone mismatch top enter start s = .refused .registerUnset) ∧
    ∀ m, s.cdv = some m → 2 ^ 32 ≤ start * m.toNat →
      transferAlone mismatch top enter start s = .refused .argumentTooWide := by
  rw [transferAlone_accepted idle ready hm hb]
  exact ⟨fun h => withArgument_unset h, fun m h hw => withArgument_wide h hw⟩

/-- R28: a facade query with SECTORS unset. -/
theorem sectorsQuery_refused (h : s.sectors = none) : beginQuery s returnSectors = .refused .registerUnset := by
  simp [beginQuery_accepted idle ready, returnSectors, h]

end

/-- R28, D43: an operation is refused for an unset register only where READY = 1 and one is unset. -/
theorem exec_ne_registerUnset {i : Instr} {s : State} (h : ¬ s.readyUnset) : exec i s ≠ .refused .registerUnset := by
  intro unset
  cases exec_answered i s with
  | refused r ready eq => cases unset.symm.trans eq; exact h (ready rfl)
  | quiet _ _ eq => cases unset.symm.trans eq
  | starts u _ eq => exact tick_never_refuses u _ (eq.symm.trans unset)
  | payload _ _ u _ eq => exact tick_never_refuses u _ (eq.symm.trans unset)
  | inFlight bs _ _ eq => exact tick_never_refuses _ _ (eq.symm.trans unset)

/-- R28: in a state of the invariant READY = 1 means that the session registers are set. -/
theorem State.Inv.not_readyUnset {s : State} (hi : s.Inv) : ¬ s.readyUnset := by
  rintro ⟨ready, unset⟩
  have set := hi.ready ready
  unfold State.sessionSet at set
  rcases unset with h | h <;> simp [h] at set

/-- The boot sequence issues its operations at READY = 0, where none reads a session register. -/
theorem bootIssue_ne_registerUnset {b : Boot} {i : Instr} {s : State} (h : s.ready = false) :
    bootIssue b i s ≠ .refused .registerUnset :=
  exec_ne_registerUnset fun unset => absurd (h.symm.trans unset.1) nofun

/-- A judgement with two ways on, or else construction fails. -/
theorem bootJudge_ne_registerUnset {c d : Prop} [Decidable c] [Decidable d] {b b' : Boot} {i i' : Instr} {e : BlockError}
    {u u' v : State} (h : u.ready = false) (h' : u'.ready = false) :
    (if c then bootIssue b i u else if d then bootIssue b' i' u' else bootFail e v) ≠ .refused .registerUnset := by
  split_ifs
  · exact bootIssue_ne_registerUnset h
  · exact bootIssue_ne_registerUnset h'
  · nofun

/-- R262 to R270: no boot step taken at READY = 0 is refused for an unset register. -/
theorem bootStep_ne_registerUnset {b : Boot} {s : State} (h : s.ready = false) : bootStep b s ≠ .refused .registerUnset := by
  cases b with
  | start debug => exact bootIssue_ne_registerUnset rfl
  | gen1Announced | gen2OcrRead | gen2Announced => exact bootIssue_ne_registerUnset h
  | clocked =>
    show bootGoIdle 1 s ≠ _
    exact bootIssue_ne_registerUnset h
  | gen2Reread =>
    show bootReadCsd { s with cdv := some .sectorAddressed } ≠ _
    exact bootIssue_ne_registerUnset h
  | idleTried | probed | gen1Polled | gen2Polled => exact bootJudge_ne_registerUnset h h
  | csdRead =>
    show bootJudgeCsd s ≠ _
    unfold bootJudgeCsd
    split
    · nofun
    · dsimp only
      split
      · nofun
      · exact bootIssue_ne_registerUnset h
  | blockLenSent =>
    show bootJudgeBlockLen s ≠ _
    unfold bootJudgeBlockLen
    split <;> nofun

/-- R28, D43: in the invariant no step is refused for an unset register: READY = 0 within a boot sequence, and the registers
are set otherwise. -/
theorem step_ne_registerUnset {s : State} (hi : s.Inv) : step s ≠ .refused .registerUnset := by
  unfold step
  split
  · split
    · nofun
    · rename_i host
      exact exec_ne_registerUnset (hi.taken (hi.rest_fresh host)).not_readyUnset
    · rename_i host
      split
      · exact exec_ne_registerUnset (hi.taken (hi.rest_fresh host)).not_readyUnset
      · nofun
    · nofun
    · rename_i b rest host
      by_cases ready : s.ready = true
      · obtain ⟨debug, rfl⟩ := hi.boot_is_start ready host
        exact bootIssue_ne_registerUnset rfl
      · exact bootStep_ne_registerUnset (Bool.eq_false_of_not_eq_true ready)
  · exact tick_never_refuses s _

/-- Settles O17: the tests of the operands, the test of READY, the argument of a transfer, and the invariant, which shuts out
the unset registers. -/
theorem operandsOutsideTheirDomainAreRefused : Obligations.OperandsOutsideTheirDomainAreRefused := by
  refine ⟨fun s index argument crc bad => ?_, fun s index argument e r k bad => ?_, fun s off n h512 h16 => ?_,
    fun s skipped payload sum0 sum1 bad => ?_, fun s token payload bad => if_neg bad, fun s code => rfl,
    fun s start len idle hr => ?_, fun s start len m idle hr cdv hpos hmod wide => ?_, fun s idle hr unset => ?_,
    fun s start len idle hr unset hpos hmod => ?_, fun s start i idle hr alone => ?_,
    fun s hi => ⟨step_ne_registerUnset hi, fun i => exec_ne_registerUnset hi.not_readyUnset⟩⟩
  · rw [← frameOperandsOk_iff] at bad
    exact ⟨if_neg bad, if_neg bad⟩
  · have bad : ¬ cmdOperandsOk index argument = true := by simpa [cmdOperandsOk, frameOperandsOk_iff] using bad
    exact ⟨if_neg bad, if_neg bad⟩
  · exact if_neg (by simp [payloadLenOk_iff, h512, h16])
  · refine if_neg ?_
    rw [Bool.and_eq_true, payloadLenOk_iff, Bool.not_eq_true', ← Bool.not_eq_true, List.contains_iff_mem]
    tauto
  · simp only [exec_readBlocks, exec_writeBlocks, exec_readSingle, exec_readMulti, exec_writeSingle, exec_writeMulti,
      bulkOperation_notReady idle hr, transferAlone_notReady idle hr, true_and, and_true]
    exact ⟨beginQuery_notReady idle hr, beginQuery_notReady idle hr⟩
  · have len := bufferLenOk_iff.2 ⟨hpos, hmod⟩
    exact ⟨(bulkOperation_refused idle hr len).2 m cdv wide, (bulkOperation_refused idle hr len).2 m cdv wide⟩
  · exact ⟨sectorsQuery_refused idle hr unset, sectorsQuery_refused idle hr unset⟩
  · have len := bufferLenOk_iff.2 ⟨hpos, hmod⟩
    exact ⟨(bulkOperation_refused idle hr len).1 unset, (bulkOperation_refused idle hr len).1 unset⟩
  · rcases alone with ⟨one, buf, rfl | rfl⟩ | ⟨many, buf, rfl | rfl⟩
    · rw [exec_readSingle]
      exact transferAlone_refused idle hr (not_not.2 one) buf
    · rw [exec_writeSingle]
      exact transferAlone_refused idle hr (not_not.2 one) buf
    · rw [exec_readMulti]
      exact transferAlone_refused idle hr (Nat.not_lt.2 many) buf
    · rw [exec_writeMulti]
      exact transferAlone_refused idle hr (Nat.not_lt.2 many) buf

end Sys2Proof.Machine

/-! ### The buffer's length (R57, R170) -/

namespace Sys2Proof.Machine

/-- R170, R241: an error raised before the first primitive leaves the sequencer idle. -/
theorem raise_started {s : State} (idle : s.accepting) (e : BlockError) :
    raise e (started s) = { s with stack := [], err := some e, result := .error e } := by
  obtain ⟨hphase, -, hop⟩ := idle
  cases s
  simp_all [raise, endOperation]

/-- R50, R175, R195: the same for a bulk operation, whose buffer is no longer pointed to. -/
theorem raise_bulk {s : State} (idle : s.accepting) (e : BlockError) {o : Op} (ho : o ≠ .none) :
    raise e { started s with op := o } =
      { s with stack := [], err := some e, result := .error e, bufLen := 0 } := by
  obtain ⟨hphase, -, hop⟩ := idle
  cases s
  simp_all [raise, endOperation]

section
variable {s : State} (idle : s.accepting) {len : Nat}
include idle

theorem exec_checkBuffer_bad (hl : ¬ bufferLenOk len = true) :
    exec (.checkBuffer len) s = .next (raise (.invalidArgument len) (started s)) := by
  simp [exec, execCheckBuffer, begin_accepting idle, hl]

theorem exec_checkBuffer_ok (hl : bufferLenOk len = true) :
    exec (.checkBuffer len) s =
      .next { s with err := none, result := .count (len / 512), blkN := len / 512, bufLen := len } := by
  simp [exec, execCheckBuffer, begin_accepting idle, hl, Config.blockSize]

/-- R57: no argument is formed and no primitive made for a length that is not legal. -/
theorem bulkOperation_badLength {o : Op} {single multi : Arg → State → State} {start : Nat} (hr : s.ready = true)
    (hl : ¬ bufferLenOk len = true) :
    bulkOperation o single multi start len s = .next (raise (.invalidArgument len) { started s with op := o }) := by
  simp [bulkOperation, begin_accepting idle, hr, hl]

/-- R175, R195: with BLK_N set, the operation goes on to the first primitive of its case. -/
theorem bulkOperation_goes_on {o : Op} {single multi : Arg → State → State} {start : Nat} {m : Cdv} (hr : s.ready = true)
    (hl : bufferLenOk len = true) (cdv : s.cdv = some m) (fits : start * m.toNat < 2 ^ 32)
    (h1 : ∀ a u, ∃ t, tick (single a u) = .next t ∧ t.blkN = u.blkN)
    (h2 : ∀ a u, ∃ t, tick (multi a u) = .next t ∧ t.blkN = u.blkN) :
    ∃ u, bulkOperation o single multi start len s = .next u ∧ u.blkN = len / 512 := by
  rw [bulkOperation_accepted idle hr hl, withArgument_fits (s := started s) cdv fits]
  split
  · exact h1 _ _
  · exact h2 _ _

end

/-- Settles O35: the test of the length comes before the argument and before any bus primitive. -/
theorem bufferLengthMustBeAPositiveMultiple : Obligations.BufferLengthMustBeAPositiveMultiple := by
  refine ⟨fun s len idle bad => ?_,
    fun s len idle hpos hmod => exec_checkBuffer_ok idle (bufferLenOk_iff.2 ⟨hpos, hmod⟩),
    fun s start len m idle hr cdv fits hpos hmod => ?_⟩
  · have bad : ¬ bufferLenOk len = true := by rw [bufferLenOk_iff]; omega
    refine ⟨?_, fun hr start => ⟨?_, ?_⟩⟩
    · rw [exec_checkBuffer_bad idle bad, raise_started idle]
    · rw [exec_readBlocks, bulkOperation_badLength idle hr bad, raise_bulk idle _ (by decide)]
    · rw [exec_writeBlocks, bulkOperation_badLength idle hr bad, raise_bulk idle _ (by decide)]
  · have len := bufferLenOk_iff.2 ⟨hpos, hmod⟩
    rw [exec_readBlocks, exec_writeBlocks]
    exact ⟨bulkOperation_goes_on idle hr len cdv fits (fun _ _ => ⟨_, tick_assert rfl, rfl⟩)
        fun _ _ => ⟨_, tick_assert rfl, rfl⟩,
      bulkOperation_goes_on idle hr len cdv fits (fun _ _ => ⟨_, tick_assert rfl, rfl⟩)
        fun _ _ => ⟨_, tick_assert rfl, rfl⟩⟩

end Sys2Proof.Machine

/-! ### The bytes of a frame (R53) -/

namespace Sys2Proof.Machine

/-- R80: FRAME[1..4] lie within bits 39:8, which hold the argument. -/
theorem frameByte_argument (f : Frame) {k : Nat} (h1 : 1 ≤ k) (h4 : k ≤ 4) :
    frameByte f k = (frameArgument f).extractLsb' (32 - 8 * k) 8 := by
  ext j hj
  have bit : 40 - 8 * k + j = 8 + (32 - 8 * k + j) := by omega
  have inside : 32 - 8 * k + j < 32 := by omega
  simp [frameByte, frameArgument, bit, inside]

/-- R53: the tick at byte k exchanges FRAME[k]. -/
theorem tick_frame_hist {s t : State} {k : Nat} (hp : s.phase = .frame k) (h : tick s = .next t) :
    t.bus.hist = .xchg (frameByte s.frame k) s.bus.answer :: s.bus.hist := by
  rw [tick_frame hp] at h
  cases h
  exact (afterFrameByte_busKept _ k).hist.trans (Bus.xchg_hist _ _)

theorem tick_frame_phase {s t : State} {k : Nat} (hp : s.phase = .frame k) (hk : k < 5) (h : tick s = .next t) :
    t.phase = .frame (k + 1) := by
  rw [tick_frame hp, afterFrameByte_more (show k + 1 < 6 by omega)] at h
  cases h
  rfl

/-- Settles O1: the argument's bytes by its place in the frame, the order of the bytes by the tick at each. -/
theorem argumentIsBigEndianAndBytesGoInOrder : Obligations.ArgumentIsBigEndianAndBytesGoInOrder := by
  refine ⟨fun i a c => ?_, fun s t k hp _ h => ⟨tick_frame_hist hp h, fun hk => tick_frame_phase hp hk h⟩⟩
  have byte : ∀ k, 1 ≤ k → k ≤ 4 → frameByte (build i a c) k = a.extractLsb' (32 - 8 * k) 8 := fun k h1 h4 => by
    rw [frameByte_argument _ h1 h4, frameArgument_build]
  exact ⟨byte 1 (by decide) (by decide), byte 2 (by decide) (by decide), byte 3 (by decide) (by decide),
    byte 4 (by decide) (by decide)⟩

end Sys2Proof.Machine

/-! ### Bytes and instructions (R53, R80 to R94) -/

namespace Sys2Proof.Laws.RoundTrip

/-- R80 to R94: the rows put together. -/
theorem statement (i : Instr) : Statement i := by
  cases i with
  | cmd0 a c => exact cmd0 a c
  | cmd8 a c => exact cmd8 a c
  | cmd9 a c => exact cmd9 a c
  | cmd12 a c => exact cmd12 a c
  | cmd16 a c => exact cmd16 a c
  | cmd17 a c => exact cmd17 a c
  | cmd18 a c => exact cmd18 a c
  | cmd24 a c => exact cmd24 a c
  | cmd25 a c => exact cmd25 a c
  | acmd41 a c => exact acmd41 a c
  | cmd55 a c => exact cmd55 a c
  | cmd58 a c => exact cmd58 a c
  | cfAny i a c => exact cfAny i a c
  | tokenDataStart => exact tokenDataStart
  | tokenMultiWrite => exact tokenMultiWrite
  | tokenStopTran => exact tokenStopTran
  | r1 f => exact r1 f
  | r1Tail f x => exact r1Tail f x
  | notStatus x => exact notStatus x
  | drespAccepted x => exact drespAccepted x
  | busy => exact busy
  | fill => exact fill
  | dblkR skipped payload c0 c1 => exact dblkR skipped payload c0 c1
  | dblkW t payload => exact dblkW t payload
  | _ => exact of_call fun _ => rfl

/-- Settles O3: decoding what was encoded, row by row; a call has no bytes. -/
theorem decodeReadsWhatEncodeWrites : Obligations.DecodeReadsWhatEncodeWrites :=
  fun p hp i => statement i p hp

end Sys2Proof.Laws.RoundTrip

namespace Sys2Proof

/-- R80: bits 47:40 are 01 and the index. -/
theorem frameByte_build_first (i : Index) (a : Arg) (c : Crc7) : frameByte (build i a c) 0 = 0b01#2 ++ i := by
  ext k hk
  rw [← BitVec.getLsbD_eq_getElem, ← BitVec.getLsbD_eq_getElem]
  simp only [frameByte, build, BitVec.getLsbD_extractLsb', BitVec.getLsbD_append]
  interval_cases k <;> simp

/-- R80: bits 7:0 are the CRC and 1. -/
theorem frameByte_build_last (i : Index) (a : Arg) (c : Crc7) : frameByte (build i a c) 5 = c ++ 1#1 := by
  ext k hk
  rw [← BitVec.getLsbD_eq_getElem, ← BitVec.getLsbD_eq_getElem]
  simp only [frameByte, build, BitVec.getLsbD_extractLsb', BitVec.getLsbD_append]
  interval_cases k <;> simp

/-- R80: equal frames have equal operands, since each operand is read back. -/
theorem build_injective {i i' : Index} {a a' : Arg} {c c' : Crc7} (h : build i a c = build i' a' c') :
    i = i' ∧ a = a' ∧ c = c' := by
  refine ⟨?_, ?_, ?_⟩
  · rw [← frameIndex_build i a c, h, frameIndex_build]
  · rw [← frameArgument_build i a c, h, frameArgument_build]
  · rw [← frameCrc_build i a c, h, frameCrc_build]

/-- R93, R94: the row of a built frame is canonical and holds all its bits. -/
theorem decodeFrame_build_row (p : Params) (i : Index) (a : Arg) (c : Crc7) :
    ∃ row, decodeFrame (build i a c) = .ok row ∧ row.canonical = true ∧
      encode p row = some (frameBytes (build i a c)) := by
  by_cases named : namedIndex i = true
  · have rows : i = 0 ∨ i = 8 ∨ i = 9 ∨ i = 12 ∨ i = 16 ∨ i = 17 ∨ i = 18 ∨ i = 24 ∨ i = 25 ∨ i = 41 ∨ i = 55 ∨
        i = 58 := by
      simpa [namedIndex] using named
    rcases rows with rfl | rfl | rfl | rfl | rfl | rfl | rfl | rfl | rfl | rfl | rfl | rfl <;>
      exact ⟨_, (decodeFrame_build _ a c).trans rfl, rfl, rfl⟩
  · have canonical : (Instr.cfAny i a c).canonical = true := by simpa [Instr.canonical] using named
    have decoded := Laws.RoundTrip.cfAny i a c Params.initial Machine.Params.initial_wf rfl canonical _ _ rfl rfl
    rw [decodeAt, decodeFrameBytes_frameBytes] at decoded
    exact ⟨.cfAny i a c, decoded, canonical, rfl⟩

theorem decodeFrame_fixedBits {f : Frame} (h : frameFixedOk f = false) : decodeFrame f = .error .fixedBits := by
  simp [decodeFrame, h]

/-- Settles O4: a word whose fixed bits hold is a built frame; the parameters do not matter to a frame. -/
theorem frameWordsDecodeExactlyWhenFixedBitsHold : Obligations.FrameWordsDecodeExactlyWhenFixedBitsHold := by
  intro p f
  rw [decodeTableWord, decodeWord_frame, decodeWord_frame]
  refine ⟨fun fixed => ?_, fun wrong => by rw [decodeFrame_fixedBits wrong]; rfl, rfl⟩
  rw [eq_build fixed]
  obtain ⟨row, decoded, canonical, bytes⟩ := decodeFrame_build_row p (frameIndex f) (frameArgument f) (frameCrc f)
  exact ⟨row, by rw [decoded]; rfl, canonical, bytes⟩

/-- Settles O2: the fields of a frame, each read back; the operation `build` with operands in their domains. -/
theorem buildPlacesItsOperandsInjectively : Obligations.BuildPlacesItsOperandsInjectively :=
  ⟨fun i a c => ⟨frameByte_build_first i a c, frameByte_build_last i a c, frameIndex_build i a c,
      frameArgument_build i a c, frameCrc_build i a c⟩,
    fun _ _ _ _ _ _ => build_injective,
    fun _ _ _ _ hi ha hc => if_pos (Machine.frameOperandsOk_iff.2 ⟨hi, ha, hc⟩)⟩

/-- Settles O5: each word by evaluation of the decoder; no sample reads a parameter that has no default. -/
theorem sampleWordsDecode : Obligations.SampleWordsDecode := by
  unfold Obligations.SampleWordsDecode
  decide

end Sys2Proof

/-! ### Exchanges that receive or only clock the bus (R89, R90) -/

namespace Sys2Proof.Machine

/-- A tick whose exchange sends o, and whose register updates make no event, records that exchange. -/
theorem exchange_recorded {s t u : State} {o : Byte} (one : tick s = .next u) (hist : u.bus.hist = (s.bus.xchg o).hist)
    (h : tick s = .next t) : t.bus.hist = .xchg o s.bus.answer :: s.bus.hist := by
  cases one.symm.trans h
  rw [hist, Bus.xchg_hist]

/-- R50: a payload byte is received only at an offset that exists. -/
theorem tick_recv_fits {s t : State} {d : Dest} {off n : Nat} (hp : s.phase = .recv d off n) (h : tick s = .next t) :
    off + s.byteIdx < d.len s.bufLen := by
  by_contra short
  simp only [tick, hp, if_neg short] at h
  cases h

/-- R50: a payload byte is sent only from an offset that exists. -/
theorem tick_send_fits {s t : State} {off : Nat} (hp : s.phase = .send off) (h : tick s = .next t) :
    off + s.byteIdx < s.bufLen := by
  by_contra short
  simp only [tick, hp, if_neg short] at h
  cases h

/-- A return into n + 1 filler exchanges makes the first of them next. -/
theorem ret_fill_phase (w : FillWhy) (n : Nat) (ks : List Cont) (s : State) :
    (ret (.fill w (n + 1) :: ks) s).phase = .fill w (n + 1) := by
  rw [ret, if_neg (Nat.succ_ne_zero n)]

/-- R190 step 4: after the last payload byte the two checksum positions follow. -/
theorem tick_send_last {s t : State} {off : Nat} (hp : s.phase = .send off) (last : s.byteIdx = 511)
    (h : tick s = .next t) : t.phase = .fill .checksumOut 2 := by
  rw [tick_send hp (tick_send_fits hp h), afterSend_last (by exact congrArg (· + 1) last)] at h
  cases h
  exact ret_fill_phase .checksumOut 1 _ _

/-- Settles O8: each phase's exchange, and the fillers that follow a payload and a deassertion. -/
theorem receivingExchangesSendFill : Obligations.ReceivingExchangesSendFill := by
  refine ⟨fun s t h phases => ?_, fun s t off => tick_send_last, fun s t w hp h => ?_, fun s t hp h => ?_⟩
  · rcases phases with ⟨e, r, hp⟩ | ⟨e, r, hp⟩ | ⟨w, n, hp⟩ | hp | ⟨d, off, n, hp⟩ | hp | hp
    · exact exchange_recorded (tick_skipLead hp) rfl h
    · exact exchange_recorded (tick_poll hp) (afterPoll_busKept _ e r _).hist h
    · exact exchange_recorded (tick_fill hp) (ret_same _ _).busKept.hist h
    · exact exchange_recorded (tick_token hp) (afterToken_busKept _ _).hist h
    · exact exchange_recorded (tick_recv hp (tick_recv_fits hp h)) (afterRecv_busKept _ n).hist h
    · exact exchange_recorded (tick_dresp hp) (afterDresp_busKept _ _).hist h
    · exact exchange_recorded (tick_busy hp) (afterBusy_busKept _ _).hist h
  · rw [tick_fill hp] at h
    cases h
    exact ret_fill_phase w 0 _ _
  · rw [tick_deassert hp] at h
    cases h
    exact ret_fill_phase .release 0 _ _

end Sys2Proof.Machine

/-! ### An operation issued between operations, and its end (R11, R20) -/

namespace Sys2Proof.Machine

section
variable {s : State} (h : s.accepting)
include h

theorem State.accepting.idle : s.phase = .idle := h.1
theorem State.accepting.notDue : s.pending = false := h.2.1
theorem State.accepting.noBulk : s.op = .none := h.2.2

end

/-- An operation whose run comes to its last return: issuing it makes the first primitive, and the rest of the run ends in
the state the return leaves. -/
theorem issue_finish {s u t : State} {v : Ret} (busy : s.phase ≠ .idle) (run : Reaches s (ret [.finish v] u))
    (hop : u.op = .none) (ends : t = { u with phase := .idle, stack := [], result := v.result u }) :
    ∃ w, tick s = .next w ∧ Reaches w t := by
  rw [ret, finish_of_no_bulk hop, ← ends] at run
  exact issue_idle busy (by rw [ends]) run

/-- The same for an operation of one primitive. -/
theorem tick_finish {s u t : State} {v : Ret} (one : tick s = .next (ret [.finish v] u)) (hop : u.op = .none)
    (ends : t = { u with phase := .idle, stack := [], result := v.result u }) : tick s = .next t := by
  rw [one, ret, finish_of_no_bulk hop, ends]

/-- The last of a run of filler exchanges. -/
theorem tick_fill_last {s : State} {w : FillWhy} (hp : s.phase = .fill w 1) :
    tick s = .next (ret s.stack { s with bus := s.bus.xchg Config.fill }) := by
  rw [tick_fill hp, ret, if_pos rfl]

theorem sendByte_accepting {s : State} (accepts : s.accepting) (b : Byte) :
    sendByte b s = .next { s with stack := [], err := none, result := .done, bus := s.bus.xchg b } := by
  rw [sendByte, begin_accepting accepts]
  exact tick_finish (tick_tx rfl) accepts.noBulk (by simp [accepts.idle, Ret.result])

/-- Settles O29: each token is one byte sent; the filler is a run of one filler exchange. -/
theorem sentBytesAreOneExchange : Obligations.SentBytesAreOneExchange := by
  intro s accepts
  refine ⟨sendByte_accepting accepts _, sendByte_accepting accepts _, ?_, fun notRead => ?_⟩
  · show execFill s = _
    rw [execFill, begin_accepting accepts]
    exact tick_finish (v := .done) (tick_fill_last rfl) accepts.noBulk (by simp [accepts.idle, Ret.result, Config.fill])
  · show execTokenDataStart s = _
    rw [execTokenDataStart, receive_idle accepts.idle, if_neg (by simp [notRead, accepts.notDue])]
    exact sendByte_accepting accepts _

/-! ### The busy-wait (R89, R192) -/

/-- A wait with more than n polls to spend has not spent n. -/
theorem busyBudget_left {p : Params} {n : Nat} (h : busyWithin p n) : busyBudgetSpent p n = false := by
  simp only [busyBudgetSpent, beq_eq_false_iff_ne]
  exact fun spent => Nat.lt_irrefl n (h n spent)

/-- R192: BUSY_WAIT with CS = 1 starts its polls. -/
theorem exec_busyWait {s : State} (accepts : s.accepting) (cs : s.cs = true) :
    exec .busyWait s = tick (enterBusyWait [.finish .done] (started s)) := by
  show execBusyWait s = _
  simp [execBusyWait, begin_accepting accepts, cs]

theorem enterBusyWait_in_flight (ks : List Cont) (s : State) : (enterBusyWait ks s).phase ≠ .idle := by
  unfold enterBusyWait
  split <;> nofun

/-- R89, R192: a busy byte within the budget is one attempt. -/
theorem tick_busy_more {s : State} (hp : s.phase = .busy) (zero : s.bus.answer = 0)
    (within : busyWithin s.cfg (s.busyCnt + 1)) :
    tick s = .next { s with busyCnt := s.busyCnt + 1, bus := s.bus.xchg Config.fill } := by
  rw [tick_busy hp, zero, afterBusy_more (by exact busyBudget_left within)]

/-- Settles O44: the two ways a poll goes, and the run of n busy polls and a last one. -/
theorem busyWaitEndsAtAnyNonZeroByte : Obligations.BusyWaitEndsAtAnyNonZeroByte := by
  refine ⟨fun s hp done => ?_, fun s => tick_busy_more, fun s n last accepts cs answered => ?_⟩
  · rw [tick_busy hp, afterBusy_done done]
    rfl
  · rw [exec_busyWait accepts cs]
    exact issue_finish (enterBusyWait_in_flight _ _) (run_busyWait [.finish .done] (started s) answered) accepts.noBulk
      (by simp [accepts.idle, Ret.result])

end Sys2Proof.Machine

/-! ### Bytes the card sends between operations (R82 to R89, log 6) -/

namespace Sys2Proof.Machine

/-- An exchange receives the first of the bytes lined up. -/
theorem Bus.xchg_lined (o x : Byte) (hist : List BusEvent) (l : List Byte) (draws : Nat) :
    Bus.xchg o ⟨hist, x :: l, draws⟩ = ⟨.xchg o x :: hist, l, draws⟩ := rfl

/-- The bytes lined up are used up by as many exchanges of FILL, which the history records. -/
theorem send_lined (bs : List Byte) : ∀ b : Bus,
    Bus.send (fills bs.length) { b with cardIn := bs ++ b.cardIn } =
      { b with hist := (bs.map (.xchg Config.fill)).reverse ++ b.hist } := by
  induction bs with
  | nil => exact fun _ => rfl
  | cons x bs ih =>
    intro b
    rw [List.length_cons, fills_succ, Bus.send_cons, List.cons_append, Bus.xchg_lined]
    simpa using ih { b with hist := .xchg Config.fill x :: b.hist }

/-! The first exchange of a micro-operation, by what it receives. -/

section
variable {s : State}

theorem tick_poll_skips {e : Nat} {r : Bool} (hp : s.phase = .poll e r) (skipped : isStatusByte s.bus.answer = false)
    (more : s.pollCnt + 1 ≠ Config.respBudget) :
    tick s = .next { s with pollCnt := s.pollCnt + 1, bus := s.bus.xchg Config.fill } := by
  rw [tick_poll hp, afterPoll_more skipped (by exact more)]

theorem tick_token_found (hp : s.phase = .token) (found : s.bus.answer = s.cfg.tokenDataStart) :
    tick s = .next (ret s.stack
      { s with tok := s.cfg.tokenDataStart, tokenCnt := s.tokenCnt + 1, bus := s.bus.xchg Config.fill }) := by
  rw [tick_token hp, found]
  exact congrArg _ (afterToken_found (s := { s with bus := s.bus.xchg Config.fill }))

theorem tick_dresp_accepted (hp : s.phase = .dresp) (accepted : drespAccepts s.cfg s.bus.answer = true) :
    tick s = .next (ret s.stack { s with dresp := s.bus.answer, bus := s.bus.xchg Config.fill }) := by
  rw [tick_dresp hp, afterDresp_accepted (by exact accepted)]

end

/-- R124, R24: with a poll due, a polled byte starts AWAIT_RESPONSE on it. -/
theorem receive_polled {s : State} (idle : s.phase = .idle) (due : s.pending = true) (e : Nat) (bs : List Byte) :
    receive bs (polledWhenIdle e bs) s =
      tick (enterAwait e true false [.finish .response] (started (present bs s))) := by
  rw [receive_idle idle, polledWhenIdle, if_pos due]
  simp [beginAwait, idle, due]

/-- R82, R83, R124: a status byte with e bytes behind it ends the poll that is due. -/
theorem receive_status {s : State} (idle : s.phase = .idle) (due : s.pending = true) (hop : s.op = .none)
    (f : BitVec 7) (tail : List Byte) :
    ∃ u, receive (statusByte f :: tail) (polledWhenIdle tail.length (statusByte f :: tail)) s = .next u ∧
      Reaches u
        { s with
          pending := false, pollCnt := 1, resp := .status f, cs := false, stack := [], err := none
          result := .response (.status f)
          bus := Bus.release { s.bus with
            hist := ((statusByte f :: tail).map (.xchg Config.fill)).reverse ++ s.bus.hist } } := by
  have answered : StatusAnswered false [] [] f (started (present (statusByte f :: tail) s)).bus :=
    .of_cardIn (rest := tail ++ s.bus.cardIn) rfl nofun (by decide) rfl
  rw [receive_polled idle due]
  refine issue_finish (by simp) (run_await_status tail.length true false [.finish .response] _ answered) hop ?_
  have used := send_lined (statusByte f :: tail) s.bus
  simp only [List.length_cons, fills_succ, Bus.send_cons, List.cons_append] at used
  simp [idle, Ret.result, Bus.releaseIf, used]

/-- Settles O30: a status byte alone or with four bytes behind it; a byte with bit 7 set is the first poll. -/
theorem receivedStatusBytesEndThePollThatIsDue : Obligations.ReceivedStatusBytesEndThePollThatIsDue := by
  intro s idle due hop
  refine ⟨fun f => receive_status idle due hop f [], fun f x => receive_status idle due hop f (tailBytes x), fun x => ?_⟩
  have skipped : isStatusByte (notStatusByte x) = false := by revert x; decide
  show execNotStatus x s = _
  rw [execNotStatus, receive_polled idle due, tick_poll_skips rfl (by exact skipped) (by simp [Config.respBudget])]
  rfl

/-- Between operations the micro-operation that receives the bytes starts on them. -/
theorem startOrLineUp_starts {s : State} (accepts : s.accepting) {due : Bool} (hd : due = true) (bs : List Byte)
    (start : State → State) : startOrLineUp due bs start s = tick (start (present bs (started s))) := by
  rw [startOrLineUp, if_pos (by simp [hd, accepts.notDue]), begin_accepting accepts, started_eq]

/-- R88: a data response with the accepted pattern is accepted, whatever its upper bits. -/
theorem drespAccepts_drespByte (p : Params) (x : BitVec 3) : drespAccepts p (drespByte x p.drespAccept) = true := by
  simp [drespAccepts, drespByte_fields]

/-- Settles O32: the check passes in its one exchange; the busy-wait's first poll; with CS = 0 nothing starts. -/
theorem receivedDataResponseAndBusyByte : Obligations.ReceivedDataResponseAndBusyByte := by
  refine ⟨fun s x accepts => ?_, fun s accepts cs within => ?_, fun s idle cs => ?_⟩
  · have accepted := drespAccepts_drespByte s.cfg x
    show execDrespAccepted x s = _
    rw [execDrespAccepted, receive_idle accepts.idle, startOrLineUp_starts accepts rfl]
    exact tick_finish (v := .done) (tick_dresp_accepted rfl accepted) accepts.noBulk
      (by simp [accepts.idle, Ret.result, Bus.answer, Bus.xchg_lined, Config.fill])
  · have unspent : busyBudgetSpent s.cfg 0 = false := busyBudget_left fun m hm => by have := within m hm; omega
    show execBusy s = _
    rw [execBusy, receive_idle accepts.idle, startOrLineUp_starts accepts cs, enterBusyWait,
      if_neg (by simp [unspent]), tick_busy_more rfl rfl (by exact within)]
    rfl
  · exact (receive_idle idle _ _).trans (startOrLineUp_lines (.inl cs) _ _)

end Sys2Proof.Machine

/-! ### The data-start token and the data blocks (R85 to R87, R171, R172, R190) -/

namespace Sys2Proof.Machine

/-- R171: the wait is in flight, or with no budget at all its error exit is. -/
theorem enterWaitToken_in_flight (ks : List Cont) (s : State) : (enterWaitToken ks s).phase ≠ .idle := by
  unfold enterWaitToken
  split <;> nofun

/-- After an acknowledged read command a data block of a legal length is received, the token wait first. -/
theorem exec_dblkR_starts {s : State} (accepts : s.accepting) (acked : readAcknowledged s = true)
    {skipped payload : List Byte} (hlen : payloadLenOk payload.length = true) (hs : s.cfg.tokenDataStart ∉ skipped)
    (c0 c1 : Byte) :
    exec (.dblkR skipped payload c0 c1) s =
      tick (enterBlockIn payload.length (present (blockInBytes s.cfg skipped payload c0 c1) (started s))) := by
  rw [exec_dblkR (by simp [Instr.wellFormed, hlen, hs]), receive_idle accepts.idle, startOrLineUp_starts accepts acked]

/-- A block lined up is answered as R172 has it, its checksum bytes behind it. -/
theorem blockAnswered_lined {p : Params} {skipped payload : List Byte} (hs : p.tokenDataStart ∉ skipped)
    (hb : skipped.length < p.tokenBudget) (c0 c1 : Byte) (b : Bus) :
    BlockAnswered p skipped payload { b with cardIn := blockInBytes p skipped payload c0 c1 ++ b.cardIn } :=
  .of_cardIn (rest := [c0, c1] ++ b.cardIn) (fun _ hy => ne_of_mem_of_not_mem hy hs) hb (by simp [blockInBytes])

/-- Settles O33: the wait's first poll finds the token; the block is received into the destination of its length; without
an acknowledged read command nothing starts. -/
theorem receivedTokenAndDataBlock : Obligations.ReceivedTokenAndDataBlock := by
  refine ⟨fun s accepts acked budget => ?_,
    fun s skipped payload c0 c1 accepts acked hs hb => ⟨fun hlen => ?_, fun hlen => ?_⟩,
    fun s skipped payload c0 c1 idle notRead hlen hs => ?_⟩
  · show execTokenDataStart s = _
    rw [execTokenDataStart, receive_idle accepts.idle, if_pos (by simp [acked]), startOrLineUp_starts accepts acked,
      enterWaitToken, if_neg (by exact budget.ne')]
    exact tick_finish (v := .done) (tick_token_found rfl rfl) accepts.noBulk
      (by simp [accepts.idle, Ret.result, Bus.xchg_lined, Config.fill])
  · rw [exec_dblkR_starts accepts acked (payloadLenOk_iff.2 (.inl hlen)) hs, enterBlockIn, if_pos (by exact hlen)]
    have run := run_recvBlock .host 0 [.finish .done]
      { present (blockInBytes s.cfg skipped payload c0 c1) (started s) with bufLen := Config.blockSize }
      (by rintro rfl; cases hlen) (by simp [hlen, Config.blockSize]) (blockAnswered_lined hs hb c0 c1 _)
    exact issue_finish (enterWaitToken_in_flight _ _) run accepts.noBulk
      (by simp [accepts.idle, Ret.result, Config.blockSize])
  · rw [exec_dblkR_starts accepts acked (payloadLenOk_iff.2 (.inr hlen)) hs, enterBlockIn, if_neg (by rw [hlen]; decide)]
    have run := run_recvBlock .csd 0 [.finish .done] (present (blockInBytes s.cfg skipped payload c0 c1) (started s))
      (by rintro rfl; cases hlen) (by simp [hlen, Config.csdLen]) (blockAnswered_lined hs hb c0 c1 _)
    exact issue_finish (enterWaitToken_in_flight _ _) run accepts.noBulk (by simp [accepts.idle, Ret.result])
  · rw [exec_dblkR (by simp [Instr.wellFormed, payloadLenOk_iff.2 hlen, hs]), receive_idle idle,
      startOrLineUp_lines (.inl notRead), lineUp_eq]

/-- Bytes written from offset a on are read back in order. -/
theorem Memory.readList_writeList {m : List Host.Cell} (h : Memory.wf m) (a : Nat) (bs : List Byte) :
    Memory.readList (Memory.writeList m a bs) a bs.length = bs := by
  induction bs generalizing m a with
  | nil => rfl
  | cons b bs ih =>
    have first : Memory.read (Memory.writeList m a (b :: bs)) a = b := by
      rw [Memory.read_writeList h]
      simp
    rw [List.length_cons, Memory.readList, first, Memory.writeList, ih (Memory.wf_write h a b)]

/-- After an acknowledged write command DBLK-W's payload becomes the buffer, and SEND_BLOCK starts. -/
theorem exec_dblkW_starts {s : State} (accepts : s.accepting) (acked : writeAcknowledged s = true) (t : DataToken)
    {payload : List Byte} (hlen : payload.length = Config.blockSize) :
    exec (.dblkW t payload) s = tick (enterSendBlock t 0 [.finish .done]
      { started s with buf := Memory.writeList s.buf 0 payload, bufLen := Config.blockSize }) := by
  show execDblkW t payload s = _
  rw [execDblkW, if_pos hlen, begin_accepting accepts, if_pos (by exact acked), started_eq]

/-- Settles O34: the block sent is the payload just written. -/
theorem dataBlockToTheCardIsSent : Obligations.DataBlockToTheCardIsSent := by
  intro s token payload x accepts acked wf hlen taken
  have back : Memory.readList (Memory.writeList s.buf 0 payload) 0 512 = payload := by
    have := Memory.readList_writeList wf 0 payload
    rwa [hlen] at this
  rw [exec_dblkW_starts accepts acked token hlen]
  have run := run_sendBlock token 0 [.finish .done]
    { started s with buf := Memory.writeList s.buf 0 payload, bufLen := Config.blockSize } (x := x)
    (Nat.le_of_eq (Nat.zero_add _)) (by simpa [Config.blockSize, back] using taken)
  exact issue_finish nofun run accepts.noBulk (by simp [accepts.idle, Ret.result, back, Config.blockSize])

end Sys2Proof.Machine

/-! ### ACMD: CMD55, and then the command (R96, R125, R159) -/

namespace Sys2Proof.Machine

/-- R96, R125: ACMD with operands in their domain starts CMD55, with the command behind it. -/
theorem exec_acmd {s : State} (accepts : s.accepting) {index argument : Nat} (hi : index < 64) (ha : argument < 2 ^ 32)
    (e : Nat) (r k : Bool) :
    exec (.acmd index argument e r k) s = tick (enterCmd 55 0 0 true false
      [.cmd (BitVec.ofNat 6 index) (BitVec.ofNat 32 argument) e r k, .finish .response] (started s)) := by
  have operands : cmdOperandsOk index argument = true := frameOperandsOk_iff.2 ⟨hi, ha, by decide⟩
  show execAcmd index argument e r k s = _
  rw [execAcmd, if_pos operands, begin_accepting accepts, started_eq]

/-- R159, R160: the state after CMD55, its poll and its release; `second` is the bus there, and what POLL_CNT and RESP
hold no later step of ACMD reads. -/
def afterAnnouncement (second : Bus) (n : Nat) (resp : Response) (s : State) : State :=
  { s with
    cs := false, frame := build 55 0 (crcFor s.cfg 55 0), pending := false, pollCnt := n, resp := resp, bus := second }

/-- R96: CMD55 is run to its end whether a status answers it or not. -/
theorem run_announcement (ks : List Cont) (s : State) {first second : Bus}
    (sent : s.bus.command 55 0 (crcFor s.cfg 55 0) = first)
    (ended : (∃ junk f, StatusAnswered false [] junk f first ∧
      second = (Bus.send (fills (junk.length + 1)) first).release) ∨
      NoStatus false first ∧ second = (Bus.send (fills Config.respBudget) first).release) :
    ∃ n resp, Reaches (enterCmd 55 0 0 true false ks s) (ret ks (afterAnnouncement second n resp s)) := by
  subst sent
  rcases ended with ⟨junk, f, answered, bus⟩ | ⟨silent, bus⟩
  · rw [bus]
    have run := run_cmd_status 55 0 _ 0 true false ks s answered
    rw [List.length_nil, Nat.zero_add] at run
    exact ⟨_, _, run⟩
  · rw [bus]
    have run := run_cmd_timeout 55 0 _ 0 true false ks s silent
    rw [Bool.toNat_false, Nat.zero_add, Bus.releaseIf, if_pos rfl] at run
    exact ⟨_, _, run⟩

/-- Settles O27: CMD55's run, whatever ends it, and behind it the command's. -/
theorem acmdSendsThePrefixAndThenTheCommand : Obligations.AcmdSendsThePrefixAndThenTheCommand := by
  intro s index argument e r k second accepts hi ha i a c first ended
  obtain ⟨n, resp, announced⟩ := run_announcement [.cmd i a e r k, .finish .response] (started s) rfl ended
  rw [exec_acmd accepts hi ha]
  refine ⟨fun lead junk f answered => ?_, fun silent => ?_⟩
  · have command := run_cmd_status i a c e r k [.finish .response] (afterAnnouncement second n resp (started s)) answered
    rw [Bus.send_fills] at command
    exact issue_finish nofun (announced.trans command) accepts.noBulk
      (by simp [afterAnnouncement, accepts.idle, accepts.notDue, Ret.result])
  · have command := run_cmd_timeout i a c e r k [.finish .response] (afterAnnouncement second n resp (started s)) silent
    exact issue_finish nofun (announced.trans command) accepts.noBulk
      (by simp [afterAnnouncement, accepts.idle, accepts.notDue, Ret.result])

end Sys2Proof.Machine

/-! ### RELEASE, CLOCK_IDLE and SEND_COMMAND (R120, R121, R123) -/

namespace Sys2Proof.Machine

theorem exec_release {s : State} (accepts : s.accepting) :
    exec .release s = tick (enterRelease [.finish .done] (started s)) := by
  show execRelease s = _
  rw [execRelease, begin_accepting accepts, started_eq]

/-- Settles O24: the release runs to its return; with a poll due it is refused as every bus operation is. -/
theorem releaseDeassertsAndClocksOneFiller : Obligations.ReleaseDeassertsAndClocksOneFiller := by
  refine ⟨fun s accepts => ?_, fun s => (exec_guarded rfl rfl).pollDue⟩
  rw [exec_release accepts]
  exact issue_finish nofun (run_release [.finish .done] (started s)) accepts.noBulk
    (by simp [accepts.idle, Ret.result, Bus.release, Config.fill])

theorem exec_clockIdle {s : State} (accepts : s.accepting) (n : Nat) :
    exec (.clockIdle n) s = tick { started s with phase := .deassert .settle n, stack := [.finish .done] } := by
  show execClockIdle n s = _
  rw [execClockIdle, begin_accepting accepts, started_eq]

/-- Settles O25: the deassert event and its run of n fillers, none of them where n = 0. -/
theorem clockIdleDeassertsAndClocksFillers : Obligations.ClockIdleDeassertsAndClocksFillers := by
  intro s n accepts
  rw [exec_clockIdle accepts]
  exact issue_finish nofun (run_deassert rfl) accepts.noBulk (by simp [accepts.idle, Ret.result, fills, Config.fill])

/-- R123: with operands in their domain SEND_COMMAND starts with the assert event. -/
theorem exec_sendCommand {s : State} (accepts : s.accepting) {index argument crc : Nat} (hi : index < 64)
    (ha : argument < 2 ^ 32) (hc : crc < 128) :
    exec (.sendCommand index argument crc) s = tick
      (enterSend (BitVec.ofNat 6 index) (BitVec.ofNat 32 argument) (BitVec.ofNat 7 crc)
        [.finish .frame] (started s)) := by
  show execSendCommand index argument crc s = _
  rw [execSendCommand, if_pos (frameOperandsOk_iff.2 ⟨hi, ha, hc⟩), begin_accepting accepts, started_eq]

/-- R94: a frame of any index is sent as SEND_COMMAND sends it. -/
theorem exec_cfAny {s : State} (accepts : s.accepting) (i : Index) (a : Arg) (c : Crc7) :
    exec (.cfAny i a c) s = tick (enterSend i a c [.finish .frame] (started s)) := by
  show execCfAny i a c s = _
  rw [execCfAny, begin_accepting accepts, started_eq]

/-- R123: the frame alone, its response left to the host: PENDING = 1 and the frame is returned. -/
theorem send_returns_frame {s : State} (accepts : s.accepting) (i : Index) (a : Arg) (c : Crc7) :
    ∃ u, tick (enterSend i a c [.finish .frame] (started s)) = .next u ∧
      Reaches u
        { s with
          cs := true, frame := build i a c, pending := true, stack := [], err := none, result := .frame (build i a c)
          bus := Bus.send (frameBytes (build i a c)) (s.bus.note .assert) } :=
  issue_finish nofun (run_send rfl) accepts.noBulk (by simp [accepts.idle, Ret.result])

/-- Settles O19: both ways to issue a frame alone start the one run. -/
theorem sendCommandSendsTheFrame : Obligations.SendCommandSendsTheFrame := by
  refine ⟨fun s index argument crc accepts hi ha hc => ?_, fun s i a c accepts => ?_⟩
  · rw [exec_sendCommand accepts hi ha hc]
    exact send_returns_frame accepts _ _ _
  · rw [exec_cfAny accepts]
    exact send_returns_frame accepts i a c

end Sys2Proof.Machine

/-! ### AWAIT_RESPONSE and CMD (R124, R125, R285) -/

namespace Sys2Proof.Machine

theorem enterAwait_in_flight (e : Nat) (r k : Bool) (ks : List Cont) (s : State) :
    (enterAwait e r k ks s).phase ≠ .idle := by
  cases k <;> nofun

/-- Settles O21: the poll's run to a status byte, and the return of RESP. -/
theorem awaitResponseReturnsTheStatusByte : Obligations.AwaitResponseReturnsTheStatusByte := by
  intro s e r k lead junk f idle due hop answered
  have run := run_await_status e r k [.finish .response] (started s) answered
  rw [Bus.send_fills] at run
  rw [exec_awaitResponse idle due]
  exact issue_finish (enterAwait_in_flight _ _ _ _ _) run hop (by simp [idle, Ret.result])

/-- R82, R124: a byte with bit 7 clear is the status byte of its own flags. -/
theorem statusByte_statusBits {b : Byte} (h : isStatusByte b = true) : statusByte (statusBits b) = b := by
  revert b; decide

/-- R32, R124: whatever the card answers, there is a first status byte within the budget's polls or there is none. -/
theorem statusAnswered_or_noStatus (k : Bool) (b : Bus) :
    (∃ lead junk f, StatusAnswered k lead junk f b) ∨ NoStatus k b := by
  set got := Bus.answers (fills (k.toNat + Config.respBudget)) b with hgot
  have hlen : got.length = k.toNat + Config.respBudget := by simp [hgot]
  cases hfind : (got.drop k.toNat).find? isStatusByte with
  | none => exact .inr fun y hy => by simpa using List.find?_eq_none.1 hfind y hy
  | some x =>
    obtain ⟨hx, junk, rest, hpolls, hjunk⟩ := List.find?_eq_some_iff_append.1 hfind
    have hlead : (got.take k.toNat).length = k.toNat := by simp [hlen]
    have hbudget : Config.respBudget = junk.length + (rest.length + 1) := by
      have := congrArg List.length hpolls
      simpa [hlen] using this
    have hall : got = (got.take k.toNat ++ (junk ++ [x])) ++ rest := by
      conv_lhs => rw [← List.take_append_drop k.toNat got, hpolls]
      simp
    have hsum : k.toNat + Config.respBudget = (got.take k.toNat).length + (junk.length + 1) + rest.length := by
      rw [hlead]; omega
    rw [hsum] at hgot
    refine .inl ⟨got.take k.toNat, junk, statusBits x, hlead, by simpa using hjunk, by omega, ?_⟩
    rw [statusByte_statusBits hx]
    exact (Bus.answers_split (by simp) (hgot.symm.trans hall)).1

/-- R33: each byte sent is one event. -/
theorem Bus.send_hist_length (os : List Byte) (b : Bus) : (Bus.send os b).hist.length = os.length + b.hist.length := by
  simp [Bus.send_hist]

/-- R120: a release is two events. -/
theorem Bus.releaseIf_hist_length (r : Bool) (b : Bus) :
    (Bus.releaseIf r b).hist.length = 2 * r.toNat + b.hist.length := by
  cases r <;> simp [Bus.releaseIf, Bus.release]; omega

/-- Settles O23: the card answers a status byte or it does not, and each of the two runs has its end. -/
theorem awaitResponseAlwaysEnds : Obligations.AwaitResponseAlwaysEnds := by
  intro s e r k idle due hop
  rcases statusAnswered_or_noStatus k s.bus with ⟨lead, junk, f, answered⟩ | silent
  · obtain ⟨u, issued, run⟩ := awaitResponseReturnsTheStatusByte s e r k lead junk f idle due hop answered
    have hb : junk.length < 1000 := answered.budget
    refine ⟨u, _, issued, run, idle, rfl, rfl, hb, ?_⟩
    simp only [Bus.releaseIf_hist_length, Bus.send_hist_length, fills_length, answered.leadOk]
    omega
  · obtain ⟨u, issued, run⟩ := awaitResponseTimesOutAfterExactlyTheBudget.2.2 s e r k idle due hop silent
    refine ⟨u, _, issued, run, idle, rfl, rfl, le_rfl, ?_⟩
    simp only [Bus.releaseIf_hist_length, Bus.send_hist_length, fills_length]
    omega

/-- R125: CMD with operands in their domain starts with the assert event, the poll behind the frame. -/
theorem exec_cmd {s : State} (accepts : s.accepting) {index argument : Nat} (hi : index < 64) (ha : argument < 2 ^ 32)
    (e : Nat) (r k : Bool) :
    exec (.cmd index argument e r k) s = tick (enterCmd (BitVec.ofNat 6 index) (BitVec.ofNat 32 argument) e r k
      [.finish .response] (started s)) := by
  have operands : cmdOperandsOk index argument = true := frameOperandsOk_iff.2 ⟨hi, ha, by decide⟩
  show execCmd index argument e r k s = _
  rw [execCmd, if_pos operands, begin_accepting accepts, started_eq]

/-- Settles O26: the frame and its poll run as one, to a status byte or to the sentinel. -/
theorem cmdPairsTheFrameWithItsPoll : Obligations.CmdPairsTheFrameWithItsPoll := by
  intro s index argument e r k accepts hi ha i a c
  rw [exec_cmd accepts hi ha]
  refine ⟨fun lead junk f answered => ?_, fun silent => ?_⟩
  · have run := run_cmd_status i a c e r k [.finish .response] (started s) answered
    rw [Bus.send_fills] at run
    exact issue_finish nofun run accepts.noBulk (by simp [accepts.idle, accepts.notDue, Ret.result])
  · exact issue_finish nofun (run_cmd_timeout i a c e r k [.finish .response] (started s) silent) accepts.noBulk
      (by simp [accepts.idle, accepts.notDue, Ret.result])

end Sys2Proof.Machine

/-! ### `classify` and `crc7_gen` (R122, R126) -/

namespace Sys2Proof.Machine

section
variable {p : Params} {f : BitVec 7}

/-- R126: a status byte is compared whole, in the rule's order. -/
theorem classify_status : classifyResponse p (.status f) =
    if f = 0 then .readyOk
    else if f = p.flagIdle then .idleOnly
    else if f = p.flagIdle ||| p.flagIllegal then .idleAndIllegal
    else .other f := rfl

theorem classify_readyOk_iff : classifyResponse p (.status f) = .readyOk ↔ f = 0 := by
  rw [classify_status]
  split_ifs <;> simp_all

theorem classify_idleOnly_iff : classifyResponse p (.status f) = .idleOnly ↔ f ≠ 0 ∧ f = p.flagIdle := by
  rw [classify_status]
  split_ifs <;> simp_all

theorem classify_idleAndIllegal_iff : classifyResponse p (.status f) = .idleAndIllegal ↔
    f ≠ 0 ∧ f ≠ p.flagIdle ∧ f = p.flagIdle ||| p.flagIllegal := by
  rw [classify_status]
  split_ifs <;> simp_all

theorem classify_other_iff : classifyResponse p (.status f) = .other f ↔
    f ≠ 0 ∧ f ≠ p.flagIdle ∧ f ≠ p.flagIdle ||| p.flagIllegal := by
  rw [classify_status]
  split_ifs <;> simp_all

end

/-- Settles O52: each class by its own bytes; under the default flags the earlier classes shut no byte out. -/
theorem classifyComparesWholeBytes : Obligations.ClassifyComparesWholeBytes := by
  refine ⟨fun p f => ⟨rfl, classify_readyOk_iff.2, fun h0 h => classify_idleOnly_iff.2 ⟨h0, h⟩,
    fun h0 h1 h => classify_idleAndIllegal_iff.2 ⟨h0, h1, h⟩, fun h0 h1 h => classify_other_iff.2 ⟨h0, h1, h⟩⟩,
    fun p f idle illegal => ⟨classify_readyOk_iff, ?_, ?_⟩, fun _ _ => rfl⟩
  · rw [classify_idleOnly_iff, idle]
    exact and_iff_right_of_imp (by rintro rfl; decide)
  · rw [classify_idleAndIllegal_iff, idle, illegal, ← and_assoc]
    exact and_iff_right_of_imp (by rintro rfl; decide)

/-- R122: one input bit, as the shift and the polynomial that the outgoing bit selects. -/
theorem crc7Bit_eq (c : Crc7) (b : Bool) : crc7Bit c b = c <<< 1 ^^^ if c.getLsbD 6 ^^ b then 9 else 0 := by
  unfold crc7Bit
  split <;> simp

/-- A constant selected by the XOR of two bits is the XOR of the constants each selects. -/
theorem selected_xor (k : Crc7) (p q : Bool) :
    (if p ^^ q then k else 0) = (if p then k else 0) ^^^ if q then k else 0 := by
  cases p <;> cases q <;> simp

theorem crc7Bit_xor (c d : Crc7) (a b : Bool) : crc7Bit (c ^^^ d) (a ^^ b) = crc7Bit c a ^^^ crc7Bit d b := by
  simp only [crc7Bit_eq, BitVec.shiftLeft_xor_distrib, BitVec.getLsbD_xor, selected_xor]
  ac_rfl

/-- A register fed by a step that is linear in the register and the input together is linear in both. -/
theorem foldl_xor {α : Type} {step : Crc7 → α → Crc7} {add : α → α → α}
    (linear : ∀ c d x y, step (c ^^^ d) (add x y) = step c x ^^^ step d y) (xs : List α) :
    ∀ (ys : List α) (c d : Crc7), xs.length = ys.length →
      (List.zipWith add xs ys).foldl step (c ^^^ d) = xs.foldl step c ^^^ ys.foldl step d := by
  induction xs with
  | nil => intro ys c d h; simp [List.length_eq_zero_iff.1 h.symm]
  | cons x xs ih =>
    rintro (_ | ⟨y, ys⟩) c d h
    · cases h
    · simpa [linear] using ih ys (step c x) (step d y) (by simpa using h)

theorem byteBits_xor (x y : Byte) : byteBits (x ^^^ y) = List.zipWith (· ^^ ·) (byteBits x) (byteBits y) := by
  simp [byteBits]

theorem crc7Byte_xor (c d : Crc7) (x y : Byte) : crc7Byte (c ^^^ d) (x ^^^ y) = crc7Byte c x ^^^ crc7Byte d y := by
  rw [crc7Byte, byteBits_xor]
  exact foldl_xor crc7Bit_xor (byteBits x) (byteBits y) c d rfl

theorem crc7_xor {xs ys : List Byte} (h : xs.length = ys.length) :
    crc7 (List.zipWith (· ^^^ ·) xs ys) = crc7 xs ^^^ crc7 ys :=
  foldl_xor crc7Byte_xor xs ys 0 0 h

/-- Zeros are the XOR of zeros with themselves. -/
theorem crc7_zeros (n : Nat) : crc7 (List.replicate n 0) = 0 := by
  simpa using crc7_xor (rfl : (List.replicate n (0 : Byte)).length = _)

/-- Settles O53: linearity bit by bit and byte by byte, and the two examples evaluated. -/
theorem crc7GeneratorIsLinear : Obligations.Crc7GeneratorIsLinear :=
  ⟨fun _ _ => crc7_xor, crc7_zeros, fun _ _ _ _ _ _ => rfl, by decide +kernel, by decide +kernel⟩

end Sys2Proof.Machine

/-! ### The twelve named command frames (R150 to R161) -/

namespace Sys2Proof.Machine

/-- R150 to R161: issuing a named frame is its frame and its poll, with the operands of its rule. -/
theorem exec_polledFrame {ins : Instr} {i : Index} {a : Arg} {c : Crc7} {e : Nat} {r k : Bool}
    (named : polledFrame ins = some (i, a, c, e, r, k)) (s : State) : exec ins s = frameThenPoll i a c e r k s := by
  cases ins <;> cases named <;> rfl

/-- R125: an accepted frame starts with the assert event, the poll behind it. -/
theorem frameThenPoll_accepting {s : State} (accepts : s.accepting) (i : Index) (a : Arg) (c : Crc7) (e : Nat)
    (r k : Bool) :
    frameThenPoll i a c e r k s = tick (enterSend i a c [.await e r k, .finish .response] (started s)) := by
  rw [frameThenPoll, begin_accepting accepts, started_eq]

/-- Settles O28: each named frame starts the one run of a frame and its poll, to a status byte or to the sentinel. -/
theorem namedFramesArePolledAsTheirRulesSay : Obligations.NamedFramesArePolledAsTheirRulesSay := by
  intro s ins i a c e r k named accepts
  rw [exec_polledFrame named, frameThenPoll_accepting accepts]
  refine ⟨fun lead junk f answered => ?_, fun silent => ?_⟩
  · have run := run_cmd_status i a c e r k [.finish .response] (started s) answered
    rw [Bus.send_fills] at run
    exact issue_finish nofun run accepts.noBulk (by simp [accepts.idle, accepts.notDue, Ret.result])
  · exact issue_finish nofun (run_cmd_timeout i a c e r k [.finish .response] (started s) silent) accepts.noBulk
      (by simp [accepts.idle, accepts.notDue, Ret.result])

end Sys2Proof.Machine

/-! ### Reading many blocks: CMD18, the blocks, and CMD12 (R153, R156, R174, R175, R236) -/

namespace Sys2Proof.Machine

/-- Status 0 passes a status check. -/
theorem ret_status_ok {s : State} (h : s.resp = .status 0) (check : StatusCheck) (ks : List Cont) :
    ret (.status check :: ks) s = ret ks s := by
  rw [ret, if_pos h]

/-- R174 step 6: any other response to the stop command raises its error at once, the poll having released the bus. -/
theorem ret_stopStatus_bad {s : State} (h : s.resp ≠ .status 0) (ks : List Cont) :
    ret (.status .stop :: ks) s = raise (.ioError (.stopStatus s.resp)) s := by
  rw [ret, if_neg h, statusFailure]

/-- A register that every block sets to the same value holds it after one block or more. -/
theorem foldl_set_of_ne_nil {α β : Type} {l : List α} (h : l ≠ []) (v x : β) : l.foldl (fun _ _ => v) x = v := by
  obtain ⟨y, l, rfl⟩ := List.exists_cons_of_ne_nil h
  exact List.foldl_fixed' (f := fun _ _ => v) (fun _ => rfl) l

/-- R174 steps 1 to 4: the state after CMD18 with argument a, its status 0 behind `junk`, and the blocks, all stored. -/
def blocksStored (a : Arg) (junk : List Byte) (blocks : List (List Byte × List Byte)) (s : State) : State :=
  { s with
    cs := true, frame := build 18 a (crcFor s.cfg 18 a), pending := false, pollCnt := junk.length + 1, resp := .status 0
    blkIdx := s.blkN, tok := s.cfg.tokenDataStart, tokenCnt := blocks.foldl (fun _ x => x.1.length + 1) s.tokenCnt
    byteIdx := Config.blockSize, buf := Memory.writeList s.buf 0 (blocks.flatMap (·.2))
    bus := (Bus.send (fills (junk.length + 1)) (s.bus.command 18 a (crcFor s.cfg 18 a))).recvBlocks blocks }

/-- R174 step 5, R153: the state after CMD12, its poll's exchanges (the skipped byte among them) and the release. -/
def stopSent (polls exchanges : Nat) (r : Response) (s : State) : State :=
  { s with
    cs := false, frame := build 12 0 (crcFor s.cfg 12 0), pending := false, pollCnt := polls, resp := r
    bus := (Bus.send (fills exchanges) (s.bus.command 12 0 (crcFor s.cfg 12 0))).release }

@[simp] theorem stopSent_resp (polls exchanges : Nat) (r : Response) (s : State) :
    (stopSent polls exchanges r s).resp = r := rfl

/-- R153: CMD12 with a status byte within its budget. -/
theorem run_stop_status (ks : List Cont) {s : State} {lead sjunk : List Byte} {f : BitVec 7}
    (answered : StatusAnswered true lead sjunk f (s.bus.command 12 0 (crcFor s.cfg 12 0))) :
    Reaches (enterCmd 12 0 0 true true ks s)
      (ret ks (stopSent (sjunk.length + 1) (lead.length + (sjunk.length + 1)) (.status f) s)) :=
  run_cmd_status 12 0 _ 0 true true ks s answered

/-- R153: CMD12 never answered: the skipped byte and the budget's polls. -/
theorem run_stop_timeout (ks : List Cont) {s : State}
    (silent : NoStatus true (s.bus.command 12 0 (crcFor s.cfg 12 0))) :
    Reaches (enterCmd 12 0 0 true true ks s)
      (ret ks (stopSent Config.respBudget (1 + Config.respBudget) .timeout s)) := by
  have run := run_cmd_timeout 12 0 _ 0 true true ks s silent
  rw [Bool.toNat_true, Bus.releaseIf, if_pos rfl] at run
  exact run

section
variable {s : State} {a : Arg} {junk : List Byte} {blocks : List (List Byte × List Byte)}
  (some_blocks : blocks ≠ []) (count : blocks.length = s.blkN)
  (room : Config.blockSize * s.blkN ≤ s.bufLen)
  (acked : StatusAnswered false [] junk 0 (s.bus.command 18 a (crcFor s.cfg 18 a)))
  (answered : BlocksAnswered s.cfg blocks
    (Bus.send (fills (junk.length + 1)) (s.bus.command 18 a (crcFor s.cfg 18 a))))
include some_blocks count room acked answered

/-- R174 steps 1 to 4: READ_MULTI runs to the stop command, whatever the card answers to that. -/
theorem run_readMulti_blocks :
    Reaches (enterReadMulti a s)
      (enterCmd 12 0 0 true true [.status .stop, .finish .success] (blocksStored a junk blocks s)) := by
  have command := run_cmd_status 18 a _ 0 false false
    [.status .command, .readFrom 0, .cmd 12 0 0 true true, .status .stop, .finish .success] s acked
  rw [ret_status_ok rfl, List.length_nil, Nat.zero_add] at command
  refine command.trans (Reaches.trans (run_readFrom _ blocks 0 _ ?_ ?_ ?_) ?_)
  · exact (Nat.zero_add _).trans count
  · exact room
  · exact answered
  · rw [foldl_set_of_ne_nil some_blocks, foldl_set_of_ne_nil some_blocks]
    exact Reaches.refl _

/-- R174: READ_MULTI with every exchange answered runs to success. -/
theorem run_readMulti {lead sjunk : List Byte}
    (stopped : StatusAnswered true lead sjunk 0 ((blocksStored a junk blocks s).bus.command 12 0 (crcFor s.cfg 12 0))) :
    Reaches (enterReadMulti a s) (finish .success
      (stopSent (sjunk.length + 1) (lead.length + (sjunk.length + 1)) (.status 0) (blocksStored a junk blocks s))) := by
  have run := (run_readMulti_blocks some_blocks count room acked answered).trans (run_stop_status _ stopped)
  rw [ret_status_ok (stopSent_resp ..)] at run
  exact run

end

/-- R175: READ_BLOCKS sets OP, BLK_N and the buffer, and from two blocks on it is READ_MULTI. -/
def readBegun (n : Nat) (s : State) : State :=
  { started s with op := .read, blkN := n, bufLen := Config.blockSize * n }

section
variable {s t u : State} {start : Nat} {m : Cdv} (accepts : s.accepting) (ready : s.ready = true) (cdv : s.cdv = some m)
  (fits : start * m.toNat < 2 ^ 32)
include accepts ready cdv fits

/-- R174: READ_MULTI issued alone ends where its run ends. -/
theorem exec_readMulti_runs (many : 2 ≤ s.blkN) (room : Config.blockSize * s.blkN ≤ s.bufLen)
    (run : Reaches (enterReadMulti (BitVec.ofNat 32 (start * m.toNat)) (started s)) u) (ends : t = u)
    (idle : t.phase = .idle) : ∃ w, exec (.readMulti start) s = .next w ∧ Reaches w t := by
  rw [exec_readMulti, transferAlone_accepted accepts ready (by exact Nat.not_lt.2 many) (by exact room),
    withArgument_fits (s := started s) cdv fits]
  exact issue_idle nofun idle (ends ▸ run)

/-- R175: READ_BLOCKS of two blocks or more ends where the run of READ_MULTI ends. -/
theorem exec_readBlocks_runs {n : Nat} (many : 2 ≤ n)
    (run : Reaches (enterReadMulti (BitVec.ofNat 32 (start * m.toNat)) (readBegun n s)) u) (ends : t = u)
    (idle : t.phase = .idle) : ∃ w, exec (.readBlocks start (Config.blockSize * n)) s = .next w ∧ Reaches w t := by
  have legal : bufferLenOk (Config.blockSize * n) = true :=
    bufferLenOk_iff.2 ⟨Nat.mul_pos (by decide) (by omega), Nat.mul_mod_right ..⟩
  have count : Config.blockSize * n / Config.blockSize = n := Nat.mul_div_cancel_left n (by decide)
  rw [exec_readBlocks, bulkOperation_accepted accepts ready legal, withArgument_fits (s := started s) cdv fits, count,
    if_neg (by omega)]
  exact issue_idle nofun idle (ends ▸ run)

end

/-- Settles O39: CMD18, the blocks and CMD12 in one run, from either operation's start. -/
theorem readOfManyBlocksSucceeds : Obligations.ReadOfManyBlocksSucceeds := by
  intro s start m junk blocks lead sjunk accepts ready cdv fits many a sent acked received stopped ok answered stopOk
  have some_blocks : blocks ≠ [] := List.ne_nil_of_length_pos (by omega)
  refine ⟨fun count room => ?_, ?_⟩
  · have room : Config.blockSize * s.blkN ≤ s.bufLen := count ▸ room
    have run := run_readMulti (s := started s) some_blocks count.symm room ok answered stopOk
    refine exec_readMulti_runs accepts ready cdv fits (count ▸ many) room run ?_ accepts.idle
    simp only [stopSent, blocksStored, started_eq, finish, endOperation, count, accepts.noBulk, accepts.idle,
      accepts.notDue]
    rfl
  · have run := run_readMulti (s := readBegun blocks.length s) some_blocks rfl le_rfl ok answered stopOk
    refine exec_readBlocks_runs accepts ready cdv fits many run ?_ accepts.idle
    simp only [stopSent, blocksStored, readBegun, started_eq, finish, endOperation, accepts.noBulk, accepts.idle,
      accepts.notDue]
    rfl

/-- Settles O42: the run to the stop command, and then CMD12's own error. -/
theorem stopStatusErrorEndsAMultiBlockRead : Obligations.StopStatusErrorEndsAMultiBlockRead := by
  intro s start m junk blocks accepts ready cdv fits many a sent acked stopped ok answered failed
  have stored := run_readMulti_blocks (s := readBegun blocks.length s) (List.ne_nil_of_length_pos (by omega)) rfl le_rfl
    ok answered
  have ends (r polls exchanges) : failed r polls exchanges = raise (.ioError (.stopStatus r))
      (stopSent polls exchanges r (blocksStored a junk blocks (readBegun blocks.length s))) := by
    simp only [failed, stopSent, blocksStored, readBegun, started_eq, raise, endOperation, accepts.noBulk, accepts.idle,
      accepts.notDue]
    rfl
  refine ⟨fun lead sjunk f nonzero stopBad => ?_, fun silent => ?_⟩
  · have run := stored.trans (run_stop_status _ stopBad)
    rw [ret_stopStatus_bad (by simpa using nonzero)] at run
    exact exec_readBlocks_runs accepts ready cdv fits many run (ends ..) accepts.idle
  · have run := stored.trans (run_stop_timeout _ silent)
    rw [ret_stopStatus_bad (by simp)] at run
    exact exec_readBlocks_runs accepts ready cdv fits many run (ends ..) accepts.idle

end Sys2Proof.Machine

/-! ### WAIT_TOKEN and RECV_BLOCK (R171, R172) -/

namespace Sys2Proof.Machine

section
variable {s : State} (accepts : s.accepting)
include accepts

/-- R171: WAIT_TOKEN starts after an acknowledged read command only. -/
theorem exec_waitToken :
    exec .waitToken s =
      if readAcknowledged s then tick (enterWaitToken [.finish .done] (started s))
      else .refused .preconditionUnmet := by
  show execWaitToken s = _
  rw [execWaitToken, begin_accepting accepts]
  rfl

/-- R172: RECV_BLOCK starts after an acknowledged read command only, on a buffer that has the offsets. -/
theorem exec_recvBlock (off : Nat) {n : Nat} (len : n = 512 ∨ n = 16) :
    exec (.recvBlock off n) s =
      if readAcknowledged s then
        withBuffer (off + n) s (tick (enterRecvBlock .host off n [.finish .done] (started s)))
      else .refused .preconditionUnmet := by
  show execRecvBlock off n s = _
  rw [execRecvBlock, if_pos (payloadLenOk_iff.2 len), begin_accepting accepts]
  rfl

end

/-- R171 step 4, D23: a wait that runs out of its budget ends its operation, whatever else that had to do. -/
theorem token_wait_times_out {s : State} {n : Nat} (waits : s.phase = .token)
    (left : s.tokenCnt + (n + 1) = s.cfg.tokenBudget)
    (silent : ∀ y ∈ Bus.answers (fills (n + 1)) s.bus, y ≠ s.cfg.tokenDataStart) :
    Reaches s
      { s with
        phase := .idle, stack := [], op := .none, bufLen := if s.op = .none then s.bufLen else 0, cs := false
        err := some (.ioTimeout .waitingForData), result := .error (.ioTimeout .waitingForData)
        tok := (Bus.answers (fills (n + 1)) s.bus).getLastD 0, tokenCnt := s.cfg.tokenBudget
        bus := (Bus.send (fills (n + 1)) s.bus).release } :=
  run_token_timeout waits n left silent

/-- Settles O36: the wait's run to the token; its run through the budget, from its first poll as from any other. -/
theorem waitTokenFindsTheTokenOrTimesOut : Obligations.WaitTokenFindsTheTokenOrTimesOut := by
  refine ⟨fun s junk accepts acked junkOk budget answered => ?_, fun s accepts acked budget silent => ?_,
    fun s n => token_wait_times_out⟩
  · rw [exec_waitToken accepts, if_pos acked]
    exact issue_finish (enterWaitToken_in_flight _ _)
      (run_waitToken [.finish .done] (started s) junk junkOk budget answered) accepts.noBulk
      (by simp [accepts.idle, Ret.result])
  · obtain ⟨n, polls⟩ := Nat.exists_eq_succ_of_ne_zero budget.ne'
    rw [exec_waitToken accepts, if_pos acked]
    refine issue_idle (enterWaitToken_in_flight _ _) accepts.idle ?_
    rw [enterWaitToken, if_neg (by exact budget.ne')]
    rw [polls] at silent
    have run := token_wait_times_out
      (s := { started s with tokenCnt := 0, phase := .token, stack := [.finish .done] }) rfl
      ((Nat.zero_add _).trans polls.symm) silent
    simpa [accepts.idle, accepts.noBulk, polls] using run

/-- Settles O37: the block's run, from the wait for its token to its checksum. -/
theorem recvBlockStoresThePayload : Obligations.RecvBlockStoresThePayload := by
  intro s off junk payload accepts acked len room answered
  have some_bytes : payload ≠ [] := by
    rintro rfl
    simp at len
  rw [exec_recvBlock accepts off len, if_pos acked, withBuffer_fits room]
  exact issue_finish (enterWaitToken_in_flight _ _)
    (run_recvBlock .host off [.finish .done] (started s) some_bytes room answered) accepts.noBulk
    (by simp [accepts.idle, Ret.result])

end Sys2Proof.Machine

/-! ### A command and its status check; READ_CSD (R173, R176, R236) -/

namespace Sys2Proof.Machine

/-- An operation whose run ends in u, the state that t spells out. -/
theorem issue_ends {s t u : State} (busy : s.phase ≠ .idle) (run : Reaches s u) (ends : t = u)
    (idle : t.phase = .idle) : ∃ w, tick s = .next w ∧ Reaches w t :=
  issue_idle busy idle (ends ▸ run)

/-- R124: how the poll of a command ends, by the response it leaves in RESP and the polls it has made. -/
inductive Polled (b : Bus) : Response → Nat → Prop where
  | status {junk : List Byte} {f : BitVec 7} (answered : StatusAnswered false [] junk f b) :
      Polled b (.status f) (junk.length + 1)
  | silent (silent : NoStatus false b) : Polled b .timeout Config.respBudget

/-- R125: the state after the command i with argument a and its polls, chip-select still asserted. -/
def commandPolled (i : Index) (a : Arg) (r : Response) (polls : Nat) (s : State) : State :=
  { s with
    cs := true, frame := build i a (crcFor s.cfg i a), pending := false, pollCnt := polls, resp := r
    bus := Bus.send (fills polls) (s.bus.command i a (crcFor s.cfg i a)) }

/-- R120: the state after RELEASE. -/
def released (s : State) : State := { s with cs := false, bus := s.bus.release }

section
variable {i : Index} {a : Arg} {s : State} {r : Response} {polls : Nat}

/-- R125: a command that is not released by its poll, whatever ends the poll. -/
theorem run_command (ks : List Cont) (polled : Polled (s.bus.command i a (crcFor s.cfg i a)) r polls) :
    Reaches (enterCmd i a 0 false false ks s) (ret ks (commandPolled i a r polls s)) := by
  cases polled with
  | status answered =>
    have run := run_cmd_status i a _ 0 false false ks s answered
    rw [List.length_nil, Nat.zero_add] at run
    exact run
  | silent silent =>
    have run := run_cmd_timeout i a _ 0 false false ks s silent
    rw [Bool.toNat_false, Nat.zero_add, Bus.releaseIf, if_neg Bool.false_ne_true] at run
    exact run

/-- R173, R174, R176, R193, R194 step 2: any response but status 0 ends the operation with RELEASE and the error of its
check, whatever else it had to do. -/
theorem run_command_notAcknowledged {check : StatusCheck} {e : Response → BlockError}
    (fails : ∀ u, statusFailure check u = fail (e u.resp) u) (ks : List Cont)
    (polled : Polled (s.bus.command i a (crcFor s.cfg i a)) r polls) (bad : r ≠ .status 0) :
    Reaches (enterCmd i a 0 false false (.status check :: ks) s)
      (raise (e r) (released (commandPolled i a r polls s))) := by
  have run := run_command (.status check :: ks) polled
  rw [ret, if_neg (by exact bad), fails] at run
  exact run.trans (run_fail _ _)

end

/-- R173, R176: the state after the command i with argument a, its status 0 behind `junk`, the block received into d and
the release. -/
def blockRead (i : Index) (a : Arg) (d : Dest) (junk tjunk payload : List Byte) (s : State) : State :=
  released <| d.put (Memory.writeList (d.bytes s) 0 payload)
    { commandPolled i a (.status 0) (junk.length + 1) s with
      tok := s.cfg.tokenDataStart, tokenCnt := tjunk.length + 1, byteIdx := payload.length
      bus := Bus.send (fills (recvLen tjunk payload))
        (Bus.send (fills (junk.length + 1)) (s.bus.command i a (crcFor s.cfg i a))) }

/-- R173, R176: command, check, block and release in one run. -/
theorem run_readBlock (i : Index) (a : Arg) (check : StatusCheck) (d : Dest) {s : State}
    {junk tjunk payload : List Byte} {n : Nat} (len : payload.length = n) (some_bytes : 0 < n)
    (room : n ≤ d.len s.bufLen)
    (acked : StatusAnswered false [] junk 0 (s.bus.command i a (crcFor s.cfg i a)))
    (answered : BlockAnswered s.cfg tjunk payload
      (Bus.send (fills (junk.length + 1)) (s.bus.command i a (crcFor s.cfg i a)))) :
    Reaches (enterCmd i a 0 false false [.status check, .recvBlock d 0 n, .release, .finish .success] s)
      (finish .success (blockRead i a d junk tjunk payload s)) := by
  subst len
  refine (run_command _ (.status acked)).trans ?_
  rw [ret_status_ok rfl, ret]
  have block := run_recvBlock d 0 [.release, .finish .success] (commandPolled i a (.status 0) (junk.length + 1) s)
    (List.ne_nil_of_length_pos some_bytes) (by rw [Nat.zero_add]; exact room) answered
  refine block.trans ((run_release _ _).trans ?_)
  cases d <;> exact Reaches.refl _

/-! READ_CSD (R176). -/

theorem exec_readCsd {s : State} (accepts : s.accepting) :
    exec .readCsd s = tick (enterCmd 9 0 0 false false
      [.status .csd, .recvBlock .csd 0 Config.csdLen, .release, .finish .success] (started s)) := by
  show execReadCsd s = _
  rw [execReadCsd, begin_accepting accepts, started_eq]

/-- Settles O40: CMD9 and the block in one run; any other response to CMD9 ends it. -/
theorem readCsdDeliversSixteenBytes : Obligations.ReadCsdDeliversSixteenBytes := by
  intro s accepts c sent failed
  have ends_with {r : Response} {polls : Nat} (polled : Polled sent r polls) (bad : r ≠ .status 0) :
      ∃ u, exec .readCsd s = .next u ∧ Reaches u (failed r polls) := by
    have run := run_command_notAcknowledged (check := .csd) (e := fun r => .unsupportedCard (.csdStatus r))
      (s := started s) (fun _ => rfl) [.recvBlock .csd 0 Config.csdLen, .release, .finish .success] polled bad
    have ends : failed r polls =
        raise (.unsupportedCard (.csdStatus r)) (released (commandPolled 9 0 r polls (started s))) := by
      simp only [failed, released, commandPolled, started_eq, raise, endOperation, accepts.noBulk, accepts.idle,
        accepts.notDue]
      rfl
    rw [exec_readCsd accepts]
    exact issue_ends nofun run ends accepts.idle
  refine ⟨fun junk tjunk payload len acked answered => ?_,
    fun junk f nonzero answered => ends_with (.status answered) (by simpa using nonzero),
    fun silent => ends_with (.silent silent) nofun⟩
  have run := run_readBlock 9 0 .csd .csd (n := Config.csdLen) (s := started s) len (by decide) le_rfl acked answered
  rw [exec_readCsd accepts]
  refine issue_ends nofun run ?_ accepts.idle
  simp only [blockRead, released, commandPolled, started_eq, finish, endOperation, len, accepts.noBulk, accepts.idle,
    accepts.notDue]
  rfl

end Sys2Proof.Machine

/-! ### Bulk operations of one block, and those whose command is not acknowledged (R173 to R175, R193 to R195, R236) -/

namespace Sys2Proof.Machine

/-- R175, R195: a bulk operation has set OP, BLK_N and the buffer. -/
def bulkBegun (o : Op) (len : Nat) (s : State) : State :=
  { started s with op := o, blkN := len / Config.blockSize, bufLen := len }

section
variable {s : State} {start : Nat} {m : Cdv} (accepts : s.accepting) (ready : s.ready = true) (cdv : s.cdv = some m)
  (fits : start * m.toNat < 2 ^ 32)
include accepts ready cdv fits

/-- R175, R195: with a legal length and argument a bulk operation starts the case of its block count. -/
theorem bulkOperation_starts {o : Op} {single multi : Arg → State → State} {len : Nat}
    (legal : 0 < len ∧ len % 512 = 0) :
    bulkOperation o single multi start len s =
      tick ((if len = 512 then single else multi) (BitVec.ofNat 32 (start * m.toNat)) (bulkBegun o len s)) := by
  have one : len / Config.blockSize = 1 ↔ len = 512 := by
    show len / 512 = 1 ↔ len = 512
    omega
  rw [bulkOperation_accepted accepts ready (bufferLenOk_iff.2 legal), withArgument_fits (s := started s) cdv fits]
  simp only [one]
  split <;> rfl

/-- R173: READ_SINGLE issued alone, with its BLK_N and a buffer of a block, starts. -/
theorem exec_readSingle_starts (one : s.blkN = 1) (room : 512 ≤ s.bufLen) :
    exec (.readSingle start) s = tick (enterReadSingle (BitVec.ofNat 32 (start * m.toNat)) (started s)) := by
  rw [exec_readSingle, transferAlone_accepted accepts ready (not_not.2 one) (by exact room),
    withArgument_fits (s := started s) cdv fits]

/-- R173, R174, R193, R194 step 2: a bulk operation whose command, of index i, is not answered with status 0. -/
theorem bulkOperation_notAcknowledged {o : Op} {single multi : Arg → State → State} {len : Nat}
    (legal : 0 < len ∧ len % 512 = 0) (bulk : o ≠ .none) {i : Index}
    (enters : ∀ a u, ∃ ks,
      (if len = 512 then single else multi) a u = enterCmd i a 0 false false (.status .command :: ks) u)
    {r : Response} {polls : Nat} {a : Arg} (argument : a = BitVec.ofNat 32 (start * m.toNat))
    (polled : Polled (s.bus.command i a (crcFor s.cfg i a)) r polls) (bad : r ≠ .status 0) :
    ∃ u, bulkOperation o single multi start len s = .next u ∧
      Reaches u
        { s with
          cs := false, frame := build i a (crcFor s.cfg i a), pollCnt := polls, resp := r, stack := []
          blkN := len / 512, bufLen := 0
          err := some (.ioError (.commandStatus r)), result := .error (.ioError (.commandStatus r))
          bus := (Bus.send (fills polls) (s.bus.command i a (crcFor s.cfg i a))).release } := by
  obtain ⟨ks, enter⟩ := enters a (bulkBegun o len s)
  have run := run_command_notAcknowledged (check := .command) (e := fun r => .ioError (.commandStatus r))
    (s := bulkBegun o len s) (fun _ => rfl) ks polled bad
  rw [bulkOperation_starts accepts ready cdv fits legal, ← argument, enter]
  refine issue_ends nofun run ?_ accepts.idle
  simp only [released, commandPolled, bulkBegun, started_eq, raise, endOperation, bulk, accepts.noBulk, accepts.idle,
    accepts.notDue]
  rfl

end

/-- Settles O38: CMD17 and the block in one run, from either operation's start. -/
theorem readOfOneBlockSucceeds : Obligations.ReadOfOneBlockSucceeds := by
  intro s start m junk tjunk payload accepts ready cdv fits a c sent acked len ok answered done
  refine ⟨fun one room => ?_, ?_⟩
  · have run := run_readBlock 17 a .command .host (n := Config.blockSize) (s := started s) len (by decide) room ok
      answered
    rw [exec_readSingle_starts accepts ready cdv fits one room]
    refine issue_ends nofun run ?_ accepts.idle
    simp only [done, blockRead, released, commandPolled, started_eq, finish, endOperation, len, one, accepts.noBulk,
      accepts.idle, accepts.notDue]
    rfl
  · have run := run_readBlock 17 a .command .host (n := Config.blockSize) (s := bulkBegun .read 512 s) len (by decide)
      le_rfl ok answered
    rw [exec_readBlocks, bulkOperation_starts accepts ready cdv fits (by decide), if_pos rfl]
    refine issue_ends nofun run ?_ accepts.idle
    simp only [done, blockRead, released, commandPolled, bulkBegun, started_eq, finish, endOperation, len,
      accepts.noBulk, accepts.idle, accepts.notDue]
    rfl

/-- Settles O41: the four commands of the two bulk operations, each behind the one status check. -/
theorem commandStatusErrorEndsTheTransfer : Obligations.CommandStatusErrorEndsTheTransfer := by
  intro s start len m ins i accepts ready cdv fits pos aligned row a c sent failed
  have ends_with {r : Response} {polls : Nat} (polled : Polled sent r polls) (bad : r ≠ .status 0) :
      ∃ u, exec ins s = .next u ∧ Reaches u (failed r polls) := by
    rcases row with ⟨rfl, rfl⟩ | ⟨rfl, rfl⟩
    · exact bulkOperation_notAcknowledged (o := .read) accepts ready cdv fits ⟨pos, aligned⟩ nofun
        (fun a u => by split <;> exact ⟨_, rfl⟩) rfl polled bad
    · exact bulkOperation_notAcknowledged (o := .write) accepts ready cdv fits ⟨pos, aligned⟩ nofun
        (fun a u => by split <;> exact ⟨_, rfl⟩) rfl polled bad
  exact ⟨fun junk f nonzero answered => ends_with (.status answered) (by simpa using nonzero),
    fun silent => ends_with (.silent silent) nofun⟩

end Sys2Proof.Machine

/-! ### Which requests can end in the fault (R11, R50, log 8) -/

namespace Sys2Proof.Machine

/-- The outcome is no fault. -/
structure Faultless (o : Out) : Prop where
  ne_fault : ∀ f, o ≠ .fault f

/-- The next primitive moves no payload byte. -/
abbrev State.movesNoPayload (s : State) : Prop :=
  (∀ d off n, s.phase ≠ .recv d off n) ∧ ∀ off, s.phase ≠ .send off

namespace Faultless

theorem next (t : State) : Faultless (.next t) := ⟨nofun⟩

theorem refused (r : Refusal) : Faultless (.refused r) := ⟨nofun⟩

theorem ite {c : Prop} [Decidable c] {o o' : Out} (h : Faultless o) (h' : Faultless o') :
    Faultless (if c then o else o') := iteInduction (fun _ => h) fun _ => h'

/-- A test that must hold, else the request is refused. -/
theorem require {c : Prop} [Decidable c] {o : Out} {r : Refusal} (h : Faultless o) :
    Faultless (if c then o else .refused r) := ite h (refused r)

/-- A test on which the request is refused. -/
theorem refuseIf {c : Prop} [Decidable c] {o : Out} {r : Refusal} (h : Faultless o) :
    Faultless (if c then .refused r else o) := ite (refused r) h

/-- A primitive that moves no payload byte reads no offset. -/
theorem first {s : State} (h : s.movesNoPayload) : Faultless (tick s) := by
  unfold tick
  split
  case h_10 hp => exact (h.1 _ _ _ hp).elim
  case h_11 hp => exact (h.2 _ hp).elim
  all_goals exact next _

variable {s : State}

theorem begin {k : State → Out} (h : Faultless (k (started s))) : Faultless (begin s k) := refuseIf (refuseIf h)

theorem beginAwait (e : Nat) (r k : Bool) (s : State) : Faultless (beginAwait e r k s) :=
  refuseIf (require (first (by cases k <;> exact ⟨nofun, nofun⟩)))

theorem sectorsQuery : Faultless (beginQuery s returnSectors) := by
  refine refuseIf (refuseIf (refuseIf ?_))
  unfold returnSectors
  split
  · exact next _
  · exact refused _

theorem withArgument {start : Nat} {k : Arg → Out} (h : ∀ a, Faultless (k a)) : Faultless (withArgument start s k) := by
  unfold Machine.withArgument
  split
  · exact refused _
  · split
    · exact refused _
    · exact h _

theorem frameThenPoll (i : Index) (a : Arg) (c : Crc7) (e : Nat) (r k : Bool) :
    Faultless (frameThenPoll i a c e r k s) := begin (first ⟨nofun, nofun⟩)

theorem sendByte (b : Byte) : Faultless (sendByte b s) := begin (first ⟨nofun, nofun⟩)

theorem startOrLineUp {due : Bool} {bs : List Byte} {start : State → State} (h : ∀ u, (start u).movesNoPayload) :
    Faultless (startOrLineUp due bs start s) := ite (begin (first (h _))) (next _)

theorem polledWhenIdle {e : Nat} {bs : List Byte} : Faultless (polledWhenIdle e bs s) := ite (beginAwait ..) (next _)

theorem transferAlone {mismatch : Nat → Prop} [DecidablePred mismatch] {top : Nat → Nat} {start : Nat}
    {enter : Arg → State → State} (h : ∀ a u, (enter a u).movesNoPayload) :
    Faultless (transferAlone mismatch top enter start s) :=
  begin (refuseIf (refuseIf (require (withArgument fun a => first (h a _)))))

theorem bulkOperation {start len : Nat} {o : Op} {single multi : Arg → State → State}
    (h1 : ∀ a u, (single a u).movesNoPayload) (h2 : ∀ a u, (multi a u).movesNoPayload) :
    Faultless (bulkOperation o single multi start len s) :=
  begin (refuseIf (ite (withArgument fun a => ite (first (h1 a _)) (first (h2 a _))) (next _)))

end Faultless

theorem enterWaitToken_movesNoPayload (ks : List Cont) (s : State) : (enterWaitToken ks s).movesNoPayload := by
  unfold enterWaitToken
  split <;> exact ⟨nofun, nofun⟩

theorem enterBusyWait_movesNoPayload (ks : List Cont) (s : State) : (enterBusyWait ks s).movesNoPayload := by
  unfold enterBusyWait
  split <;> exact ⟨nofun, nofun⟩

theorem enterBlockIn_movesNoPayload (n : Nat) (s : State) : (enterBlockIn n s).movesNoPayload := by
  unfold enterBlockIn
  split <;> exact enterWaitToken_movesNoPayload ..

/-- No operation begins with a payload byte; only a row the card sends can meet the fault, where it is an answer to the
exchange in flight. -/
theorem exec_faultless (i : Instr) {s : State}
    (inFlight : ∀ bs, s.phase ≠ .idle → Faultless (tick (present bs s))) : Faultless (exec i s) := by
  have receive {bs : List Byte} {idle : State → Out} (h : Faultless (idle s)) : Faultless (receive bs idle s) :=
    iteInduction (fun _ => h) (inFlight bs)
  cases i
  case readBlocks | writeBlocks =>
    simp only [exec_readBlocks, exec_writeBlocks]
    exact .bulkOperation (fun _ _ => ⟨nofun, nofun⟩) fun _ _ => ⟨nofun, nofun⟩
  case readSingle | readMulti | writeSingle | writeMulti =>
    simp only [exec_readSingle, exec_readMulti, exec_writeSingle, exec_writeMulti]
    exact .transferAlone fun _ _ => ⟨nofun, nofun⟩
  all_goals dsimp only [exec]
  case cmd0 | cmd8 | cmd9 | cmd12 | cmd16 | cmd17 | cmd18 | cmd24 | cmd25 | acmd41 | cmd55 | cmd58 =>
    exact .frameThenPoll ..
  case cfAny | fill | release | clockIdle | readCsd | checkDresp => exact .begin (.first ⟨nofun, nofun⟩)
  case tokenDataStart => exact receive (.ite (.startOrLineUp (enterWaitToken_movesNoPayload _)) (.sendByte _))
  case tokenMultiWrite | tokenStopTran => exact .sendByte _
  case r1 | r1Tail | notStatus => exact receive .polledWhenIdle
  case drespAccepted => exact receive (.startOrLineUp fun _ => ⟨nofun, nofun⟩)
  case busy => exact receive (.startOrLineUp (enterBusyWait_movesNoPayload _))
  case dblkR => exact .require (receive (.startOrLineUp (enterBlockIn_movesNoPayload _)))
  case dblkW => exact .require (.begin (.require (.first ⟨nofun, nofun⟩)))
  case sendCommand | cmd | acmd => exact .require (.begin (.first ⟨nofun, nofun⟩))
  case awaitResponse => exact .beginAwait ..
  case blockCount => exact .sectorsQuery
  case control op =>
    cases op with
    | getSectorCount => exact .sectorsQuery
    | other => exact .refused _
  case blockSize | crc7Gen | classify => exact .next _
  case build => exact .require (.next _)
  case checkBuffer => exact .begin (.ite (.next _) (.next _))
  case waitToken => exact .begin (.require (.first (enterWaitToken_movesNoPayload ..)))
  case recvBlock => exact .require (.begin (.require (.require (.first (enterWaitToken_movesNoPayload ..)))))
  case sendBlock => exact .begin (.require (.require (.first ⟨nofun, nofun⟩)))
  case busyWait => exact .begin (.require (.first (enterBusyWait_movesNoPayload ..)))
  case sendStop => exact .begin (.require (.first ⟨nofun, nofun⟩))

/-- R11: between operations no request is a fault. -/
theorem exec_faultless_idle (i : Instr) {s : State} (idle : s.phase = .idle) : Faultless (exec i s) :=
  exec_faultless i fun _ busy => absurd idle busy

/-- R11: in a state of the invariant no request is a fault, not even an answer to the exchange in flight. -/
theorem State.Inv.exec_faultless {s : State} (hi : s.Inv) (i : Instr) : Faultless (exec i s) :=
  Machine.exec_faultless i fun bs _ => ⟨tick_never_faults ((Prepared.present bs s).inv hi)⟩

/-- R261 to R270: no boot step is a fault; each ends the sequence or issues an operation. -/
theorem bootStep_faultless (b : Boot) {s : State} (idle : s.phase = .idle) : Faultless (bootStep b s) := by
  have issue (b' : Boot) (i : Instr) {u : State} (hu : u.phase = .idle) : Faultless (bootIssue b' i u) :=
    exec_faultless_idle i hu
  cases b with
  | start => exact issue _ _ rfl
  | gen1Announced | gen2OcrRead | gen2Announced => exact issue _ _ idle
  | clocked => exact issue (.idleTried 1) (.cmd 0 0 0 true false) idle
  | gen2Reread => exact issue .csdRead .readCsd (u := { s with cdv := some .sectorAddressed }) idle
  | idleTried | probed | gen1Polled | gen2Polled =>
    exact .ite (issue _ _ idle) (.ite (issue _ _ idle) (.next _))
  | csdRead =>
    show Faultless (bootJudgeCsd s)
    unfold bootJudgeCsd
    split
    · exact .next _
    · dsimp only
      split
      · exact .next _
      · exact issue _ _ idle
  | blockLenSent => exact .ite (.next _) (.next _)

/-- R11: in a state of the invariant no step is a fault. -/
theorem State.Inv.step_faultless {s : State} (hi : s.Inv) : Faultless (step s) := by
  unfold step
  split
  next idle =>
    split
    · exact .next s
    · exact exec_faultless_idle _ idle
    · split
      · exact exec_faultless_idle _ idle
      · exact .refused _
    · exact .next _
    · exact bootStep_faultless _ idle
  next => exact ⟨tick_never_faults hi⟩

end Sys2Proof.Machine

/-! ### Unmet preconditions, wrong block counts and short buffers (R171 to R174, R190 to R196, R50) -/

namespace Sys2Proof.Machine

section
variable {s : State} (idle : s.accepting) (ready : s.ready = true) {mismatch : Nat → Prop} [DecidablePred mismatch]
  {top : Nat → Nat} {enter : Arg → State → State} {start : Nat}
include idle ready

theorem transferAlone_mismatch (h : mismatch s.blkN) :
    transferAlone mismatch top enter start s = .refused .blockCountMismatch := by
  simp [transferAlone, begin_accepting idle, ready, h]

theorem transferAlone_short (hm : ¬ mismatch s.blkN) (short : s.bufLen < top s.blkN) :
    transferAlone mismatch top enter start s = .refused .bufferTooShort := by
  simp [transferAlone, begin_accepting idle, ready, hm, withBuffer, short]

end

section
variable {s : State} (accepts : s.accepting)
include accepts

/-- R190: SEND_BLOCK starts after an acknowledged write command only, on a buffer that has the offsets. -/
theorem exec_sendBlock (token : DataToken) (off : Nat) :
    exec (.sendBlock token off) s =
      if writeAcknowledged s then
        withBuffer (off + 512) s (tick (enterSendBlock token off [.finish .done] (started s)))
      else .refused .preconditionUnmet := by
  show execSendBlock token off s = _
  rw [execSendBlock, begin_accepting accepts]
  rfl

/-- R87, R190: DBLK-W without an acknowledged write command. -/
theorem exec_dblkW_unmet (notWrite : writeAcknowledged s = false) (token : DataToken) {payload : List Byte}
    (len : payload.length = 512) : exec (.dblkW token payload) s = .refused .preconditionUnmet := by
  show execDblkW token payload s = _
  rw [execDblkW, if_pos (by exact len), begin_accepting accepts]
  exact if_neg (Bool.eq_false_iff.1 notWrite)

/-- R192: BUSY_WAIT with CS = 0. -/
theorem exec_busyWait_unmet (cs : s.cs = false) : exec .busyWait s = .refused .preconditionUnmet := by
  show execBusyWait s = _
  rw [execBusyWait, begin_accepting accepts]
  exact if_neg (Bool.eq_false_iff.1 cs)

/-- R196, log 14: SEND_STOP with CS = 0. -/
theorem exec_sendStop_unmet (cs : s.cs = false) : exec .sendStop s = .refused .preconditionUnmet := by
  show execSendStop s = _
  rw [execSendStop, begin_accepting accepts]
  exact if_neg (Bool.eq_false_iff.1 cs)

end

/-- R50, log 8: a payload byte to be received at an offset its destination does not have. -/
theorem tick_recv_beyond {s : State} {d : Dest} {off n : Nat} (hp : s.phase = .recv d off n)
    (beyond : d.len s.bufLen ≤ off + s.byteIdx) : tick s = .fault (.hostBufferOutOfRange (off + s.byteIdx)) := by
  simp [tick, hp, Nat.not_lt.2 beyond]

/-- R50, log 8: a payload byte to be sent from an offset the host buffer does not have. -/
theorem tick_send_beyond {s : State} {off : Nat} (hp : s.phase = .send off) (beyond : s.bufLen ≤ off + s.byteIdx) :
    tick s = .fault (.hostBufferOutOfRange (off + s.byteIdx)) := by
  simp [tick, hp, Nat.not_lt.2 beyond]

/-- Settles O18: the tests that follow acceptance, one after the other; what begins with no payload byte is no fault,
and the invariant bounds the offsets of those in flight. -/
theorem unmetPreconditionsAndMissingBufferBytesStop : Obligations.UnmetPreconditionsAndMissingBufferBytesStop := by
  refine ⟨fun s idle unmet => ⟨?_, fun off n len => ?_⟩,
    fun s idle unmet => ⟨fun token off => ?_, fun token payload => exec_dblkW_unmet idle unmet token⟩,
    fun s idle cs => ⟨exec_busyWait_unmet idle cs, exec_sendStop_unmet idle cs⟩,
    fun s start idle ready => ⟨fun count => ?_, fun count => ?_⟩,
    fun s off n idle acked len short => ?_, fun s token off idle acked short => ?_,
    fun s start idle ready => ⟨fun one short => ?_, fun many short => ?_⟩,
    fun s f hi => ⟨hi.step_faultless.ne_fault f, fun i => (hi.exec_faultless i).ne_fault f⟩, fun s off beyond => ?_⟩
  · rw [exec_waitToken idle, if_neg (Bool.eq_false_iff.1 unmet)]
  · rw [exec_recvBlock idle off len, if_neg (Bool.eq_false_iff.1 unmet)]
  · rw [exec_sendBlock idle, if_neg (Bool.eq_false_iff.1 unmet)]
  · rw [exec_readSingle, exec_writeSingle]
    exact ⟨transferAlone_mismatch idle ready count, transferAlone_mismatch idle ready count⟩
  · rw [exec_readMulti, exec_writeMulti]
    exact ⟨transferAlone_mismatch idle ready count, transferAlone_mismatch idle ready count⟩
  · rw [exec_recvBlock idle off len, if_pos acked, withBuffer_short short]
  · rw [exec_sendBlock idle, if_pos acked, withBuffer_short short]
  · rw [exec_readSingle, exec_writeSingle]
    exact ⟨transferAlone_short idle ready (not_not.2 one) short, transferAlone_short idle ready (not_not.2 one) short⟩
  · rw [exec_readMulti, exec_writeMulti]
    exact ⟨transferAlone_short idle ready (Nat.not_lt.2 many) short,
      transferAlone_short idle ready (Nat.not_lt.2 many) short⟩
  · rcases beyond with ⟨beyond, ⟨n, hp⟩ | hp⟩ | ⟨beyond, n, hp⟩
    · exact tick_recv_beyond hp beyond
    · exact tick_send_beyond hp beyond
    · exact tick_recv_beyond hp beyond

end Sys2Proof.Machine

/-! ### The data response, the busy-wait's budget, and the writing micro-operations (R190 to R192, R196, R236) -/

namespace Sys2Proof.Machine

/-- R191: CHECK_DRESP is one exchange and its test, without a precondition. -/
theorem exec_checkDresp {s : State} (accepts : s.accepting) :
    exec .checkDresp s = tick { started s with phase := .dresp, stack := [.finish .done] } := by
  show execCheckDresp s = _
  rw [execCheckDresp, begin_accepting accepts, started_eq]

/-- R191, R236: a rejected data response ends its operation, whatever else that had to do. -/
theorem dresp_rejected_ends {s : State} (waits : s.phase = .dresp)
    (rejected : drespAccepts s.cfg s.bus.answer = false) :
    Reaches s
      { s with
        phase := .idle, stack := [], op := .none, bufLen := if s.op = .none then s.bufLen else 0
        err := some (.ioError (.dataRejected s.bus.answer))
        result := .error (.ioError (.dataRejected s.bus.answer)), dresp := s.bus.answer, cs := false
        bus := (s.bus.xchg Config.fill).release } :=
  run_dresp_rejected waits rejected

/-- Settles O43: the exchange that passes the test; the one that fails it, of CHECK_DRESP as of any other operation. -/
theorem checkDrespAcceptsOrAbandons : Obligations.CheckDrespAcceptsOrAbandons := by
  refine ⟨fun s accepts accepted => ?_, fun s accepts rejected => ?_, fun s => dresp_rejected_ends,
    fun p b => beq_iff_eq⟩
  · rw [exec_checkDresp accepts]
    exact tick_finish (v := .done) (tick_dresp_accepted rfl accepted) accepts.noBulk
      (by simp [accepts.idle, Ret.result, Config.fill])
  · rw [exec_checkDresp accepts]
    refine issue_idle nofun accepts.idle ?_
    have run := dresp_rejected_ends (s := { started s with phase := .dresp, stack := [.finish .done] }) rfl rejected
    simpa [accepts.idle, accepts.noBulk, Config.fill] using run

/-- R192, R242: a wait that runs out of its budget ends its operation, whatever else that had to do. -/
theorem busy_wait_times_out {s : State} {n : Nat} (waits : s.phase = .busy)
    (left : s.cfg.busyBudget = some (s.busyCnt + (n + 1)))
    (busy : Bus.answers (fills (n + 1)) s.bus = List.replicate (n + 1) 0) :
    Reaches s
      { s with
        phase := .idle, stack := [], op := .none, bufLen := if s.op = .none then s.bufLen else 0, cs := false
        err := some (.ioTimeout .writeCompletion), result := .error (.ioTimeout .writeCompletion)
        busyCnt := s.busyCnt + (n + 1), bus := (Bus.send (fills (n + 1)) s.bus).release } :=
  run_busy_timeout waits n left busy

theorem ticks_succ {s t : State} (one : tick s = .next t) (k : Nat) : ticks (k + 1) s = ticks k t := by
  rw [ticks, one]

/-- R192, R277: without a budget k polls answered busy are k ticks that leave the wait in flight. -/
theorem ticks_busy_unbounded {s : State} {k : Nat} (waits : s.phase = .busy) (unbounded : s.cfg.busyBudget = none)
    (busy : Bus.answers (fills k) s.bus = List.replicate k 0) :
    ticks k s = .next { s with busyCnt := s.busyCnt + k, bus := Bus.send (fills k) s.bus } := by
  induction k generalizing s with
  | zero => rfl
  | succ k ih =>
    obtain ⟨zero, busy⟩ : s.bus.answer = 0 ∧
        Bus.answers (fills k) (s.bus.xchg Config.fill) = List.replicate k 0 := by
      simpa [Bus.answers, List.replicate_succ] using busy
    have within : busyWithin s.cfg (s.busyCnt + 1) := fun m budget => by simp [unbounded] at budget
    have rest := ih (s := { s with busyCnt := s.busyCnt + 1, bus := s.bus.xchg Config.fill }) waits unbounded busy
    rw [ticks_succ (tick_busy_more waits zero within), rest]
    simp [Nat.add_assoc, Nat.add_comm 1]

/-- Settles O45: the run through a finite budget, from its first poll as from any other; without one, each poll's tick. -/
theorem busyWaitIsBoundedOnlyByItsBudget : Obligations.BusyWaitIsBoundedOnlyByItsBudget := by
  refine ⟨fun s n accepts cs _ budget busy => ?_, fun s n => busy_wait_times_out, fun s k => ticks_busy_unbounded⟩
  rw [exec_busyWait accepts cs]
  have run := run_busyWait_timeout [.finish .done] (started s) budget busy
  refine issue_ends (enterBusyWait_in_flight _ _) run ?_ accepts.idle
  simp [raise, endOperation, accepts.idle, accepts.noBulk]

/-- Settles O46: the block's run, from its token to the end of its busy-wait. -/
theorem sendBlockSendsTheBuffer : Obligations.SendBlockSendsTheBuffer := by
  intro s token off x accepts acked room payload taken
  rw [exec_sendBlock accepts, if_pos acked, withBuffer_fits room]
  exact issue_finish nofun (run_sendBlock token off [.finish .done] (started s) room taken) accepts.noBulk
    (by simp [accepts.idle, Ret.result, payload, Config.blockSize])

/-- R196: SEND_STOP with CS = 1 sends its token. -/
theorem exec_sendStop {s : State} (accepts : s.accepting) (cs : s.cs = true) :
    exec .sendStop s = tick (ret [.sendStop, .finish .done] (started s)) := by
  show execSendStop s = _
  rw [execSendStop, begin_accepting accepts]
  exact if_pos cs

/-- R196: the stop-transmission token, and the wait entered in the same step. -/
theorem tick_sendStop (ks : List Cont) (s : State) :
    tick (ret (.sendStop :: ks) s) = .next (enterBusyWait ks { s with bus := s.bus.xchg s.cfg.tokenStopTran }) := by
  rw [ret, tick_tx rfl]
  exact congrArg _ (ret_at (.busyWait :: ks) { s with bus := s.bus.xchg s.cfg.tokenStopTran } _ _)

/-- R196: the state after the stop-transmission token, n busy polls and the one that ends the wait. -/
def stopTokenSent (n : Nat) (s : State) : State :=
  { s with busyCnt := n + 1, bus := Bus.send (fills (n + 1)) (s.bus.xchg s.cfg.tokenStopTran) }

/-- R196 whole. -/
theorem run_sendStop (ks : List Cont) {s : State} {n : Nat} {last : Byte}
    (answered : BusyAnswered s.cfg n last (s.bus.xchg s.cfg.tokenStopTran)) :
    Reaches (ret (.sendStop :: ks) s) (ret ks (stopTokenSent n s)) :=
  Reaches.tick nofun (tick_sendStop ks s) (run_busyWait ks _ answered)

/-- Settles O47: the token's exchange enters the wait, and the wait runs to its end. -/
theorem sendStopSendsTheTokenAndWaits : Obligations.SendStopSendsTheTokenAndWaits := by
  intro s accepts cs
  rw [exec_sendStop accepts cs]
  refine ⟨fun budget => ?_, fun n last answered => ?_⟩
  · have unspent : busyBudgetSpent s.cfg 0 = false :=
      busyBudget_left fun m hm => by simpa [hm] using budget
    rw [tick_sendStop, enterBusyWait, if_neg (by simp [unspent])]
    rfl
  · exact issue_finish nofun (run_sendStop [.finish .done] (s := started s) answered) accepts.noBulk
      (by simp [stopTokenSent, accepts.idle, Ret.result])

end Sys2Proof.Machine

/-! ### Writing one block, and many (R193 to R195) -/

namespace Sys2Proof.Machine

/-- R193: the state after CMD24 with argument a, its status 0 behind `junk`, the buffer's first block taken as x, and
the release. -/
def blockWritten (a : Arg) (junk : List Byte) (x : Taken) (s : State) : State :=
  released
    { commandPolled 24 a (.status 0) (junk.length + 1) s with
      byteIdx := Config.blockSize, dresp := x.dresp, busyCnt := x.busy + 1
      bus := (commandPolled 24 a (.status 0) (junk.length + 1) s).bus.sendBlock s.cfg.tokenDataStart
        (Memory.readList s.buf 0 Config.blockSize) x }

/-- R194 steps 1 to 4: the state after CMD25 with argument a, its status 0 behind `junk`, and the buffer's BLK_N blocks
taken as xs. -/
def blocksTaken (a : Arg) (junk : List Byte) (xs : List Taken) (s : State) : State :=
  { commandPolled 25 a (.status 0) (junk.length + 1) s with
    blkIdx := s.blkN, byteIdx := Config.blockSize, dresp := xs.foldl (fun _ x => x.dresp) s.dresp
    busyCnt := xs.foldl (fun _ x => x.busy + 1) s.busyCnt
    bus := (commandPolled 25 a (.status 0) (junk.length + 1) s).bus.sendBlocks s.cfg s.buf 0 xs }

section
variable {s : State} {a : Arg} {junk : List Byte}

/-- R193: WRITE_SINGLE with every exchange answered runs to success. -/
theorem run_writeSingle {x : Taken} (room : Config.blockSize ≤ s.bufLen)
    (acked : StatusAnswered false [] junk 0 (s.bus.command 24 a (crcFor s.cfg 24 a)))
    (taken : BlockAccepted s.cfg x.dresp x.busy x.last
      (Bus.send (blockOut s.cfg.tokenDataStart (Memory.readList s.buf 0 Config.blockSize))
        (commandPolled 24 a (.status 0) (junk.length + 1) s).bus)) :
    Reaches (enterWriteSingle a s) (finish .success (blockWritten a junk x s)) := by
  have command := run_command [.status .command, .sendBlock .dataStart 0, .release, .finish .success] (.status acked)
  rw [ret_status_ok rfl, ret] at command
  have block := run_sendBlock .dataStart 0 [.release, .finish .success]
    (commandPolled 24 a (.status 0) (junk.length + 1) s) (x := x) (by rw [Nat.zero_add]; exact room) taken
  exact command.trans (block.trans (run_release _ _))

/-- R194: WRITE_MULTI with every exchange answered runs to success. -/
theorem run_writeMulti {xs : List Taken} {n : Nat} {last : Byte} (some_blocks : xs ≠ []) (count : xs.length = s.blkN)
    (room : Config.blockSize * s.blkN ≤ s.bufLen)
    (acked : StatusAnswered false [] junk 0 (s.bus.command 25 a (crcFor s.cfg 25 a)))
    (taken : BlocksAccepted s.cfg s.buf 0 xs (commandPolled 25 a (.status 0) (junk.length + 1) s).bus)
    (ended : BusyAnswered s.cfg n last ((blocksTaken a junk xs s).bus.xchg s.cfg.tokenStopTran)) :
    Reaches (enterWriteMulti a s) (finish .success (released (stopTokenSent n (blocksTaken a junk xs s)))) := by
  have command := run_command [.status .command, .writeFrom 0, .sendStop, .release, .finish .success] (.status acked)
  rw [ret_status_ok rfl] at command
  have blocks := run_writeFrom [.sendStop, .release, .finish .success] xs 0
    (commandPolled 25 a (.status 0) (junk.length + 1) s) ((Nat.zero_add _).trans count) room taken
  rw [foldl_set_of_ne_nil some_blocks] at blocks
  exact command.trans (blocks.trans ((run_sendStop _ ended).trans (run_release _ _)))

end

/-- R193, R194: a transfer case issued alone, with its BLK_N and a buffer that has the offsets, starts. -/
theorem transferAlone_starts {s : State} {start : Nat} {m : Cdv} {mismatch : Nat → Prop} [DecidablePred mismatch]
    {top : Nat → Nat} {enter : Arg → State → State} (accepts : s.accepting) (ready : s.ready = true)
    (cdv : s.cdv = some m) (fits : start * m.toNat < 2 ^ 32) (count : ¬ mismatch s.blkN)
    (room : top s.blkN ≤ s.bufLen) :
    transferAlone mismatch top enter start s = tick (enter (BitVec.ofNat 32 (start * m.toNat)) (started s)) := by
  rw [transferAlone_accepted accepts ready count room, withArgument_fits (s := started s) cdv fits]

/-- Settles O48: CMD24 and the block in one run, from either operation's start. -/
theorem writeOfOneBlockSucceeds : Obligations.WriteOfOneBlockSucceeds := by
  intro s start m junk x accepts ready cdv fits a c sent acked payload ok taken done
  refine ⟨fun one room => ?_, ?_⟩
  · have run := run_writeSingle (s := started s) room ok taken
    rw [exec_writeSingle, transferAlone_starts accepts ready cdv fits (not_not.2 one) room]
    refine issue_ends nofun run ?_ accepts.idle
    simp only [done, blockWritten, released, commandPolled, started_eq, finish, endOperation, one, accepts.noBulk,
      accepts.idle, accepts.notDue]
    rfl
  · have run := run_writeSingle (s := bulkBegun .write 512 s) le_rfl ok taken
    rw [exec_writeBlocks, bulkOperation_starts accepts ready cdv fits (by decide), if_pos rfl]
    refine issue_ends nofun run ?_ accepts.idle
    simp only [done, blockWritten, released, commandPolled, bulkBegun, started_eq, finish, endOperation,
      accepts.noBulk, accepts.idle, accepts.notDue]
    rfl

/-- Settles O49: CMD25, the blocks and the stop-transmission token in one run, from either operation's start. -/
theorem writeOfManyBlocksSucceeds : Obligations.WriteOfManyBlocksSucceeds := by
  intro s start m junk xs n last accepts ready cdv fits many a c sent acked stopped ok taken ended done
  have some_blocks : xs ≠ [] := List.ne_nil_of_length_pos (by omega)
  refine ⟨fun count room => ?_, ?_⟩
  · have room : Config.blockSize * s.blkN ≤ s.bufLen := count ▸ room
    have run := run_writeMulti (s := started s) some_blocks count.symm room ok taken ended
    rw [exec_writeMulti, transferAlone_starts accepts ready cdv fits (by omega) room]
    refine issue_ends nofun run ?_ accepts.idle
    simp only [done, stopTokenSent, blocksTaken, released, commandPolled, started_eq, finish, endOperation, count,
      accepts.noBulk, accepts.idle, accepts.notDue]
    rfl
  · have count : 512 * xs.length / Config.blockSize = xs.length := Nat.mul_div_cancel_left _ (by decide)
    have run := run_writeMulti (s := bulkBegun .write (512 * xs.length) s) some_blocks count.symm
      (by exact Nat.mul_div_le _ _) ok taken ended
    rw [exec_writeBlocks, bulkOperation_starts accepts ready cdv fits (by omega), if_neg (by omega)]
    refine issue_ends nofun run ?_ accepts.idle
    simp only [done, stopTokenSent, blocksTaken, released, commandPolled, bulkBegun, started_eq, finish, endOperation,
      count, accepts.noBulk, accepts.idle, accepts.notDue]
    rfl

end Sys2Proof.Machine

/-! ### The Device Facade's queries (R215 to R217) -/

namespace Sys2Proof.Machine

section
variable {s : State}

theorem exec_blockCount : exec .blockCount s = beginQuery s returnSectors := rfl

theorem exec_getSectorCount : exec (.control .getSectorCount) s = beginQuery s returnSectors := rfl

theorem exec_blockSize : exec .blockSize s = .next { s with result := .count 512 } := rfl

/-- R24, R28: these three tests are all that a facade query is accepted by; unlike `State.accepting` they ask nothing of the
bulk operation. -/
theorem beginQuery_passed {k : State → Out} (idle : s.phase = .idle) (notDue : s.pending = false)
    (ready : s.ready = true) : beginQuery s k = k s := by
  simp [beginQuery, idle, notDue, ready]

theorem returnSectors_set {n : Nat} (set : s.sectors = some n) :
    returnSectors s = .next { s with result := .count n } := by
  simp [returnSectors, set]

theorem sectors_pos_of_sessionSet {n : Nat} (h : s.sessionSet = true) (set : s.sectors = some n) : 0 < n := by
  unfold State.sessionSet at h
  split at h
  next sectors =>
    cases set.symm.trans sectors
    exact of_decide_eq_true (Bool.and_eq_true_iff.1 h).2
  next => contradiction

end

/-- Settles O50: both queries are one `beginQuery`, and READY = 1 means that the count was checked at construction. -/
theorem facadeQueriesReturnTheSectorCount : Obligations.FacadeQueriesReturnTheSectorCount := by
  intro s n idle notDue ready set
  have answer : beginQuery s returnSectors = .next { s with result := .count n } :=
    (beginQuery_passed idle notDue ready).trans (returnSectors_set set)
  exact ⟨exec_blockCount.trans answer, exec_getSectorCount.trans answer,
    fun hi => sectors_pos_of_sessionSet (hi.ready ready) set⟩

/-- Settles O51: BLOCK_SIZE tests nothing before it answers. -/
theorem blockSizeIsAlwaysFiveTwelve : Obligations.BlockSizeIsAlwaysFiveTwelve := fun _ => exec_blockSize

end Sys2Proof.Machine

/-! ### BUS_IDLE at every exit of a bulk operation (R240) -/

namespace Sys2Proof.Machine

/-- R240, R24, R65: with BUS_IDLE the block accepts an operation. -/
theorem State.busIdle.accepting {s : State} (h : s.busIdle) : s.accepting := by
  obtain ⟨-, notDue, noBulk, idle, -⟩ := h
  exact ⟨idle, notDue, noBulk⟩

/-- R120: a filler exchange right behind a deassertion is the release. -/
theorem Bus.released_xchg {b : Bus} (raised : b.hist.head? = some .deassert) : (b.xchg Config.fill).released = true := by
  obtain ⟨tail, hist⟩ := List.head?_eq_some_iff.1 raised
  simp [Bus.released, hist]

/-- Return points that leave the bus released although it is not released now do so from a released bus too. -/
theorem closes_mono {ks : List Cont} (h : closes ks false = true) (rel : Bool) : closes ks rel = true := by
  induction ks with
  | nil => exact h
  | cons k ks ih =>
    cases k with
    | releaseIf r =>
      cases r with
      | true => exact h
      | false => exact ih h
    | status check =>
      obtain ⟨notStop, rest⟩ := Bool.and_eq_true_iff.1 h
      rw [Bool.or_false] at notStop
      exact Bool.and_eq_true_iff.2 ⟨by rw [notStop, Bool.true_or], ih rest⟩
    | fill w n =>
      cases hn : n == 0 <;> simp only [closes, hn, Bool.false_and, Bool.true_and] at h ⊢
      · exact h
      · exact ih h
    | finish | raise => exact absurd h Bool.false_ne_true
    | _ => exact h

/-- R240: in flight towards exits that all leave the bus released, or at such an exit. -/
def State.closing (s : State) : Prop := s.flow = true ∨ s.busIdle

theorem State.closing.busIdle {s : State} (h : s.closing) (idle : s.phase = .idle) : s.busIdle := by
  refine h.resolve_left fun flow => ?_
  simp [State.flow, idle] at flow

/-! Entering a micro-operation. -/

section
variable {s : State} (notDue : s.pending = false)
include notDue

theorem enterRelease_flow {ks : List Cont} (closed : closes ks true = true) : (enterRelease ks s).flow = true := by
  simp [State.flow, notDue, closed]

/-- R241: an error exit releases the bus before the error is raised. -/
theorem fail_flow (e : BlockError) : (fail e s).flow = true := enterRelease_flow notDue rfl

/-- R125: behind the frame the command's own poll, which releases the bus if r says so. -/
theorem enterCmd_flow {i : Index} {a : Arg} {e : Nat} {r k : Bool} {ks : List Cont} (closed : closes ks r = true) :
    (enterCmd i a e r k ks s).flow = true := by
  simp [State.flow, notDue, awaitsFirst, closes, closed]

theorem enterWaitToken_flow {ks : List Cont} (closed : closes ks false = true) :
    (enterWaitToken ks s).flow = true := by
  unfold enterWaitToken
  split
  · exact fail_flow (s := { s with tokenCnt := 0 }) notDue _
  · simp [State.flow, notDue, closed]

theorem enterBusyWait_flow {ks : List Cont} (closed : closes ks false = true) : (enterBusyWait ks s).flow = true := by
  unfold enterBusyWait
  split
  · exact fail_flow (s := { s with busyCnt := 0 }) notDue _
  · simp [State.flow, notDue, closed]

end

theorem enterAwait_flow {e : Nat} {r k : Bool} {ks : List Cont} (s : State) (closed : closes ks r = true) :
    (enterAwait e r k ks s).flow = true := by
  cases k <;> simp [State.flow, closed]

/-- R174 step 6: the stop command's check alone raises its error without a release, its poll having made it. -/
theorem statusFailure_closing {check : StatusCheck} {rel : Bool} {s : State} (notDue : s.pending = false)
    (released : rel = true → s.cs = false ∧ s.bus.released = true) (closed : (check != .stop || rel) = true) :
    (statusFailure check s).closing := by
  cases check with
  | command | csd => exact .inl (fail_flow notDue _)
  | stop =>
    obtain ⟨cs, bus⟩ := released closed
    exact .inr ⟨cs, notDue, rfl, rfl, bus⟩

/-- A return to points that leave the bus released goes on towards them, or has come to the exit. -/
theorem ret_closing {ks : List Cont} {rel : Bool} {s : State} (notDue : s.pending = false)
    (released : rel = true → s.cs = false ∧ s.bus.released = true) (closed : closes ks rel = true) :
    (ret ks s).closing := by
  induction ks generalizing s rel with
  | nil => exact absurd closed Bool.false_ne_true
  | cons k ks ih =>
    cases k with
    | await => exact .inl (enterAwait_flow s closed)
    | releaseIf r =>
      cases r with
      | true => exact .inl (enterRelease_flow notDue closed)
      | false => exact ih notDue released closed
    | release => exact .inl (enterRelease_flow notDue closed)
    | status check =>
      obtain ⟨check_closed, rest⟩ := Bool.and_eq_true_iff.1 closed
      rw [ret]
      split
      · exact ih notDue released rest
      · exact statusFailure_closing notDue released check_closed
    | recvBlock => exact .inl (enterWaitToken_flow notDue closed)
    | readFrom k =>
      rw [ret]
      split
      · exact .inl (enterWaitToken_flow (s := { s with blkIdx := k }) notDue closed)
      · exact ih (rel := false) (s := { s with blkIdx := k }) notDue nofun closed
    | writeFrom k =>
      rw [ret]
      split
      · exact .inl (by simpa [State.flow, notDue, closes] using closed)
      · exact ih (rel := false) (s := { s with blkIdx := k }) notDue nofun closed
    | fill w n =>
      rw [ret]
      split
      · rename_i none_left
        rw [closes, none_left] at closed
        exact ih notDue released closed
      · rename_i some_left
        rw [closes, beq_false_of_ne some_left, Bool.false_and] at closed
        exact .inl (by simpa [State.flow, notDue] using closes_mono closed _)
    | busyWait => exact .inl (enterBusyWait_flow notDue closed)
    | finish | raise =>
      obtain ⟨cs, bus⟩ := released closed
      exact .inr ⟨cs, notDue, rfl, rfl, bus⟩
    | cmd => exact .inl (enterCmd_flow notDue closed)
    | payload | sendBlock | sendPayload | checkDresp | sendStop =>
      exact .inl (by simpa [ret, State.flow, notDue, closes] using closed)

/-- The same where the return points need nothing of the bus as it is now. -/
theorem ret_closing_unreleased {ks : List Cont} {s : State} (notDue : s.pending = false)
    (closed : closes ks false = true) : (ret ks s).closing := ret_closing (rel := false) notDue nofun closed

theorem State.flow_notDue {s : State} (flow : s.flow = true) : s.pending = false := by
  simpa using (Bool.and_eq_true_iff.1 flow).1

/-- What a phase other than a run of fillers leads to does not hang on the bus. -/
theorem State.flow_withBus {s : State} (flow : s.flow = true) (notFilling : ∀ w n, s.phase ≠ .fill w n) (b : Bus) :
    State.flow { s with bus := b } = true := by
  cases hp : s.phase with
  | fill w n => exact absurd hp (notFilling w n)
  | idle => simp [State.flow, hp] at flow
  | _ => simpa [State.flow, hp] using flow

/-! After an exchange: the next one of the same kind, a return, or a failure. -/

/-- R123: behind the frame stands its response poll, so that PENDING is 1 at no exit. -/
theorem afterFrameByte_closing {s : State} {k : Nat} (notDue : s.pending = false)
    (polled : awaitsFirst s.stack = true) (closed : closes s.stack false = true) : (afterFrameByte k s).closing := by
  by_cases more : k + 1 < Config.frameLen
  · rw [afterFrameByte_more more]
    exact .inl (by simp [State.flow, notDue, polled, closed])
  · rw [afterFrameByte_last more]
    unfold awaitsFirst at polled
    split at polled
    · rename_i stack
      rw [stack] at closed ⊢
      exact .inl (enterAwait_flow _ closed)
    · contradiction

theorem afterPoll_closing {s : State} {e : Nat} {r : Bool} {b : Byte} (flow : s.flow = true)
    (closed : closes s.stack r = true) : (afterPoll e r b s).closing := by
  have notDue := State.flow_notDue flow
  have releases : closes (.releaseIf r :: s.stack) false = true := by rwa [closes, Bool.or_false]
  unfold afterPoll
  dsimp only
  split_ifs
  · exact ret_closing_unreleased notDue (by rwa [closes, Bool.and_false])
  · exact ret_closing_unreleased notDue releases
  · exact .inl flow

section
variable {s : State} {b : Byte} {n : Nat} (flow : s.flow = true) (closed : closes s.stack false = true)
include flow closed

theorem afterToken_closing : (afterToken b s).closing := by
  have notDue := State.flow_notDue flow
  unfold afterToken
  dsimp only
  split_ifs
  · exact ret_closing_unreleased notDue closed
  · exact .inl (fail_flow notDue _)
  · exact .inl flow

theorem afterRecv_closing : (afterRecv n s).closing := by
  unfold afterRecv
  dsimp only
  split
  · exact .inl flow
  · exact ret_closing_unreleased (State.flow_notDue flow) closed

theorem afterSend_closing : (afterSend s).closing := by
  unfold afterSend
  dsimp only
  split
  · exact .inl flow
  · exact ret_closing_unreleased (State.flow_notDue flow) closed

theorem afterDresp_closing : (afterDresp b s).closing := by
  have notDue := State.flow_notDue flow
  unfold afterDresp
  dsimp only
  split
  · exact ret_closing_unreleased notDue closed
  · exact .inl (fail_flow notDue _)

theorem afterBusy_closing : (afterBusy b s).closing := by
  have notDue := State.flow_notDue flow
  unfold afterBusy
  dsimp only
  split_ifs
  · exact ret_closing_unreleased notDue closed
  · exact .inl (fail_flow notDue _)
  · exact .inl flow

end

/-- Whatever the card answers, a tick of an operation in flight keeps to exits that leave the bus released. -/
theorem tick_closing {s t : State} (flow : s.flow = true) (h : tick s = .next t) : t.closing := by
  have notDue := State.flow_notDue flow
  have closed := (Bool.and_eq_true_iff.1 flow).2
  cases hp : s.phase <;> simp only [hp] at closed
  case idle => contradiction
  case assert =>
    rw [tick_assert hp] at h
    cases h
    exact .inl (by simpa [State.flow, notDue] using closed)
  case frame =>
    obtain ⟨polled, closed⟩ := Bool.and_eq_true_iff.1 closed
    rw [tick_frame hp] at h
    cases h
    exact afterFrameByte_closing notDue polled closed
  case skipLead =>
    rw [tick_skipLead hp] at h
    cases h
    exact .inl (by simpa [State.flow, notDue] using closed)
  case poll =>
    rw [tick_poll hp] at h
    cases h
    exact afterPoll_closing (State.flow_withBus flow (by simp [hp]) _) closed
  case deassert w n =>
    rw [tick_deassert hp, ret] at h
    cases h
    split
    · rename_i none_left
      rw [none_left] at closed
      exact ret_closing_unreleased notDue closed
    · exact .inl (by simpa [State.flow, notDue] using closed)
  case fill w n =>
    by_cases last : n = 1 ∧ s.cs = false ∧ s.bus.hist.head? = some .deassert
    · obtain ⟨rfl, cs, raised⟩ := last
      rw [tick_fill_last hp] at h
      cases h
      exact ret_closing (rel := true) notDue (fun _ => ⟨cs, Bus.released_xchg raised⟩)
        (by simpa [cs, raised] using closed)
    · have notLast : (n == 1 && !s.cs && s.bus.hist.head? == some .deassert) = false := by
        simpa [and_assoc] using last
      rw [notLast] at closed
      rw [tick_fill hp] at h
      cases h
      exact ret_closing_unreleased notDue (by rwa [closes, Bool.and_false])
  case tx =>
    rw [tick_tx hp] at h
    cases h
    exact ret_closing_unreleased notDue closed
  case token =>
    rw [tick_token hp] at h
    cases h
    exact afterToken_closing (State.flow_withBus flow (by simp [hp]) _) closed
  case recv =>
    rw [tick_recv hp (tick_recv_fits hp h)] at h
    cases h
    exact afterRecv_closing (State.flow_withBus flow (by simp [hp]) _) closed
  case send =>
    rw [tick_send hp (tick_send_fits hp h)] at h
    cases h
    exact afterSend_closing (State.flow_withBus flow (by simp [hp]) _) closed
  case dresp =>
    rw [tick_dresp hp] at h
    cases h
    exact afterDresp_closing (State.flow_withBus flow (by simp [hp]) _) closed
  case busy =>
    rw [tick_busy hp] at h
    cases h
    exact afterBusy_closing (State.flow_withBus flow (by simp [hp]) _) closed

/-- Between operations a tick changes nothing. -/
theorem tick_idle {s : State} (idle : s.phase = .idle) : tick s = .next s := by simp only [tick, idle]

/-- A property that every tick keeps holds after any number of ticks. -/
theorem ticks_induction {P : State → Prop} (keeps : ∀ s t, P s → tick s = .next t → P t) (k : Nat) {s t : State}
    (start : P s) (h : ticks k s = .next t) : P t := by
  induction k generalizing s with
  | zero => cases h; exact start
  | succ k ih =>
    rw [ticks] at h
    split at h
    · exact ih (keeps _ _ start (by assumption)) h
    · cases h
    · cases h

theorem ticks_closing {k : Nat} {s t : State} (start : s.closing) (h : ticks k s = .next t) : t.closing := by
  refine ticks_induction (fun s t closing one => ?_) k start h
  rcases closing with flow | rest
  · exact tick_closing flow one
  · cases one.symm.trans (tick_idle rest.accepting.idle)
    exact .inr rest

/-- R240: a bulk operation whose two cases have only exits that leave the bus released starts towards them; turned away for
its length it leaves the bus as it was. -/
theorem bulkOperation_closing {o : Op} {single multi : Arg → State → State} {start len : Nat} {s : State}
    (idle : s.busIdle) (h1 : ∀ a (u : State), u.pending = false → (single a u).flow = true)
    (h2 : ∀ a (u : State), u.pending = false → (multi a u).flow = true) :
    NextSat State.closing (bulkOperation o single multi start len s) := by
  obtain ⟨cs, notDue, -, -, released⟩ := idle
  refine .begin fun _ _ => .refuseIf fun _ => .ite (fun _ => .withArgument fun _ a _ _ => .ite (fun _ => ?_) fun _ => ?_)
    fun _ => .next (.inr ⟨cs, notDue, rfl, rfl, released⟩)
  · exact ⟨fun _ => tick_closing (h1 a _ notDue)⟩
  · exact ⟨fun _ => tick_closing (h2 a _ notDue)⟩

/-- R175, R195: the four commands of the two bulk operations, each case with exits behind a release alone. -/
theorem bulk_closing {s : State} (idle : s.busIdle) {start len : Nat} {i : Instr}
    (bulk : i = .readBlocks start len ∨ i = .writeBlocks start len) : NextSat State.closing (exec i s) := by
  rcases bulk with rfl | rfl
  · rw [exec_readBlocks]
    exact bulkOperation_closing idle (fun _ _ notDue => enterCmd_flow notDue rfl) fun _ _ notDue => enterCmd_flow notDue rfl
  · rw [exec_writeBlocks]
    exact bulkOperation_closing idle (fun _ _ notDue => enterCmd_flow notDue rfl) fun _ _ notDue => enterCmd_flow notDue rfl

/-- R240: whatever a bulk operation has run through, once it has ended the bus is released. -/
theorem bulk_ends_busIdle {s u t : State} {start len k : Nat} {i : Instr} (idle : s.busIdle)
    (bulk : i = .readBlocks start len ∨ i = .writeBlocks start len) (issued : exec i s = .next u)
    (run : ticks k u = .next t) (ended : t.phase = .idle) : t.busIdle :=
  (ticks_closing ((bulk_closing idle bulk).sat u issued) run).busIdle ended

/-- R57, R240: a bulk operation turned away for its length makes no bus event, so the bus is still released. -/
theorem bulkOperation_badLength_busIdle {o : Op} {single multi : Arg → State → State} {start len : Nat} {s : State}
    (idle : s.busIdle) (ready : s.ready = true) (bad : ¬ bufferLenOk len = true) (bulk : o ≠ .none) :
    ∃ u, bulkOperation o single multi start len s = .next u ∧ u.err = some (.invalidArgument len) ∧ u.bus = s.bus ∧
      u.busIdle := by
  refine ⟨_, bulkOperation_badLength idle.accepting ready bad, rfl, rfl, ?_⟩
  rw [raise_bulk idle.accepting _ bulk]
  exact idle

/-- Settles O14: a tick keeps to exits that leave the bus released (`tick_closing`), and both operations start towards such
exits (`bulk_closing`); a length that is not legal is turned away before any bus event. -/
theorem bulkOperationsLeaveTheBusReleased : Obligations.BulkOperationsLeaveTheBusReleased := by
  refine ⟨fun s u t start len k i => bulk_ends_busIdle, fun s start len i idle ready bad bulk => ?_⟩
  have bad : ¬ bufferLenOk len = true := by rw [bufferLenOk_iff]; omega
  rcases bulk with rfl | rfl
  · exact bulkOperation_badLength_busIdle idle ready bad nofun
  · exact bulkOperation_badLength_busIdle idle ready bad nofun

end Sys2Proof.Machine

/-! ### After the exit of a bulk operation (R243) -/

namespace Sys2Proof.Machine

theorem ticks_session {k : Nat} {s t : State} (h : ticks k s = .next t) : SessionKept s t :=
  ticks_induction (P := SessionKept s) (fun _ _ kept one => kept.trans (tick_session one)) k (.refl s) h

/-- R175, R195: with BUS_IDLE and READY = 1, a legal length and an argument within 32 bits, both bulk operations are
accepted. -/
theorem bulk_accepted {s : State} {start len : Nat} {m : Cdv} (idle : s.busIdle) (ready : s.ready = true)
    (cdv : s.cdv = some m) (fits : start * m.toNat < 2 ^ 32) (legal : 0 < len ∧ len % 512 = 0) :
    (∃ v, exec (.readBlocks start len) s = .next v) ∧ ∃ v, exec (.writeBlocks start len) s = .next v := by
  rw [exec_readBlocks, exec_writeBlocks, bulkOperation_starts idle.accepting ready cdv fits legal,
    bulkOperation_starts idle.accepting ready cdv fits legal]
  constructor <;> split <;> exact ⟨_, tick_assert rfl⟩

/-- Settles O15: neither issuing nor ticks write a session register, and BUS_IDLE at the exit is all that the next bulk
operation needs beside them. -/
theorem afterAnErrorTheNextOperationIsAccepted : Obligations.AfterAnErrorTheNextOperationIsAccepted := by
  intro s u t start len k i idle ready bulk issued run ended
  have kept : SessionKept s t := (exec_session issued).trans (ticks_session run)
  have ready' : t.ready = true := kept.ready.trans ready
  refine ⟨kept.ver, kept.cdv, kept.sectors, ready', fun m next len' cdv fits pos aligned => ?_⟩
  exact bulk_accepted (bulk_ends_busIdle idle bulk issued run ended) ready' (kept.cdv.trans cdv) fits ⟨pos, aligned⟩

end Sys2Proof.Machine

/-! ### The boot sequence: go-idle (R231, R263) and the way to READY = 1 (R232, R267 to R271) -/

namespace Sys2Proof.Machine

/-- R126: a response is idle-only exactly if it is the idle-state flag alone, and no status 0. -/
theorem classifyResponse_idleOnly_iff {p : Params} {r : Response} :
    classifyResponse p r = .idleOnly ↔ p.flagIdle ≠ 0 ∧ r = .status p.flagIdle := by
  cases r with
  | timeout => simp [classifyResponse]
  | status f =>
    rw [classify_idleOnly_iff, Response.status.injEq]
    exact and_congr_left (by rintro rfl; rfl)

/-- R263: a failed attempt is followed by the next, or after the fifth by NoCard. -/
theorem bootJudgeIdle_failed {s : State} {attempt : Nat} (failed : s.resp ≠ .status s.cfg.flagIdle) :
    bootJudgeIdle attempt s = if attempt < Config.idleTries then bootGoIdle (attempt + 1) s else bootFail .noCard s :=
  if_neg fun idleOnly => failed (classifyResponse_idleOnly_iff.1 idleOnly).2

/-- Settles O55: the judgement of an attempt, by the class of its response and the number of attempts made. -/
theorem goIdleIsTriedAtMostFiveTimes : Obligations.GoIdleIsTriedAtMostFiveTimes := by
  intro s attempt
  refine ⟨rfl, fun flag idle => ?_, fun failed more => ?_, fun failed last => ?_⟩
  · exact if_pos (classifyResponse_idleOnly_iff.2 ⟨flag, idle⟩)
  · exact (bootJudgeIdle_failed failed).trans (if_pos more)
  · exact (bootJudgeIdle_failed failed).trans (if_neg (Nat.not_lt.2 last))

/-! Which step sets READY. -/

/-- R269, R270: the judgement of CMD16's answer. -/
theorem bootStep_blockLenSent (s : State) :
    bootStep .blockLenSent s =
      if s.resp = .status 0 then .next { s with busRate := s.cfg.runRate, ready := true, result := .done }
      else bootFail (.blockLengthError s.resp) s := rfl

section
variable {u : State}

theorem bootIssue_notReady (b : Boot) (i : Instr) (h : u.ready = false) :
    NextSat (·.ready = false) (bootIssue b i u) := ⟨fun _ issued => (exec_session issued).ready.trans h⟩

theorem bootFail_notReady (e : BlockError) : NextSat (·.ready = false) (bootFail e u) := .next rfl

end

/-- R270: no boot step but the judgement of CMD16's answer raises READY, and that one at status 0 alone. -/
theorem bootStep_notReady {b : Boot} {s : State} (notReady : s.ready = false)
    (notAccepted : b = .blockLenSent → s.resp ≠ .status 0) : NextSat (·.ready = false) (bootStep b s) := by
  cases b with
  | start => exact bootIssue_notReady _ _ rfl
  | clocked =>
    show NextSat _ (bootGoIdle 1 s)
    exact bootIssue_notReady _ _ notReady
  | gen2Reread =>
    show NextSat _ (bootReadCsd { s with cdv := some .sectorAddressed })
    exact bootIssue_notReady _ _ notReady
  | gen1Announced | gen2OcrRead | gen2Announced => exact bootIssue_notReady _ _ notReady
  | idleTried | probed | gen1Polled | gen2Polled =>
    exact .ite (fun _ => bootIssue_notReady _ _ notReady) fun _ =>
      .ite (fun _ => bootIssue_notReady _ _ notReady) fun _ => bootFail_notReady _
  | csdRead =>
    show NextSat _ (bootJudgeCsd s)
    unfold bootJudgeCsd
    split
    · exact bootFail_notReady _
    · dsimp only
      split
      · exact bootFail_notReady _
      · exact bootIssue_notReady _ _ notReady
  | blockLenSent =>
    rw [bootStep_blockLenSent, if_neg (notAccepted rfl)]
    exact bootFail_notReady _

/-- R232, R270: READY goes from 0 to 1 in no step but the judgement of CMD16's answer, and there at status 0 alone. -/
theorem step_ready {s t : State} (h : step s = .next t) (before : s.ready = false) (after : t.ready = true) :
    ∃ rest, s.host = .boot .blockLenSent :: rest ∧ s.phase = .idle ∧ s.resp = .status 0 := by
  have raised : ¬ t.ready = false := by simp [after]
  by_cases booting : s.phase = .idle ∧ ∃ b rest, s.host = .boot b :: rest
  · obtain ⟨idle, b, rest, host⟩ := booting
    have boot : bootStep b { s with host := rest } = .next t := by simpa [step, idle, host] using h
    obtain ⟨rfl, accepted⟩ : b = .blockLenSent ∧ s.resp = .status 0 := by
      by_contra other
      exact raised ((bootStep_notReady (s := { s with host := rest }) before
        fun last accepted => other ⟨last, accepted⟩).sat t boot)
    exact ⟨rest, host, idle, accepted⟩
  · have noBoot : s.phase ≠ .idle ∨ ∀ b rest, s.host ≠ .boot b :: rest :=
      or_iff_not_imp_left.2 fun idle b rest host => booting ⟨not_not.1 idle, b, rest, host⟩
    obtain ⟨_, kept⟩ := step_session h noBoot
    exact absurd (kept.ready.trans before) raised

/-! The judgement of READ_CSD (R267, R268): its own error, or the parse of its sixteen bytes. -/

section
variable {s : State}

theorem bootStep_csdRead_error {e : BlockError} (error : s.err = some e) : bootStep .csdRead s = bootFail e s := by
  show bootJudgeCsd s = _
  simp only [bootJudgeCsd, error]

theorem bootStep_csdRead_parsed {n : Nat} (noError : s.err = none)
    (parsed : csdSectors (Memory.readList s.csd 0 16) = some n) :
    bootStep .csdRead s =
      bootIssue .blockLenSent (.cmd 16 512 0 true false) { s with sectors := some n, csd := [] } := by
  show bootJudgeCsd s = _
  simp only [bootJudgeCsd, noError, Config.csdLen, parsed, Config.blockSize]

theorem bootStep_csdRead_unknown (noError : s.err = none)
    (unknown : csdSectors (Memory.readList s.csd 0 16) = none) :
    bootStep .csdRead s =
      bootFail (.unsupportedCard (.csdVersion (csdVersion (Memory.readList s.csd 0 16)))) s := by
  show bootJudgeCsd s = _
  simp only [bootJudgeCsd, noError, Config.csdLen, unknown]

end

/-- Settles O60: the two judgements by their branches, and READY by the cases of a step. -/
theorem readyOnlyAfterTheBlockLengthIsAccepted : Obligations.ReadyOnlyAfterTheBlockLengthIsAccepted :=
  ⟨fun _ _ => bootStep_csdRead_parsed,
    fun s accepted => (bootStep_blockLenSent s).trans (if_pos accepted),
    fun s => ⟨fun _ => bootStep_csdRead_error, bootStep_csdRead_unknown,
      fun rejected => (bootStep_blockLenSent s).trans (if_neg rejected)⟩,
    fun _ _ => step_ready⟩

end Sys2Proof.Machine

/-! ### The boot sequence: bus clocking, probe, negotiation loops, and the released bus (R260 to R266, R271) -/

namespace Sys2Proof.Machine

/-- R261: between operations a step is the boot step the host has next. -/
theorem step_boot {s : State} {b : Boot} {rest : List HostCall} (idle : s.phase = .idle)
    (host : s.host = .boot b :: rest) : step s = bootStep b { s with host := rest } := by
  simp [step, idle, host]

/-- Settles O54: a construction issues CLOCK_IDLE from the reset values, and its run is the one of O25. -/
theorem bootClocksTheBusFirst : Obligations.BootClocksTheBusFirst := by
  intro s debug rest idle host
  rw [step_boot idle host, bootStep_start]
  exact clockIdleDeassertsAndClocksFillers (constructed debug { s with host := rest }) s.cfg.settle ⟨rfl, rfl, rfl⟩

/-! The judgement of the probe (R264). -/

/-- D17: a flag is one of the seven single bits below bit 7. -/
theorem singleBit_iff_mem {v : BitVec 7} :
    singleBit v = true ↔ v ∈ [0x01#7, 0x02#7, 0x04#7, 0x08#7, 0x10#7, 0x20#7, 0x40#7] := List.contains_iff_mem

/-- D17: two different flags together are neither status 0 nor the first of them alone. -/
theorem singleBit_or {v w : BitVec 7} (hv : singleBit v = true) (hw : singleBit w = true) (differ : v ≠ w) :
    v ≠ 0 ∧ v ||| w ≠ 0 ∧ v ||| w ≠ v := by
  rw [singleBit_iff_mem] at hv hw
  revert v w
  decide

theorem flagIdle_of_wf {p : Params} (h : p.wf = true) :
    p.flagIdle ≠ 0 ∧ p.flagIdle ||| p.flagIllegal ≠ 0 ∧ p.flagIdle ||| p.flagIllegal ≠ p.flagIdle := by
  simp only [Params.wf, Bool.and_eq_true, bne_iff_ne, ne_eq] at h
  obtain ⟨⟨⟨⟨⟨-, differ⟩, idle⟩, illegal⟩, -⟩, -⟩ := h
  exact singleBit_or idle illegal differ

/-- R126: under legal flags a response is idle-and-illegal exactly if it is both flags and no other. -/
theorem classifyResponse_idleAndIllegal_iff {p : Params} (h : p.wf = true) {r : Response} :
    classifyResponse p r = .idleAndIllegal ↔ r = .status (p.flagIdle ||| p.flagIllegal) := by
  obtain ⟨-, nonzero, more⟩ := flagIdle_of_wf h
  cases r with
  | timeout => simp [classifyResponse]
  | status f =>
    rw [classify_idleAndIllegal_iff, Response.status.injEq, ← and_assoc]
    exact and_iff_right_of_imp (by rintro rfl; exact ⟨nonzero, more⟩)

/-- Settles O56: the probe is judged by the class of its response, and under legal flags each of the two classes has one
response. -/
theorem probeSelectsTheGeneration : Obligations.ProbeSelectsTheGeneration := by
  intro s wf
  have idleOnly : classifyResponse s.cfg s.resp = .idleOnly ↔ s.resp = .status s.cfg.flagIdle :=
    classifyResponse_idleOnly_iff.trans (and_iff_right (flagIdle_of_wf wf).1)
  have idleAndIllegal := classifyResponse_idleAndIllegal_iff wf (r := s.resp)
  refine ⟨fun gen2 => ?_, fun gen1 => ?_, fun notGen2 notGen1 => ?_⟩
  · exact if_pos (idleOnly.2 gen2)
  · have both := idleAndIllegal.2 gen1
    exact (if_neg (by simp [both])).trans (if_pos both)
  · exact (if_neg (mt idleOnly.1 notGen2)).trans (if_neg (mt idleAndIllegal.1 notGen1))

/-! The negotiation loops (R265, R266). -/

section
variable {s : State} {n : Nat}

/-- R265: an iteration that has not ended in status 0 is followed by the next, or by the branch's InitTimeout. -/
theorem bootJudgeGen1_busy (busy : s.resp ≠ .status 0) :
    bootJudgeGen1 n s = if n < Config.initBudget then bootGen1 (n + 1) s else bootFail (.initTimeout .gen1) s :=
  if_neg busy

/-- R266: likewise for generation 2. -/
theorem bootJudgeGen2_busy (busy : s.resp ≠ .status 0) :
    bootJudgeGen2 n s = if n < Config.initBudget then bootGen2 (n + 1) s else bootFail (.initTimeout .gen2) s :=
  if_neg busy

end

/-- Settles O57: the steps within an iteration judge nothing; its end is judged by status 0 and then by the budget. -/
theorem negotiationLoopsAreBounded : Obligations.NegotiationLoopsAreBounded := by
  intro s n
  refine ⟨fun accepted => ⟨if_pos accepted, if_pos accepted⟩, rfl, rfl, rfl, rfl, fun busy more => ?_,
    fun busy last => ?_⟩
  · exact ⟨(bootJudgeGen1_busy busy).trans (if_pos more), (bootJudgeGen2_busy busy).trans (if_pos more)⟩
  · have spent : ¬ n < Config.initBudget := Nat.not_lt.2 last
    exact ⟨(bootJudgeGen1_busy busy).trans (if_neg spent), (bootJudgeGen2_busy busy).trans (if_neg spent)⟩

/-! The exits of a boot step (R240, R271). -/

/-- R125: an operation that begins with a command whose return points all leave the bus released starts towards them. -/
theorem begin_enterCmd_closing {i : Index} {a : Arg} {e : Nat} {r k : Bool} {ks : List Cont} {s : State}
    (closed : closes ks r = true) : NextSat State.closing (begin s fun s => tick (enterCmd i a e r k ks s)) :=
  .begin fun _ notDue => ⟨fun _ => tick_closing (enterCmd_flow (s := started s) notDue closed)⟩

/-- R271: every CMD of the boot sequence is polled with release. -/
theorem bootIssue_cmd_closing (b : Boot) (index argument extra : Nat) (skip : Bool) (s : State) :
    NextSat State.closing (bootIssue b (.cmd index argument extra true skip) s) :=
  .require fun _ => begin_enterCmd_closing rfl

/-- R176: READ_CSD releases on each of its paths. -/
theorem bootReadCsd_closing (s : State) : NextSat State.closing (bootReadCsd s) := begin_enterCmd_closing rfl

theorem bootFail_closing {s : State} (idle : s.busIdle) (e : BlockError) : NextSat State.closing (bootFail e s) :=
  .next (.inr idle)

/-- R271: a boot step issues an operation whose exits all leave the bus released, or makes no bus event. -/
theorem bootStep_closing {b : Boot} {s : State} (later : ∀ debug, b ≠ .start debug)
    (idle : b ≠ .clocked → s.busIdle) : NextSat State.closing (bootStep b s) := by
  cases b with
  | start debug => exact absurd rfl (later debug)
  | clocked =>
    show NextSat _ (bootGoIdle 1 s)
    exact bootIssue_cmd_closing ..
  | gen1Announced | gen2OcrRead | gen2Announced => exact bootIssue_cmd_closing ..
  | gen2Reread => exact bootReadCsd_closing _
  | idleTried | probed | gen2Polled =>
    exact .ite (fun _ => bootIssue_cmd_closing ..) fun _ =>
      .ite (fun _ => bootIssue_cmd_closing ..) fun _ => bootFail_closing (idle nofun) _
  | gen1Polled =>
    exact .ite (fun _ => bootReadCsd_closing _) fun _ =>
      .ite (fun _ => bootIssue_cmd_closing ..) fun _ => bootFail_closing (idle nofun) _
  | csdRead =>
    show NextSat _ (bootJudgeCsd s)
    unfold bootJudgeCsd
    split
    · exact bootFail_closing (idle nofun) _
    · dsimp only
      split
      · exact bootFail_closing (idle nofun) _
      · exact bootIssue_cmd_closing ..
  | blockLenSent =>
    rw [bootStep_blockLenSent]
    exact .ite (fun _ => .next (.inr (idle nofun))) fun _ => bootFail_closing (idle nofun) _

/-- Settles O58: a boot step starts towards exits that leave the bus released (`bootStep_closing`), and ticks keep to
them (`ticks_closing`). -/
theorem bootStepsLeaveTheBusReleased : Obligations.BootStepsLeaveTheBusReleased := by
  intro s u t b k later before booted run ended
  have idle : b ≠ .clocked → s.busIdle := fun notClocked => before.resolve_right fun clocked => notClocked clocked.1
  exact (ticks_closing ((bootStep_closing later idle).sat u booted) run).busIdle ended

end Sys2Proof.Machine

/-! ### The capacity register's sector count (R268) -/

namespace Sys2Proof.Machine

/-- Bits in front of n others weigh 2 ^ n times as much. -/
theorem toNat_append_eq_add {m n : Nat} (x : BitVec m) (y : BitVec n) :
    (x ++ y).toNat = x.toNat * 2 ^ n + y.toNat := by
  rw [BitVec.toNat_append, ← Nat.shiftLeft_add_eq_or_of_lt y.isLt, Nat.shiftLeft_eq]

section
variable (csd : List Byte)

/-- R268, G11: the size field as a number. -/
theorem csdCSize_toNat : (csdCSize csd).toNat =
    (csd.getD 6 0).toNat % 4 * 1024 + (csd.getD 7 0).toNat * 4 + (csd.getD 8 0).toNat / 64 := by
  have byte8 := (csd.getD 8 0).isLt
  simp only [csdCSize, csdByte, toNat_append_eq_add, BitVec.extractLsb'_toNat, Nat.shiftRight_eq_div_pow]
  omega

/-- R268, G11: the multiplier field as a number. -/
theorem csdCSizeMult_toNat : (csdCSizeMult csd).toNat =
    (csd.getD 9 0).toNat % 4 * 2 + (csd.getD 10 0).toNat / 128 := by
  have byte10 := (csd.getD 10 0).isLt
  simp only [csdCSizeMult, csdByte, toNat_append_eq_add, BitVec.extractLsb'_toNat, Nat.shiftRight_eq_div_pow]
  omega

/-- R268: from the least size and multiplier to the greatest. -/
theorem csdSectors1_range : 4 ≤ csdSectors1 csd ∧ csdSectors1 csd ≤ 2097152 := by
  have size : (csdCSize csd).toNat + 1 ≤ 4096 := (csdCSize csd).isLt
  have mult : (csdCSizeMult csd).toNat + 2 ≤ 9 := Nat.add_le_add_right (Nat.le_of_lt_succ (csdCSizeMult csd).isLt) 2
  have least : 2 ^ 2 ≤ 2 ^ ((csdCSizeMult csd).toNat + 2) := Nat.pow_le_pow_right two_pos (Nat.le_add_left ..)
  have most : 2 ^ ((csdCSizeMult csd).toNat + 2) ≤ 2 ^ 9 := Nat.pow_le_pow_right two_pos mult
  exact ⟨Nat.mul_le_mul (Nat.succ_pos _) least, Nat.mul_le_mul size most⟩

theorem csdSectors2_range : 1024 ≤ csdSectors2 csd ∧ csdSectors2 csd ≤ 67108864 := by
  have high := (csdByte csd 8).isLt
  have low := (csdByte csd 9).isLt
  unfold csdSectors2
  omega

end

section
variable {csd : List Byte}

theorem csdSectors_version2 (version : csdVersion csd = 0b01) : csdSectors csd = some (csdSectors2 csd) :=
  if_pos version

theorem csdSectors_version1 (version : csdVersion csd = 0b00) : csdSectors csd = some (csdSectors1 csd) := by
  simp [csdSectors, version]

theorem csdSectors_unknown (version : csdVersion csd = 0b10 ∨ csdVersion csd = 0b11) : csdSectors csd = none := by
  rcases version with version | version <;> simp [csdSectors, version]

/-- R268: a count comes from one of the two layouts. -/
theorem csdSectors_cases {n : Nat} (h : csdSectors csd = some n) :
    csdVersion csd = 0b01 ∧ csdSectors2 csd = n ∨ csdVersion csd = 0b00 ∧ csdSectors1 csd = n := by
  unfold csdSectors at h
  split_ifs at h with version2 version1
  · exact .inl ⟨version2, Option.some.inj h⟩
  · exact .inr ⟨version1, Option.some.inj h⟩

end

/-- Settles O59: the count by the version bits, the version-1 fields as numbers, and each layout's range. -/
theorem capacityArithmetic : Obligations.CapacityArithmetic := by
  intro csd _
  refine ⟨csdSectors_version2, fun version => ?_, csdSectors_unknown, fun n count => ?_⟩
  · rw [csdSectors_version1 version, csdSectors1, csdCSize_toNat, csdCSizeMult_toNat]
  · rcases csdSectors_cases count with ⟨version, rfl⟩ | ⟨version, rfl⟩
    · obtain ⟨least, most⟩ := csdSectors2_range csd
      exact ⟨by omega, most, fun _ => least, by simp [version]⟩
    · obtain ⟨least, most⟩ := csdSectors1_range csd
      exact ⟨least, by omega, by simp [version], fun _ => most⟩

end Sys2Proof.Machine
